-- ==== Sys2Proof/Word.lean ====
section
/-! DEFINITION. The word types of the QRGF engine. Bit 0 is the least significant bit; every value is unsigned
(spec 00_scope.md R11). -/

namespace Sys2Proof

/-- A 32-bit register word: the only access width (20_memory.md R62) and the width of a command (30_encoding.md R90). -/
abbrev Word := BitVec 32

/-- A byte: a field element, a coefficient, a codeword byte (00_scope.md R12, R17). -/
abbrev Byte := BitVec 8

end Sys2Proof
end

