-- ==== Sys2Proof/Syntax.lean ====
section
/-! DEFINITION. The commands of the engine, one constructor per row of spec/opcode_table.json (30_encoding.md R93). Each
operand has exactly the width of its field (30_encoding.md R92), so every term is a command with a legal word. -/

namespace Sys2Proof

/-- A polynomial register number: the 2-bit fields RD, RS, RT select P0..P3 (30_encoding.md R92). -/
inductive PReg where
  | p0 | p1 | p2 | p3
  deriving DecidableEq, Repr

/-- The register's number, an index of the register file. -/
def PReg.idx : PReg → Fin 4
  | .p0 => 0
  | .p1 => 1
  | .p2 => 2
  | .p3 => 3

/-- The commands (30_encoding.md R93). -/
inductive Instr where
  | nop
  | gfmul (a b : Byte)
  | gfexp (i : Byte)
  | gflog (a : Byte)
  | pmul (pd ps pt : PReg)
  | pmod (pd ps pt : PReg)
  | genpoly (pd : PReg) (n : Byte)
  | rsenc (pd ps : PReg) (n : Byte)
  | bchf (d : BitVec 5)
  | bchv (v : BitVec 6)
  | gclear
  | gfinder
  | galign
  | gtiming
  | gformat
  | gversion
  | gmap
  | gbuild
  | apos (k : Byte)
  | maskfn (m : BitVec 3) (row col : Byte)
  | score
  | best
  deriving DecidableEq, Repr

/-! The pseudo-commands, each one command (30_encoding.md R99). -/

/-- `GFSQ a`: the square of a field element. -/
def Instr.gfsq (a : Byte) : Instr := .gfmul a a

/-- `GFALPHA i`: a power of α. -/
def Instr.gfalpha (i : Byte) : Instr := .gfexp i

/-- The EC levels by name (00_scope.md R17). -/
inductive Level where
  | L | M | Q | H
  deriving DecidableEq, Repr

/-- The 2-bit pattern of an EC level (00_scope.md R7). -/
def Level.pat : Level → BitVec 2
  | .L => 0b01
  | .M => 0b00
  | .Q => 0b11
  | .H => 0b10

/-- `FMTINFO lvl, m`: the format word of a level and a mask id, `BCHF (pat(lvl) << 3) | m`. -/
def Instr.fmtinfo (lvl : Level) (m : BitVec 3) : Instr := .bchf (lvl.pat ++ m)

/-- `VERINFO v`. -/
def Instr.verinfo (v : BitVec 6) : Instr := .bchv v

/-- `RSGEN pd, n`: the source's name for GENPOLY. -/
def Instr.rsgen (pd : PReg) (n : Byte) : Instr := .genpoly pd n

end Sys2Proof
end

