-- ==== Sys2Proof/WellFormed.lean ====
section
/-! DEFINITION. A command as a programmer writes it (30_encoding.md R98): a mnemonic and operands that may be out of
range, and the check that says which of them are commands. A term of `Instr` passes by its types. -/

namespace Sys2Proof

/-- An operand as written: a register `p<k>` or a number. -/
inductive Operand where
  | reg (k : Nat)
  | imm (v : Nat)
  deriving DecidableEq, Repr

/-- What an operand of a format may be: a register number, or a number of so many bits (30_encoding.md R92). -/
inductive OperandKind where
  | reg
  | imm (bits : Nat)
  deriving DecidableEq, Repr

/-- A command as written: `MNEMONIC operand, operand, ...` (30_encoding.md R98). -/
structure Asm where
  mnemonic : String
  operands : List Operand
  deriving DecidableEq, Repr

/-- The operands of each mnemonic, in the order of 30_encoding.md R93; `none` for a word that is no mnemonic. -/
def operandKinds (mnemonic : String) : Option (List OperandKind) :=
  match mnemonic with
  | "NOP" => some []
  | "GFMUL" => some [.imm 8, .imm 8]
  | "GFEXP" => some [.imm 8]
  | "GFLOG" => some [.imm 8]
  | "PMUL" => some [.reg, .reg, .reg]
  | "PMOD" => some [.reg, .reg, .reg]
  | "GENPOLY" => some [.reg, .imm 8]
  | "RSENC" => some [.reg, .reg, .imm 8]
  | "BCHF" => some [.imm 5]
  | "BCHV" => some [.imm 6]
  | "GCLEAR" => some []
  | "GFINDER" => some []
  | "GALIGN" => some []
  | "GTIMING" => some []
  | "GFORMAT" => some []
  | "GVERSION" => some []
  | "GMAP" => some []
  | "GBUILD" => some []
  | "APOS" => some [.imm 8]
  | "MASKFN" => some [.imm 3, .imm 8, .imm 8]
  | "SCORE" => some []
  | "BEST" => some []
  | _ => none

/-- An operand is in the range its field can hold (30_encoding.md R92, R97). -/
def Operand.fits : Operand → OperandKind → Bool
  | .reg k, .reg => k < 4
  | .imm v, .imm bits => v < 2 ^ bits
  | _, _ => false

/-- Operand by operand, as many as the kinds and each in range. -/
def operandsFit : List Operand → List OperandKind → Bool
  | [], [] => true
  | o :: os, k :: ks => o.fits k && operandsFit os ks
  | _, _ => false

/-- The command is one the encoding can hold: a known mnemonic, the right number of operands, each of its kind and in
range. -/
def Asm.wellFormed (a : Asm) : Bool :=
  match operandKinds a.mnemonic with
  | none => false
  | some kinds => operandsFit a.operands kinds

/-- A register as an operand. -/
def PReg.operand (p : PReg) : Operand := .reg p.idx

/-- How a command is written (30_encoding.md R93). -/
def Instr.toAsm : Instr → Asm
  | .nop => ⟨"NOP", []⟩
  | .gfmul a b => ⟨"GFMUL", [.imm a.toNat, .imm b.toNat]⟩
  | .gfexp i => ⟨"GFEXP", [.imm i.toNat]⟩
  | .gflog a => ⟨"GFLOG", [.imm a.toNat]⟩
  | .pmul pd ps pt => ⟨"PMUL", [pd.operand, ps.operand, pt.operand]⟩
  | .pmod pd ps pt => ⟨"PMOD", [pd.operand, ps.operand, pt.operand]⟩
  | .genpoly pd n => ⟨"GENPOLY", [pd.operand, .imm n.toNat]⟩
  | .rsenc pd ps n => ⟨"RSENC", [pd.operand, ps.operand, .imm n.toNat]⟩
  | .bchf d => ⟨"BCHF", [.imm d.toNat]⟩
  | .bchv v => ⟨"BCHV", [.imm v.toNat]⟩
  | .gclear => ⟨"GCLEAR", []⟩
  | .gfinder => ⟨"GFINDER", []⟩
  | .galign => ⟨"GALIGN", []⟩
  | .gtiming => ⟨"GTIMING", []⟩
  | .gformat => ⟨"GFORMAT", []⟩
  | .gversion => ⟨"GVERSION", []⟩
  | .gmap => ⟨"GMAP", []⟩
  | .gbuild => ⟨"GBUILD", []⟩
  | .apos k => ⟨"APOS", [.imm k.toNat]⟩
  | .maskfn m row col => ⟨"MASKFN", [.imm m.toNat, .imm row.toNat, .imm col.toNat]⟩
  | .score => ⟨"SCORE", []⟩
  | .best => ⟨"BEST", []⟩

/-- A command is well formed when what is written for it is: every field in its range. -/
abbrev Instr.WellFormed (i : Instr) : Prop := i.toAsm.wellFormed = true

end Sys2Proof
end

