-- ==== Sys2Proof/Decode.lean ====
section
/-! DEFINITION. Command words: fields, formats, the decoder, total on every word, and the encoder (30_encoding.md R90 to
R96), the two written from the same tables of the spec. -/

namespace Sys2Proof

/-- The formats (30_encoding.md R91). -/
inductive Format where
  | n | ab | i8 | i5 | i6 | r3 | rn | r2n | m
  deriving DecidableEq, Repr

/-- MASK_f, the bits a format fixes (30_encoding.md R94). -/
def Format.mask : Format → Word
  | .n => 0xFFFFFFFF
  | .ab => 0xFFFF0000
  | .i8 => 0xFFFFFF00
  | .i5 => 0xFFFFFFE0
  | .i6 => 0xFFFFFFC0
  | .r3 => 0xFF03FFFF
  | .rn => 0xFF3FFF00
  | .r2n => 0xFF0FFF00
  | .m => 0xFFF80000

/-! Fields (30_encoding.md R92). -/

/-- OPC = w[31:24]. -/
def opcOf (w : Word) : Byte := w.extractLsb' 24 8

/-- A = w[15:8], and ROW of format M. -/
def fieldA (w : Word) : Byte := w.extractLsb' 8 8

/-- B = w[7:0], and IMM8, N, COL. -/
def fieldB (w : Word) : Byte := w.extractLsb' 0 8

/-- IMM5 = w[4:0]. -/
def fieldImm5 (w : Word) : BitVec 5 := w.extractLsb' 0 5

/-- IMM6 = w[5:0]. -/
def fieldImm6 (w : Word) : BitVec 6 := w.extractLsb' 0 6

/-- M = w[18:16]. -/
def fieldM (w : Word) : BitVec 3 := w.extractLsb' 16 3

/-- The register a 2-bit field selects: 00 = P0, 01 = P1, 10 = P2, 11 = P3. -/
def regOf (b : BitVec 2) : PReg :=
  match b.toNat with
  | 0 => .p0
  | 1 => .p1
  | 2 => .p2
  | _ => .p3

/-- RD = w[23:22]. -/
def fieldRD (w : Word) : PReg := regOf (w.extractLsb' 22 2)

/-- RS = w[21:20]. -/
def fieldRS (w : Word) : PReg := regOf (w.extractLsb' 20 2)

/-- RT = w[19:18]. -/
def fieldRT (w : Word) : PReg := regOf (w.extractLsb' 18 2)

/-- Why a word is illegal (30_encoding.md R96): both reasons are treated alike by the engine. -/
inductive IllegalReason where
  | unknownOpcode
  | reservedBitSet
  deriving DecidableEq, Repr

/-- What a word is: a command, or ILLEGAL and why (30_encoding.md R95). -/
inductive Decoded where
  | command (i : Instr)
  | illegal (why : IllegalReason)
  deriving DecidableEq, Repr

/-- MATCH of a word's own opcode, OPC << 24 (30_encoding.md R94). -/
def matchOf (w : Word) : Word := opcOf w ++ 0#24

/-- The legality test of a listed opcode's word: `(w & MASK_f) = MATCH` (30_encoding.md R94). -/
def legalAs (f : Format) (w : Word) (i : Instr) : Decoded :=
  if w &&& f.mask = matchOf w then .command i else .illegal .reservedBitSet

/-- The decode function, total on every 32-bit word (30_encoding.md R93, R95). -/
def decode (w : Word) : Decoded :=
  match (opcOf w).toNat with
  | 0x00 => legalAs .n w .nop
  | 0x01 => legalAs .ab w (.gfmul (fieldA w) (fieldB w))
  | 0x02 => legalAs .i8 w (.gfexp (fieldB w))
  | 0x03 => legalAs .i8 w (.gflog (fieldB w))
  | 0x10 => legalAs .r3 w (.pmul (fieldRD w) (fieldRS w) (fieldRT w))
  | 0x11 => legalAs .r3 w (.pmod (fieldRD w) (fieldRS w) (fieldRT w))
  | 0x12 => legalAs .rn w (.genpoly (fieldRD w) (fieldB w))
  | 0x18 => legalAs .r2n w (.rsenc (fieldRD w) (fieldRS w) (fieldB w))
  | 0x20 => legalAs .i5 w (.bchf (fieldImm5 w))
  | 0x21 => legalAs .i6 w (.bchv (fieldImm6 w))
  | 0x30 => legalAs .n w .gclear
  | 0x31 => legalAs .n w .gfinder
  | 0x32 => legalAs .n w .galign
  | 0x33 => legalAs .n w .gtiming
  | 0x34 => legalAs .n w .gformat
  | 0x35 => legalAs .n w .gversion
  | 0x36 => legalAs .n w .gmap
  | 0x37 => legalAs .n w .gbuild
  | 0x38 => legalAs .i8 w (.apos (fieldB w))
  | 0x40 => legalAs .m w (.maskfn (fieldM w) (fieldA w) (fieldB w))
  | 0x41 => legalAs .n w .score
  | 0x42 => legalAs .n w .best
  | _ => .illegal .unknownOpcode

/-- The command of a decoding, if it is one. -/
def Decoded.toOption : Decoded → Option Instr
  | .command i => some i
  | .illegal _ => none

/-! The encoder: the columns of 30_encoding.md R91, from bit 31 down. -/

/-- The 2-bit number of a register field. -/
def PReg.bits : PReg → BitVec 2
  | .p0 => 0b00
  | .p1 => 0b01
  | .p2 => 0b10
  | .p3 => 0b11

/-- A command's opcode (30_encoding.md R93). -/
def Instr.opc : Instr → Byte
  | .nop => 0x00
  | .gfmul _ _ => 0x01
  | .gfexp _ => 0x02
  | .gflog _ => 0x03
  | .pmul _ _ _ => 0x10
  | .pmod _ _ _ => 0x11
  | .genpoly _ _ => 0x12
  | .rsenc _ _ _ => 0x18
  | .bchf _ => 0x20
  | .bchv _ => 0x21
  | .gclear => 0x30
  | .gfinder => 0x31
  | .galign => 0x32
  | .gtiming => 0x33
  | .gformat => 0x34
  | .gversion => 0x35
  | .gmap => 0x36
  | .gbuild => 0x37
  | .apos _ => 0x38
  | .maskfn _ _ _ => 0x40
  | .score => 0x41
  | .best => 0x42

/-- A command's format (30_encoding.md R93). -/
def Instr.format : Instr → Format
  | .gfmul _ _ => .ab
  | .gfexp _ | .gflog _ | .apos _ => .i8
  | .pmul _ _ _ | .pmod _ _ _ => .r3
  | .genpoly _ _ => .rn
  | .rsenc _ _ _ => .r2n
  | .bchf _ => .i5
  | .bchv _ => .i6
  | .maskfn _ _ _ => .m
  | .nop | .gclear | .gfinder | .galign | .gtiming | .gformat | .gversion | .gmap | .gbuild | .score | .best => .n

/-- Bits [23:0] of a command's word: the operand fields and the reserved zeros (30_encoding.md R91). -/
def Instr.operandBits : Instr → BitVec 24
  | .gfmul a b => 0#8 ++ a ++ b
  | .gfexp i => 0#16 ++ i
  | .gflog a => 0#16 ++ a
  | .pmul pd ps pt => pd.bits ++ ps.bits ++ pt.bits ++ 0#18
  | .pmod pd ps pt => pd.bits ++ ps.bits ++ pt.bits ++ 0#18
  | .genpoly pd n => pd.bits ++ 0#14 ++ n
  | .rsenc pd ps n => pd.bits ++ ps.bits ++ 0#12 ++ n
  | .bchf d => 0#19 ++ d
  | .bchv v => 0#18 ++ v
  | .apos k => 0#16 ++ k
  | .maskfn m row col => 0#5 ++ m ++ row ++ col
  | .nop | .gclear | .gfinder | .galign | .gtiming | .gformat | .gversion | .gmap | .gbuild | .score | .best => 0#24

/-- The word of a command. -/
def encode (i : Instr) : Word := i.opc ++ i.operandBits

/-! Bytes and the host's numbering. -/

/-- Byte lane `k` of a word carries bits [8k+7:8k] (20_memory.md R64). -/
def byteLane (w : Word) (k : Nat) : Byte := w.extractLsb' (8 * k) 8

/-- The word of four byte lanes, lane 0 first. -/
def wordOfLanes (b0 b1 b2 b3 : Byte) : Word := b3 ++ b2 ++ b1 ++ b0

/-- Decoding of any bytes, lane 0 first, with the bytes left over; fewer than four bytes hold no command. -/
def decodeBytes : List Byte → Option (Instr × List Byte)
  | b0 :: b1 :: b2 :: b3 :: rest => (decode (wordOfLanes b0 b1 b2 b3)).toOption.map (·, rest)
  | _ => none

/-- The low `nbits` bits of `w`, as the word that is written to CMD. -/
def tableWord (nbits w : Nat) : Word := BitVec.ofNat 32 (w % 2 ^ nbits)

/-- What the decoder reads from the instruction whose bits are `w`, the bits above `nbits` zero; a command is exactly one
32-bit word (30_encoding.md R90), so longer bits are no command. -/
def decodeTableWord (nbits w : Nat) : Option Instr :=
  if w % 2 ^ nbits < 2 ^ 32 then
    let t := tableWord nbits w
    (decodeBytes [byteLane t 0, byteLane t 1, byteLane t 2, byteLane t 3]).map Prod.fst
  else none

end Sys2Proof
end

