-- ==== Sys2Proof/Config.lean ====
section
/-! DEFINITION. What an implementation fixes (spec 00_scope.md R7) and the free values of the spec. -/

namespace Sys2Proof

/-- How penalty rule (d) rounds the dark percentage (45_mask.md R225, 92_eei_decisions.md D22): an OPEN parameter. -/
inductive RuleDPercent where
  /-- the formula read over the rationals; the spec's default -/
  | exact
  /-- the percentage rounded down first -/
  | truncated
  deriving DecidableEq, Repr

/-- The OPEN parameters a command's result depends on (00_scope.md R7). A state carries one value of them that no step
changes, so a statement about every state holds for every value (log 4). -/
structure Params where
  /-- whether BEST's trial builds write format, version and fixed dark cells light (44_grid.md R187) -/
  trialMetaLight : Bool
  /-- rounding of rule (d) -/
  ruleDPercent : RuleDPercent
  deriving DecidableEq, Repr

/-- The spec's defaults (00_scope.md R7). -/
def Params.default : Params := { trialMetaLight := false, ruleDPercent := .exact }

namespace Config

/-- NPREG, the polynomial registers P0..P3 (00_scope.md R7). -/
abbrev npreg : Nat := 4

/-- MAXLEN, coefficients of a polynomial register (00_scope.md R8). -/
abbrev maxLen : Nat := 256

/-- CW_SIZE, bytes of codeword memory (00_scope.md R9). -/
abbrev cwSize : Nat := 4096

/-- GRID_MAX, the side of the grid array (00_scope.md R10). -/
abbrev gridMax : Nat := 177

/-- The size in bytes of the register window (20_memory.md R60). -/
abbrev windowSize : Nat := 0x80000

/-- ENGINE_BASE, the platform address of the window: OPEN, so it has no body (00_scope.md R7; log 5). Every access of the
model is by offset, as every rule of the spec is. -/
opaque engineBase : Nat

/-- The free value number `k`: what a host read of engine-written state returns while BUSY = 1, before the bits outside
the field are cleared ("a fresh arbitrary 32-bit value", 70_reset_and_hazards.md R286; log 3). It has no body. -/
opaque freeValue (k : Nat) : Word

end Config

end Sys2Proof
end

