-- ==== Sys2Proof/Machine/State.lean ====
section
/-! DEFINITION. The state of the engine (10_state.md R20), all of it plain data, and the state after reset
(70_reset_and_hazards.md R280). -/

namespace Sys2Proof.Machine

/-- The engine's arrays (PC, CW, the grid) at their offsets in the register window: pairs of a window offset and the byte
in the low lane of the word there (20_memory.md R61, R64), offsets strictly rising, no byte 0; an unlisted offset reads 0,
the reset value of every array (70_reset_and_hazards.md R280; log 11). -/
abbrev Memory := List Host.Cell

/-- CTRL (10_state.md R22); SRST stores nothing, its write is the soft reset. -/
structure Ctrl where
  ie : Bool
  eie : Bool
  deriving DecidableEq, Repr

/-- STATUS (10_state.md R23). -/
structure Status where
  busy : Bool
  done : Bool
  err : Bool
  haz : Bool
  ecode : Byte
  deriving DecidableEq, Repr

/-- What the outside world does to the engine, and whose turn it is (20_memory.md R72; log 1, log 16). -/
inductive HostEvent where
  /-- the host reads `bytes` bytes at byte offset `off` of the window (00_scope.md R15) -/
  | hostRead (bytes off : Nat)
  /-- the host writes `v`, `bytes` bytes wide, at byte offset `off` -/
  | hostWrite (bytes off : Nat) (v : Word)
  /-- power-on reset (70_reset_and_hazards.md R280) -/
  | powerOn
  /-- the schedule gives the engine its turn (70_reset_and_hazards.md R290) -/
  | engineTurn
  deriving DecidableEq, Repr

/-- The last answer on the host's bus (20_memory.md R62, 60_exceptions.md R256; log 2). -/
inductive BusReply where
  /-- no access yet -/
  | none
  /-- a read's data -/
  | data (v : Word)
  /-- a write was taken by the bus -/
  | accepted
  /-- BUS_ERROR: the access was refused -/
  | busError
  deriving DecidableEq, Repr

/-- The engine's error codes (60_exceptions.md R250). -/
inductive ErrorCode where
  | illegal | log0 | len | div | version | cwlen
  deriving DecidableEq, Repr

/-- The machine's state: 10_state.md R20's list, then the model's own fields. -/
structure State where
  ctrl : Ctrl
  status : Status
  /-- CMD, the last accepted word; while BUSY = 1 it is the pending command (10_state.md R24, R36; log 8) -/
  cmd : Word
  version : BitVec 6
  ecl : BitVec 2
  mask : BitVec 3
  cwlen : BitVec 13
  res : Vector Word 8
  tscore : Vector Word 8
  plen : Vector (BitVec 9) 4
  mem : Memory
  /-- the model's own: the OPEN parameters (00_scope.md R7; log 4) -/
  params : Params
  /-- the model's own: the events still to come, first first (log 1) -/
  inputs : List HostEvent
  /-- the model's own: the last answer of the bus (log 2) -/
  bus : BusReply
  /-- the model's own: how many free values have been drawn (70_reset_and_hazards.md R286; log 3) -/
  draws : Nat
  deriving DecidableEq, Repr

/-- Why the machine stops with a fault: never. Every command completes, an error being a result in STATUS
(60_exceptions.md R255), and a refused host access changes nothing (60_exceptions.md R256), so nothing raises a fault. -/
inductive Fault
  deriving DecidableEq, Repr

/-- Why there is no meaning. -/
inductive Refusal where
  /-- raised by exec's arm of an instruction that has no meaning yet (no arm does); safe, since nothing is proved of it -/
  | notModelled (mnemonic : String)
  deriving DecidableEq, Repr

/-- The three outcomes of a step of this machine. -/
abbrev Result := Host.Outcome State Fault Refusal

/-- The state after power-on reset (70_reset_and_hazards.md R280): every value is the spec's but those of the model's own
fields `inputs`, `bus` and `draws` (DESIGN CHOICE, log 1 to 3); `params` are the spec's defaults (00_scope.md R7, log 4). -/
def State.reset : State where
  ctrl := { ie := false, eie := false }
  status := { busy := false, done := false, err := false, haz := false, ecode := 0#8 }
  cmd := 0x00000000#32
  version := 0#6
  ecl := 0#2
  mask := 0#3
  cwlen := 0#13
  res := Vector.replicate 8 0#32
  tscore := Vector.replicate 8 0#32
  plen := Vector.replicate 4 0#9
  mem := []
  params := Params.default
  inputs := []
  bus := .none
  draws := 0

end Sys2Proof.Machine
end

