-- ==== Sys2Proof/Machine/Ops.lean ====
section
/-! DEFINITION. The named operations: over the arrays, over the registers, and over a command's life (acceptance,
completion, error, acknowledgement, reset). -/

namespace Sys2Proof.Machine

/-! The arrays. The comparisons are Bool, which the kernel evaluates fastest. -/

/-- The byte at a window offset; an unlisted offset reads 0. -/
def Memory.read : Memory → Nat → Byte
  | [], _ => 0#8
  | (k, v) :: m, a => bif Nat.beq k a then v else Memory.read m a

/-- The byte at a window offset becomes `v`; a 0 is not listed. -/
def Memory.write : Memory → Nat → Byte → Memory
  | [], a, v => bif v == 0#8 then [] else [(a, v)]
  | (k, w) :: m, a, v =>
    bif Nat.blt k a then (k, w) :: Memory.write m a v
    else bif Nat.beq k a then (bif v == 0#8 then m else (a, v) :: m)
    else bif v == 0#8 then (k, w) :: m
    else (a, v) :: (k, w) :: m

/-- The bytes at the offsets `p` names become 0. -/
def Memory.clear (m : Memory) (p : Nat → Bool) : Memory :=
  m.filter fun c => !p c.1

/-- Bytes one after another, each in the low lane of its own word, from offset `a` on (20_memory.md R64). -/
def Memory.writeWords : Memory → Nat → List Byte → Memory
  | m, _, [] => m
  | m, a, v :: vs => Memory.writeWords (m.write a v) (a + 4) vs

/-- Every entry lies above offset `lo` and is not 0, offsets strictly rising. -/
def Memory.risingFrom : Nat → Memory → Bool
  | _, [] => true
  | lo, (k, v) :: m => decide (lo ≤ k) && decide (v ≠ 0#8) && Memory.risingFrom (k + 1) m

/-- The canonical form: offsets strictly rising, no byte 0 listed (log 11). -/
def Memory.wf (m : Memory) : Bool := m.risingFrom 0

/-- The offset of PC[p][i] (10_state.md R33). -/
def coefAddr (p : PReg) (i : Nat) : Nat := 0x1000 + 0x400 * p.idx + 4 * i

/-- The offset of CW[i] (10_state.md R34). -/
def cwAddr (i : Nat) : Nat := 0x4000 + 4 * i

/-- The offset of cell(r, c) (10_state.md R35). -/
def cellAddr (r c : Nat) : Nat := 0x10000 + 4 * (256 * r + c)

/-- The row of a grid offset. -/
def rowOf (a : Nat) : Nat := (a - 0x10000) / 1024

/-- The column of a grid offset. -/
def colOf (a : Nat) : Nat := (a - 0x10000) / 4 % 256

/-- The offset is that of a coefficient of P[p]. -/
def isCoefAddr (p : PReg) (a : Nat) : Bool :=
  a % 4 == 0 && Nat.ble (coefAddr p 0) a && Nat.blt a (coefAddr p Config.maxLen)

/-- The offset is that of a codeword byte. -/
def isCwAddr (a : Nat) : Bool :=
  a % 4 == 0 && Nat.ble (cwAddr 0) a && Nat.blt a (cwAddr Config.cwSize)

/-- The offset lies in the grid's range of the map and is aligned (20_memory.md R61): a cell, or a hole of a row or column
of 177..255. -/
def isGridAddr (a : Nat) : Bool :=
  a % 4 == 0 && Nat.ble 0x10000 a && Nat.blt a 0x50000

/-- The offset is that of a cell of the 177 × 177 array (10_state.md R35). -/
def isCellAddr (a : Nat) : Bool :=
  isGridAddr a && Nat.blt (rowOf a) Config.gridMax && Nat.blt (colOf a) Config.gridMax

/-- The code UNSET (10_state.md R35). -/
abbrev unset : Byte := 0#8

/-- The codes LIGHT and DARK (10_state.md R35). -/
def colour (dark : Bool) : Byte := if dark then 2#8 else 1#8

/-! The registers. -/

/-- `P[p]`: the coefficients PC[p][0..PLEN[p]−1], highest degree first (10_state.md R33, 20_memory.md R66). -/
def State.poly (s : State) (p : PReg) : List Byte :=
  (List.range s.plen[p.idx].toNat).map fun i => s.mem.read (coefAddr p i)

/-- `P[p] <- l` (00_scope.md R14): the length, the coefficients, and 0 in the cells beyond them. -/
def State.setPoly (s : State) (p : PReg) (l : List Byte) : State :=
  { s with
    plen := s.plen.set p.idx (BitVec.ofNat 9 l.length)
    mem := (s.mem.clear (isCoefAddr p)).writeWords (coefAddr p 0) l }

/-- `RES<k> <- zext_32(v)` (10_state.md R28). -/
def State.setRes (s : State) (k : Fin 8) (v : Nat) : State :=
  { s with res := s.res.set k (BitVec.ofNat 32 v) }

/-- The arrays become `m`. -/
def State.setMem (s : State) (m : Memory) : State := { s with mem := m }

/-- `MASK <- m`. -/
def State.setMask (s : State) (m : BitVec 3) : State := { s with mask := m }

/-- `TSCORE0..TSCORE7 <- v` (45_mask.md R232). -/
def State.setTscores (s : State) (v : Vector Word 8) : State := { s with tscore := v }

/-- The host's bus answers (log 2). -/
def State.reply (s : State) (r : BusReply) : State := { s with bus := r }

/-- The pending command: the latched word, until it is executed (10_state.md R36; log 8). -/
def State.pending (s : State) : Option Word := if s.status.busy then some s.cmd else none

/-! A command's life. -/

/-- Acceptance (60_exceptions.md R258): the word is latched, DONE, ERR and ECODE are cleared, BUSY is set. -/
def State.accept (s : State) (w : Word) : State :=
  { s with
    cmd := w
    status := { s.status with busy := true, done := false, err := false, ecode := 0#8 } }

/-- Completion without error (60_exceptions.md R258). -/
def State.complete (s : State) : State :=
  { s with status := { s.status with busy := false, done := true } }

/-- The value of an error code (60_exceptions.md R250). -/
def ErrorCode.code : ErrorCode → Byte
  | .illegal => 0x01#8
  | .log0 => 0x02#8
  | .len => 0x03#8
  | .div => 0x04#8
  | .version => 0x05#8
  | .cwlen => 0x06#8

/-- `raise Error(code)` (60_exceptions.md R255): the engine's trap entry. ECODE, ERR and DONE are set, BUSY is cleared, and
no other state changes; nothing is saved and nothing is jumped to (60_exceptions.md R260). -/
def State.raiseError (s : State) (e : ErrorCode) : State :=
  { s with status := { s.status with busy := false, done := true, err := true, ecode := e.code } }

/-- A host write to STATUS (10_state.md R23): 1 clears DONE, ERR, HAZ, and clearing ERR clears ECODE. With the next
acceptance, this is the 'return' from an error (60_exceptions.md R260). -/
def State.acknowledge (s : State) (v : Word) : State :=
  { s with
    status :=
      { s.status with
        done := s.status.done && !v[1]
        err := s.status.err && !v[2]
        haz := s.status.haz && !v[3]
        ecode := if v[2] then 0#8 else s.status.ecode } }

/-- A host write was discarded because BUSY = 1 (70_reset_and_hazards.md R285). -/
def State.flagHazard (s : State) : State :=
  { s with status := { s.status with haz := true } }

/-- The power-on reset of 70_reset_and_hazards.md R280, also the soft reset of R281: every piece of the engine's state at
its reset value, a pending command abandoned. The model's own fields are not the engine's and stay (log 3, log 4, log 16). -/
def State.powerOnReset (s : State) : State :=
  { State.reset with params := s.params, inputs := s.inputs, bus := s.bus, draws := s.draws }

/-- A host write to CTRL (10_state.md R22): bit 31 performs only the soft reset, else IE and EIE are written. -/
def State.writeCtrl (s : State) (v : Word) : State :=
  if v[31] then s.powerOnReset else { s with ctrl := { ie := v[0], eie := v[1] } }

end Sys2Proof.Machine
end

