-- ==== Sys2Proof/Machine/Flags.lean ====
section
/-! DEFINITION. The flags: the words of CTRL and STATUS, and the IRQ line (10_state.md R22, R23, R37, R38). The engine has
no condition codes. -/

namespace Sys2Proof.Machine

/-- The word CTRL reads as: EIE in bit 1, IE in bit 0, SRST and the reserved bits 0 (10_state.md R22). -/
def Ctrl.word (c : Ctrl) : Word := 0#30 ++ BitVec.ofBool c.eie ++ BitVec.ofBool c.ie

/-- The word STATUS reads as: ECODE in bits 15:8, HAZ, ERR, DONE, BUSY in bits 3..0, the reserved bits 0
(10_state.md R23). -/
def Status.word (t : Status) : Word :=
  0#16 ++ t.ecode ++ 0#4 ++ BitVec.ofBool t.haz ++ BitVec.ofBool t.err ++ BitVec.ofBool t.done ++ BitVec.ofBool t.busy

/-- The IRQ line: `(CTRL.IE ∧ STATUS.DONE) ∨ (CTRL.EIE ∧ STATUS.ERR)` (10_state.md R37, 60_exceptions.md R259). -/
def State.irq (s : State) : Bool :=
  (s.ctrl.ie && s.status.done) || (s.ctrl.eie && s.status.err)

/-- MODCNT: 4 × VERSION + 17 for a legal version, else 0 (10_state.md R27). -/
def State.modcnt (s : State) : Nat :=
  if 1 ≤ s.version.toNat ∧ s.version.toNat ≤ 40 then 4 * s.version.toNat + 17 else 0

end Sys2Proof.Machine
end

