-- ==== Sys2Proof/Machine/Operands.lean ====
section
/-! DEFINITION. Operand reads and their checks, shared by the commands: the polynomial operand and result
(41_polynomial.md R140), the version check need_n (44_grid.md R181) and the codeword length check. A check that fails ends the
command with its error before anything is written (60_exceptions.md R253). -/

namespace Sys2Proof.Machine

/-- `norm(s)`: the leading zero coefficients removed (00_scope.md R12). -/
def norm (l : List Byte) : List Byte := l.dropWhile (· == 0#8)

/-- `zeros(k)` (00_scope.md R12). -/
def zeros (k : Nat) : List Byte := List.replicate k 0#8

/-- The command completes with the state `s`. -/
def finish (s : State) : Result := .next s.complete

/-- The command ends with error `e`. -/
def raise (s : State) (e : ErrorCode) : Result := .next (s.raiseError e)

/-- `operand(p)` (41_polynomial.md R140): E_LEN if PLEN[p] > 256, else the polynomial in normal form is handed on. -/
def withOperand (s : State) (p : PReg) (k : List Byte → Result) : Result :=
  if s.plen[p.idx].toNat > Config.maxLen then raise s .len else k (norm (s.poly p))

/-- `need_n()` (44_grid.md R181): E_VERSION if VERSION is not in 1..40, else moduleCount is handed on. -/
def withModuleCount (s : State) (k : Nat → Result) : Result :=
  if s.version.toNat < 1 ∨ s.version.toNat > 40 then raise s .version else k (4 * s.version.toNat + 17)

/-- E_CWLEN if CWLEN > 4096 (44_grid.md R193), else the command goes on. -/
def withCodewords (s : State) (k : Result) : Result :=
  if s.cwlen.toNat > Config.cwSize then raise s .cwlen else k

/-- `result(p, s)` (41_polynomial.md R140): the polynomial register is written and the command completes. -/
def finishPoly (s : State) (p : PReg) (l : List Byte) : Result := finish (s.setPoly p l)

end Sys2Proof.Machine
end

