-- ==== Sys2Proof/Machine/Bus.lean ====
section
/-! DEFINITION. The register window on the host's bus: the map (20_memory.md R61), reads and writes, and what each does
while BUSY = 1 (70_reset_and_hazards.md R285, R286). -/

namespace Sys2Proof.Machine

/-- What an aligned offset of the window holds (20_memory.md R61). -/
inductive Target where
  | id | ctrl | status | cmd | version | ecl | mask | cwlen | modcnt
  | plen (p : Fin 4)
  | res (k : Fin 8)
  | tscore (k : Fin 8)
  /-- a coefficient PC[p][i], by its offset -/
  | coef (off : Nat)
  /-- a codeword byte CW[i], by its offset -/
  | cw (off : Nat)
  /-- a cell of the 177 × 177 array, by its offset -/
  | cell (off : Nat)
  /-- no register and no cell (20_memory.md R63, 10_state.md R35) -/
  | unmapped
  deriving DecidableEq, Repr

/-- ID (10_state.md R21). -/
def idWord : Word := 0x51474601

/-- The register map (20_memory.md R61), for an offset that is a multiple of 4. -/
def targetOf (off : Nat) : Target :=
  if off < 0x24 then
    match off / 4 with
    | 0 => .id
    | 1 => .ctrl
    | 2 => .status
    | 3 => .cmd
    | 4 => .version
    | 5 => .ecl
    | 6 => .mask
    | 7 => .cwlen
    | _ => .modcnt
  else if 0x30 ≤ off ∧ off < 0x40 then .plen (Fin.ofNat 4 (off / 4))
  else if 0x40 ≤ off ∧ off < 0x60 then .res (Fin.ofNat 8 (off / 4))
  else if 0x60 ≤ off ∧ off < 0x80 then .tscore (Fin.ofNat 8 (off / 4))
  else if 0x1000 ≤ off ∧ off < 0x2000 then .coef off
  else if isCwAddr off then .cw off
  else if isCellAddr off then .cell off
  else .unmapped

/-- An access the engine takes: 32 bits, at a multiple of 4, inside the window (20_memory.md R62). Any other is refused. -/
def accessLegal (bytes off : Nat) : Bool := bytes == 4 && off % 4 == 0 && Nat.blt off Config.windowSize

/-- The word a target reads as, each field in the low bits, the bits above it 0 (20_memory.md R64). -/
def State.readTarget (s : State) : Target → Word
  | .id => idWord
  | .ctrl => s.ctrl.word
  | .status => s.status.word
  | .cmd => s.cmd
  | .version => s.version.setWidth 32
  | .ecl => s.ecl.setWidth 32
  | .mask => s.mask.setWidth 32
  | .cwlen => s.cwlen.setWidth 32
  | .modcnt => BitVec.ofNat 32 s.modcnt
  | .plen p => s.plen[p].setWidth 32
  | .res k => s.res[k]
  | .tscore k => s.tscore[k]
  | .coef off => (s.mem.read off).setWidth 32
  | .cw off => (s.mem.read off).setWidth 32
  | .cell off => ((s.mem.read off).setWidth 2).setWidth 32
  | .unmapped => 0#32

/-- The width of a target's field when it is engine-written state, whose reads are unspecified while BUSY = 1
(00_scope.md R18, 70_reset_and_hazards.md R286). -/
def Target.engineWritten : Target → Option Nat
  | .mask => some 3
  | .plen _ => some 9
  | .res _ => some 32
  | .tscore _ => some 32
  | .coef _ => some 8
  | .cell _ => some 2
  | _ => none

/-- A target whose host write is discarded while BUSY = 1 with HAZ set (70_reset_and_hazards.md R285): CMD and every
writable offset but CTRL and STATUS. -/
def Target.guarded : Target → Bool
  | .cmd | .version | .ecl | .mask | .cwlen | .plen _ | .coef _ | .cw _ | .cell _ => true
  | .id | .ctrl | .status | .modcnt | .res _ | .tscore _ | .unmapped => false

/-- A free value of `w` bits, the bits above them 0 (70_reset_and_hazards.md R286; log 3). -/
def drawnWord (k w : Nat) : Word := ((Config.freeValue k).setWidth w).setWidth 32

/-- `HostRead(off)` of a target: its word, or while BUSY = 1 a fresh free value for engine-written state. Reading changes
no state of the engine (20_memory.md R68). -/
def State.hostReadTarget (s : State) (t : Target) : State :=
  match s.status.busy, t.engineWritten with
  | true, some w => { s with bus := .data (drawnWord s.draws w), draws := s.draws + 1 }
  | _, _ => s.reply (.data (s.readTarget t))

/-- A write to a target that is not discarded: the addressed field is set and nothing else (20_memory.md R68), a write to
CMD launches a command (10_state.md R24), read-only registers and unmapped offsets ignore it. A cell ignores code 3
(10_state.md R35). -/
def State.writeTarget (s : State) (v : Word) : Target → State
  | .id => s
  | .ctrl => s.writeCtrl v
  | .status => s.acknowledge v
  | .cmd => s.accept v
  | .version => { s with version := v.setWidth 6 }
  | .ecl => { s with ecl := v.setWidth 2 }
  | .mask => s.setMask (v.setWidth 3)
  | .cwlen => { s with cwlen := v.setWidth 13 }
  | .modcnt => s
  | .plen p => { s with plen := s.plen.set p (v.setWidth 9) }
  | .res _ => s
  | .tscore _ => s
  | .coef off => s.setMem (s.mem.write off (v.setWidth 8))
  | .cw off => s.setMem (s.mem.write off (v.setWidth 8))
  | .cell off => if v.setWidth 2 = 3#2 then s else s.setMem (s.mem.write off ((v.setWidth 2).setWidth 8))
  | .unmapped => s

/-- `HostWrite(off, v)` of a target: discarded with HAZ set where BUSY = 1 guards it, else performed. -/
def State.hostWriteTarget (s : State) (t : Target) (v : Word) : State :=
  if s.status.busy && t.guarded then s.flagHazard else s.writeTarget v t

/-- A host read of any width and offset; a refused one answers BUS_ERROR and changes nothing (20_memory.md R62,
60_exceptions.md R256). -/
def State.hostRead (s : State) (bytes off : Nat) : State :=
  if accessLegal bytes off then s.hostReadTarget (targetOf off) else s.reply .busError

/-- A host write of any width and offset; a refused one answers BUS_ERROR and changes nothing (20_memory.md R62,
60_exceptions.md R256). -/
def State.hostWrite (s : State) (bytes off : Nat) (v : Word) : State :=
  if accessLegal bytes off then (s.hostWriteTarget (targetOf off) v).reply .accepted else s.reply .busError

end Sys2Proof.Machine
end

