-- ==== Sys2Proof/Machine/Bch.lean ====
section
/-! DEFINITION. The BCH unit: BCHF, BCHV (43_bch.md). Naturals are bit polynomials over GF(2). -/

namespace Sys2Proof.Machine

/-- G15, the format generator (43_bch.md R170). -/
def bchG15 : Nat := 0b10100110111

/-- G15_MASK, the format mask (43_bch.md R170). -/
def bchG15Mask : Nat := 0b101010000010010

/-- G18, the version generator (43_bch.md R170). -/
def bchG18 : Nat := 0b1111100100101

/-- `bitlen(x)`: the position of the highest set bit plus one, 0 for 0 (43_bch.md R173). -/
def bitlen (x : Nat) : Nat := if x = 0 then 0 else x.log2 + 1

/-- The loop of rem2 (43_bch.md R173); each pass clears the highest set bit, so `fuel` = bitlen(x) passes are enough. -/
def rem2Loop : Nat → Nat → Nat → Nat
  | 0, x, _ => x
  | fuel + 1, x, g =>
    if x ≠ 0 ∧ bitlen x ≥ bitlen g then rem2Loop fuel (x ^^^ (g <<< (bitlen x - bitlen g))) g else x

/-- The GF(2) remainder `rem2(x, g)` (43_bch.md R173). -/
def rem2 (x g : Nat) : Nat := rem2Loop (bitlen x) x g

/-- The format information word of 5 data bits (43_bch.md R171). -/
def bchFormat (d : Nat) : Nat := (d <<< 10 ||| rem2 (d <<< 10) bchG15) ^^^ bchG15Mask

/-- The version information word of a 6-bit version (43_bch.md R172). -/
def bchVersion (v : Nat) : Nat := v <<< 12 ||| rem2 (v <<< 12) bchG18

/-- BCHF d (43_bch.md R171). -/
def execBchf (d : BitVec 5) (s : State) : Result := finish (s.setRes 0 (bchFormat d.toNat))

/-- BCHV v (43_bch.md R172). -/
def execBchv (v : BitVec 6) (s : State) : Result := finish (s.setRes 0 (bchVersion v.toNat))

end Sys2Proof.Machine
end

