-- ==== Sys2Proof/Machine/MaskFunctions.lean ====
section
/-! DEFINITION. The eight mask functions (45_mask.md R220), used by MASKFN and by the map pass. -/

namespace Sys2Proof.Machine

/-- `maskbit(m, i, j)`: whether mask `m` inverts the cell of row `i`, column `j` (45_mask.md R220). -/
def maskbit (m : BitVec 3) (i j : Nat) : Bool :=
  match m.toNat with
  | 0 => (i + j) % 2 == 0
  | 1 => i % 2 == 0
  | 2 => j % 3 == 0
  | 3 => (i + j) % 3 == 0
  | 4 => (i / 2 + j / 3) % 2 == 0
  | 5 => i * j % 2 + i * j % 3 == 0
  | 6 => (i * j % 2 + i * j % 3) % 2 == 0
  | _ => (i * j % 3 + (i + j) % 2) % 2 == 0

end Sys2Proof.Machine
end

