-- ==== Sys2Proof/Machine/Tables.lean ====
section
/-! DEFINITION. The read-only tables, transcribed from the spec: exp (10_state.md R30), log (R31), APOS (R32). A row of 16
entries is one numeral, the entries in the spec's order from the most significant byte down, so that a lookup is one
shift. -/

namespace Sys2Proof.Machine

/-- The rows of `exp`, 16 entries each in hex (10_state.md R30). -/
def expRows : List Nat := [
  0x01020408102040801D3A74E8CD871326,
  0x4C982D5AB475EAC98F03060C183060C0,
  0x9D274E9C254A94356AD4B577EEC19F23,
  0x468C050A142850A05DBA69D2B96FDEA1,
  0x5FBE61C2992F5EBC65CA890F1E3C78F0,
  0xFDE7D3BB6BD6B17FFEE1DFA35BB671E2,
  0xD9AF4386112244880D1A3468D0BD67CE,
  0x811F3E7CF8EDC7933B76ECC5973366CC,
  0x85172E5CB86DDAA94F9E214284152A54,
  0xA84D9A2952A455AA49923972E4D5B773,
  0xE6D1BF63C6913F7EFCE5D7B37BF6F1FF,
  0xE3DBAB4B963162C495376EDCA557AE41,
  0x82193264C88D070E1C3870E0DDA753A6,
  0x51A259B279F2F9EFC39B2B56AC458A09,
  0x122448903D7AF4F5F7F3FBEBCB8B0B16,
  0x2C58B07DFAE9CF831B366CD8AD478E01]

/-- The rows of `log`, 16 entries each in hex (10_state.md R31, there in decimal). The first entry stands for the absent
log[0] and no rule reads it. -/
def logRows : List Nat := [
  0x0000011902321AC603DF33EE1B68C74B,
  0x0464E00E348DEF811CC169F8C8084C71,
  0x058A652FE1240F2135938EDAF0128245,
  0x1DB5C27D6A27F9B9C99A09784DE472A6,
  0x06BF8B6266DD30FDE29825B310912288,
  0x36D094CE8F96DBBDF1D2135C83384640,
  0x1E42B6A3C3487E6E6B3A2854FA85BA3D,
  0xCA5E9B9F0A15792B4ED4E5AC73F3A757,
  0x0770C0F78C80630D674ADEED31C5FE18,
  0xE3A5997726B8B47C114492D92320892E,
  0x373FD15B95BCCFCD908797B2DCFCBE61,
  0xF256D3AB142A5D9E843C3953476D41A2,
  0x1F2D43D8B77BA476C41749EC7F0C6FF6,
  0x6CA13B52299D55AAFB6086B1BBCC3E5A,
  0xCB595FB09CA9A0510BF516EB7A752CD7,
  0x4FAED5E9E6E7ADE874D6F4EAA85058AF]

/-- Entry `i` of a table held in rows of 16 bytes. -/
def tableByte (rows : List Nat) (i : Nat) : Nat := (rows.getD (i / 16) 0 >>> (8 * (15 - i % 16))) % 256

/-- `exp[i]`, i in 0..255 (10_state.md R30). -/
def gexp (i : Nat) : Byte := BitVec.ofNat 8 (tableByte expRows i)

/-- `log[a]`, a ≠ 0 (10_state.md R31). -/
def glog (a : Byte) : Nat := tableByte logRows a.toNat

/-- `APOS[v]`, the alignment-position table, v in 1..40 (10_state.md R32). -/
def aposTable : Nat → List Nat
  | 1 => []
  | 2 => [6, 18]
  | 3 => [6, 22]
  | 4 => [6, 26]
  | 5 => [6, 30]
  | 6 => [6, 34]
  | 7 => [6, 22, 38]
  | 8 => [6, 24, 42]
  | 9 => [6, 26, 46]
  | 10 => [6, 28, 50]
  | 11 => [6, 30, 54]
  | 12 => [6, 32, 58]
  | 13 => [6, 34, 62]
  | 14 => [6, 26, 46, 66]
  | 15 => [6, 26, 48, 70]
  | 16 => [6, 26, 50, 74]
  | 17 => [6, 30, 54, 78]
  | 18 => [6, 30, 56, 82]
  | 19 => [6, 30, 58, 86]
  | 20 => [6, 34, 62, 90]
  | 21 => [6, 28, 50, 72, 94]
  | 22 => [6, 26, 50, 74, 98]
  | 23 => [6, 30, 54, 78, 102]
  | 24 => [6, 28, 54, 80, 106]
  | 25 => [6, 32, 58, 84, 110]
  | 26 => [6, 30, 58, 86, 114]
  | 27 => [6, 34, 62, 90, 118]
  | 28 => [6, 26, 50, 74, 98, 122]
  | 29 => [6, 30, 54, 78, 102, 126]
  | 30 => [6, 26, 52, 78, 104, 130]
  | 31 => [6, 30, 56, 82, 108, 134]
  | 32 => [6, 34, 60, 86, 112, 138]
  | 33 => [6, 30, 58, 86, 114, 142]
  | 34 => [6, 34, 62, 90, 118, 146]
  | 35 => [6, 30, 54, 78, 102, 126, 150]
  | 36 => [6, 24, 50, 76, 102, 128, 154]
  | 37 => [6, 28, 54, 80, 106, 132, 158]
  | 38 => [6, 32, 58, 84, 110, 136, 162]
  | 39 => [6, 26, 54, 82, 110, 138, 166]
  | 40 => [6, 30, 58, 86, 114, 142, 170]
  | _ => []

end Sys2Proof.Machine
end

