-- ==== Sys2Proof/Machine/Grid.lean ====
section
/-! DEFINITION. The module-grid builder: GCLEAR, GFINDER, GALIGN, GTIMING, GFORMAT, GVERSION, GMAP, GBUILD, APOS
(44_grid.md). A pass is a function of the arrays; `n` is moduleCount. -/

namespace Sys2Proof.Machine

/-! Common definitions. -/

/-- The code of cell(r, c) (10_state.md R35). -/
def Memory.cell (m : Memory) (r c : Nat) : Byte := m.read (cellAddr r c)

/-- `setu(r, c, dark)` (44_grid.md R181): writes a cell of the symbol that is UNSET, nothing else; a negative row or column
is outside the symbol. -/
def setu (n : Nat) (m : Memory) (r c : Int) (dark : Bool) : Memory :=
  match r, c with
  | .ofNat r, .ofNat c =>
    bif Nat.blt r n && Nat.blt c n && m.cell r c == unset then m.write (cellAddr r c) (colour dark) else m
  | _, _ => m

/-- `setf(r, c, dark)` (44_grid.md R181): overwrites the cell. -/
def setf (m : Memory) (r c : Nat) (dark : Bool) : Memory := m.write (cellAddr r c) (colour dark)

/-- The pairs (r, c) with r, c in lo..lo+len−1, row by row. -/
def squareFrom (lo : Int) (len : Nat) : List (Int × Int) :=
  (List.range len).flatMap fun r => (List.range len).map fun c => (lo + r, lo + c)

/-! The passes. -/

/-- Every cell of the array becomes UNSET (44_grid.md R180). -/
def clearPass (m : Memory) : Memory := m.clear isCellAddr

/-- The finder pattern with its separator, by the offsets from its origin (44_grid.md R183). -/
def finderDark (r c : Int) : Bool :=
  (decide (0 ≤ r ∧ r ≤ 6) && (c == 0 || c == 6))
    || (decide (0 ≤ c ∧ c ≤ 6) && (r == 0 || r == 6))
    || decide (2 ≤ r ∧ r ≤ 4 ∧ 2 ≤ c ∧ c ≤ 4)

/-- One finder pattern at origin (R, C) (44_grid.md R182). -/
def finderAt (n : Nat) (m : Memory) (origin : Nat × Nat) : Memory :=
  (squareFrom (-1) 9).foldl (fun m d => setu n m (origin.1 + d.1) (origin.2 + d.2) (finderDark d.1 d.2)) m

/-- The three finder patterns (44_grid.md R182). -/
def finderPass (n : Nat) (m : Memory) : Memory := [(0, 0), (n - 7, 0), (0, n - 7)].foldl (finderAt n) m

/-- The alignment pattern by the offsets from its centre (44_grid.md R184). -/
def alignDark (r c : Int) : Bool := r.natAbs == 2 || c.natAbs == 2 || (r == 0 && c == 0)

/-- One alignment pattern centred at (row, col), skipped when its centre is set (44_grid.md R184). -/
def alignAt (n : Nat) (m : Memory) (centre : Nat × Nat) : Memory :=
  if m.cell centre.1 centre.2 ≠ unset then m
  else (squareFrom (-2) 5).foldl (fun m d => setu n m (centre.1 + d.1) (centre.2 + d.2) (alignDark d.1 d.2)) m

/-- Every ordered pair of positions, rows first. -/
def centres (pos : List Nat) : List (Nat × Nat) := pos.flatMap fun row => pos.map fun col => (row, col)

/-- The alignment patterns of version `v` (44_grid.md R184). -/
def alignPass (n v : Nat) (m : Memory) : Memory := (centres (aposTable v)).foldl (alignAt n) m

/-- The indices 8..n−9 of the timing tracks (44_grid.md R185). -/
def timingIndices (n : Nat) : List Nat := (List.range (n - 16)).map (8 + ·)

/-- The timing tracks: column 6, then row 6, dark at even indices (44_grid.md R185). -/
def timingPass (n : Nat) (m : Memory) : Memory :=
  let m := (timingIndices n).foldl (fun m r => setu n m r 6 (r % 2 == 0)) m
  (timingIndices n).foldl (fun m c => setu n m 6 c (c % 2 == 0)) m

/-- The cell of format bit `i` in copy A (44_grid.md R186). -/
def formatCellA (n i : Nat) : Nat × Nat :=
  if i ≤ 5 then (i, 8) else if i ≤ 7 then (i + 1, 8) else (n - 15 + i, 8)

/-- The cell of format bit `i` in copy B (44_grid.md R186). -/
def formatCellB (n i : Nat) : Nat × Nat :=
  if i ≤ 7 then (8, n - 1 - i) else if i = 8 then (8, 7) else (8, 14 - i)

/-- One format bit in its two cells (44_grid.md R187). -/
def formatBit (n f : Nat) (light : Bool) (m : Memory) (i : Nat) : Memory :=
  let bit := f.testBit i && !light
  let m := setf m (formatCellA n i).1 (formatCellA n i).2 bit
  setf m (formatCellB n i).1 (formatCellB n i).2 bit

/-- `format_pass(n, f, light)` (44_grid.md R187): the 15 bits in two copies, and the fixed dark cell. -/
def formatPass (n f : Nat) (light : Bool) (m : Memory) : Memory :=
  setf ((List.range 15).foldl (formatBit n f light) m) (n - 8) 8 (!light)

/-- The data of the format word: `(ECL << 3) | MASK` (44_grid.md R188). -/
def formatData (ecl : BitVec 2) (m : BitVec 3) : Nat := ecl.toNat <<< 3 ||| m.toNat

/-- One version bit in its two cells (44_grid.md R189, R190). -/
def versionBit (n u : Nat) (light : Bool) (m : Memory) (i : Nat) : Memory :=
  let bit := u.testBit i && !light
  let m := setu n m (i / 3 : Nat) (n - 11 + i % 3 : Nat) bit
  setu n m (n - 11 + i % 3 : Nat) (i / 3 : Nat) bit

/-- `version_pass(n, u, light)` (44_grid.md R190). -/
def versionPass (n u : Nat) (light : Bool) (m : Memory) : Memory := (List.range 18).foldl (versionBit n u light) m

/-- The version pass of version `v`, which below 7 writes nothing (44_grid.md R190). -/
def versionPassOf (n v : Nat) (light : Bool) (m : Memory) : Memory :=
  if v < 7 then m else versionPass n (bchVersion v) light m

/-- A strip of the zig-zag: columns `col` and `col − 1`, each row right then left, upwards or downwards
(44_grid.md R191). -/
def strip (n col : Nat) (up : Bool) : List (Nat × Nat) :=
  (if up then (List.range n).reverse else List.range n).flatMap fun row => [(row, col), (row, col - 1)]

/-- The strips from right column `col` leftward, skipping column 6, the direction alternating; `fuel` strips are enough. -/
def stripsFrom : Nat → Nat → Nat → Bool → List (Nat × Nat)
  | 0, _, _, _ => []
  | fuel + 1, n, col, up =>
    if col = 0 then []
    else
      let right := if col = 6 then 5 else col
      strip n right up ++ stripsFrom fuel n (right - 2) !up

/-- `map_order(n)` (44_grid.md R191): the cells of the zig-zag scan, up first from the bottom right. -/
def mapOrder (n : Nat) : List (Nat × Nat) := stripsFrom n n (n - 1) true

/-- Bit `k` of the codeword stream, most significant bit of each byte first, 0 past CWLEN bytes (44_grid.md R192,
20_memory.md R65). -/
def streamBit (cwlen : Nat) (m : Memory) (k : Nat) : Bool :=
  if k < 8 * cwlen then (m.read (cwAddr (k / 8))).getLsbD (7 - k % 8) else false

/-- One cell of the scan: an UNSET cell takes the next bit of the stream, masked (44_grid.md R192, R193). The count is of
the bits taken. -/
def mapCell (mask : BitVec 3) (cwlen : Nat) (t : Memory × Nat) (cell : Nat × Nat) : Memory × Nat :=
  if t.1.cell cell.1 cell.2 ≠ unset then t
  else
    (t.1.write (cellAddr cell.1 cell.2) (colour (streamBit cwlen t.1 t.2 ^^ maskbit mask cell.1 cell.2)), t.2 + 1)

/-- `map_pass(n, m)` (44_grid.md R193): the arrays after it, and the number of cells written. -/
def mapPass (n : Nat) (mask : BitVec 3) (cwlen : Nat) (m : Memory) : Memory × Nat :=
  (mapOrder n).foldl (mapCell mask cwlen) (m, 0)

/-- `build(n, m, light)` (44_grid.md R195), with VERSION, ECL, CWLEN and the codewords of `s`: the arrays after it, and
the number of cells the map pass wrote. -/
def build (s : State) (n : Nat) (mask : BitVec 3) (light : Bool) : Memory × Nat :=
  let m := clearPass s.mem
  let m := finderPass n m
  let m := alignPass n s.version.toNat m
  let m := timingPass n m
  let m := formatPass n (bchFormat (formatData s.ecl mask)) light m
  let m := versionPassOf n s.version.toNat light m
  mapPass n mask s.cwlen.toNat m

/-! The commands. -/

/-- GCLEAR (44_grid.md R180): the whole array, no version check. -/
def execGclear (s : State) : Result := finish (s.setMem (clearPass s.mem))

/-- GFINDER (44_grid.md R182). -/
def execGfinder (s : State) : Result :=
  withModuleCount s fun n => finish (s.setMem (finderPass n s.mem))

/-- GALIGN (44_grid.md R184). -/
def execGalign (s : State) : Result :=
  withModuleCount s fun n => finish (s.setMem (alignPass n s.version.toNat s.mem))

/-- GTIMING (44_grid.md R185). -/
def execGtiming (s : State) : Result :=
  withModuleCount s fun n => finish (s.setMem (timingPass n s.mem))

/-- GFORMAT (44_grid.md R188). -/
def execGformat (s : State) : Result :=
  withModuleCount s fun n => finish (s.setMem (formatPass n (bchFormat (formatData s.ecl s.mask)) false s.mem))

/-- GVERSION (44_grid.md R190). -/
def execGversion (s : State) : Result :=
  withModuleCount s fun n => finish (s.setMem (versionPassOf n s.version.toNat false s.mem))

/-- `RES<k> <- w; RES<k+1> <- min(w, 8 × CWLEN)`: the cells written and the codeword bits consumed (44_grid.md R193,
45_mask.md R232). -/
def State.setMapped (s : State) (k k' : Fin 8) (w : Nat) : State :=
  (s.setRes k w).setRes k' (min w (8 * s.cwlen.toNat))

/-- GMAP (44_grid.md R193). -/
def execGmap (s : State) : Result :=
  withModuleCount s fun n =>
    withCodewords s <|
      let t := mapPass n s.mask s.cwlen.toNat s.mem
      finish ((s.setMem t.1).setMapped 0 1 t.2)

/-- GBUILD (44_grid.md R195). -/
def execGbuild (s : State) : Result :=
  withModuleCount s fun n =>
    withCodewords s <|
      let t := build s n s.mask false
      finish ((s.setMem t.1).setMapped 0 1 t.2)

/-- APOS k (44_grid.md R197). -/
def execApos (k : Byte) (s : State) : Result :=
  withModuleCount s fun _ =>
    let pos := aposTable s.version.toNat
    finish ((s.setRes 0 pos.length).setRes 1 (pos.getD k.toNat 0))

end Sys2Proof.Machine
end

