-- ==== Sys2Proof/Machine/Mask.lean ====
section
/-! DEFINITION. The mask evaluator: MASKFN, SCORE, BEST (45_mask.md). The penalty rules are the source's own four, over
`dark r c`, the colour of the cell at row r, column c; an UNSET cell is light (45_mask.md section 2). -/

namespace Sys2Proof.Machine

/-- `Σ f(i)` for i in lo..lo+len−1. -/
def sumFrom (lo len : Nat) (f : Nat → Nat) : Nat := ((List.range len).map fun i => f (lo + i)).sum

/-- A cell is dark when its code is DARK, else light (45_mask.md section 2). -/
def isDark (m : Memory) (r c : Nat) : Bool := m.cell r c == colour true

/-- The colours of the n × n symbol, row by row. -/
def darkRows (m : Memory) (n : Nat) : List (List Bool) :=
  (List.range n).map fun r => (List.range n).map fun c => isDark m r c

/-- `dark(r, c)` of a symbol whose rows are given. -/
def darkAt (rows : List (List Bool)) (r c : Nat) : Bool := (rows.getD r []).getD c false

/-- The offsets of the 8 neighbours, counted from the cell above and to the left. -/
def neighbourOffsets : List (Nat × Nat) := [(0, 0), (0, 1), (0, 2), (1, 0), (1, 2), (2, 0), (2, 1), (2, 2)]

/-- How many of the 8 neighbours of (r, c), r, c ≥ 1, share its colour (45_mask.md R222). -/
def sameNeighbours (dark : Nat → Nat → Bool) (r c : Nat) : Nat :=
  neighbourOffsets.countP fun d => dark (r - 1 + d.1) (c - 1 + d.2) == dark r c

/-- Rule (a): `3 + (s − 5)` for each interior cell with s > 5 neighbours of its colour (45_mask.md R222). -/
def penA (n : Nat) (dark : Nat → Nat → Bool) : Nat :=
  sumFrom 1 (n - 2) fun r => sumFrom 1 (n - 2) fun c =>
    let s := sameNeighbours dark r c
    if s > 5 then 3 + (s - 5) else 0

/-- Rule (b): 3 for each 2 × 2 block of one colour (45_mask.md R223). -/
def penB (n : Nat) (dark : Nat → Nat → Bool) : Nat :=
  3 * sumFrom 0 (n - 1) fun r => sumFrom 0 (n - 1) fun c =>
    (dark r c == dark (r + 1) c && dark r c == dark r (c + 1) && dark r c == dark (r + 1) (c + 1)).toNat

/-- The pattern dark-light-dark-dark-dark-light-dark (45_mask.md R224). -/
def runPattern : List Bool := [true, false, true, true, true, false, true]

/-- Seven cells match the pattern (45_mask.md R224). -/
def matchesRun (cell : Nat → Bool) : Bool := (List.range 7).map cell == runPattern

/-- Rule (c): 40 for each run of 7 along a row or a column that matches the pattern (45_mask.md R224). -/
def penC (n : Nat) (dark : Nat → Nat → Bool) : Nat :=
  40 * ((sumFrom 0 n fun r => sumFrom 0 (n - 6) fun c => (matchesRun fun k => dark r (c + k)).toNat)
    + (sumFrom 0 n fun c => sumFrom 0 (n - 6) fun r => (matchesRun fun k => dark (r + k) c).toNat))

/-- D, the number of dark cells (45_mask.md R225). -/
def darkCount (n : Nat) (dark : Nat → Nat → Bool) : Nat :=
  sumFrom 0 n fun r => sumFrom 0 n fun c => (dark r c).toNat

/-- `|a − b|` of naturals. -/
def absDiff (a b : Nat) : Nat := (a - b) + (b - a)

/-- Rule (d): the balance penalty of D dark cells under either rounding (45_mask.md R225). -/
def penD (mode : RuleDPercent) (n d : Nat) : Nat :=
  match mode with
  | .exact => 10 * (absDiff (100 * d) (50 * n ^ 2) / (5 * n ^ 2))
  | .truncated => 10 * (absDiff (100 * d / n ^ 2) 50 / 5)

/-- The score of a symbol: the sum of the four penalties (45_mask.md R226). -/
def symbolScore (mode : RuleDPercent) (n : Nat) (dark : Nat → Nat → Bool) : Nat :=
  penA n dark + penB n dark + penC n dark + penD mode n (darkCount n dark)

/-- The score of the symbol in the arrays `m`. -/
def memoryScore (mode : RuleDPercent) (n : Nat) (m : Memory) : Nat := symbolScore mode n (darkAt (darkRows m n))

/-- The trial grid T_m (45_mask.md R232): a build on arrays of its own, which end with the command (10_state.md R36;
log 9). -/
def trialMemory (s : State) (n : Nat) (mask : BitVec 3) : Memory := (build s n mask s.params.trialMetaLight).1

/-- `s[m]`, the scores of the eight trials in mask-id order (45_mask.md R232). -/
def trialScores (s : State) (n : Nat) : List Nat :=
  (List.range 8).map fun m => memoryScore s.params.ruleDPercent n (trialMemory s n (BitVec.ofNat 3 m))

/-- The winner: `win <- 0; for m in 1..7: if s[m] < s[win]: win <- m`; the first minimum wins (45_mask.md R232). -/
def winnerOf (scores : List Nat) : Nat :=
  [1, 2, 3, 4, 5, 6, 7].foldl (fun win m => if scores.getD m 0 < scores.getD win 0 then m else win) 0

/-- Eight scores as the words of TSCORE0..7. -/
def scoreWords (scores : List Nat) : Vector Word 8 := Vector.ofFn fun k => BitVec.ofNat 32 (scores.getD k 0)

/-- MASKFN m, row, col (45_mask.md R221). -/
def execMaskfn (m : BitVec 3) (row col : Byte) (s : State) : Result :=
  finish (s.setRes 0 (maskbit m row.toNat col.toNat).toNat)

/-- SCORE (45_mask.md R229). -/
def execScore (s : State) : Result :=
  withModuleCount s fun n =>
    let dark := darkAt (darkRows s.mem n)
    let a := penA n dark
    let b := penB n dark
    let c := penC n dark
    let count := darkCount n dark
    let d := penD s.params.ruleDPercent n count
    finish ((((((s.setRes 0 (a + b + c + d)).setRes 1 a).setRes 2 b).setRes 3 c).setRes 4 d).setRes 5 count)

/-- BEST's writes, given the scores of the trials (45_mask.md R232): the final build with the winner, MASK, TSCORE0..7,
RES0..RES3. -/
def finishBest (s : State) (n : Nat) (scores : List Nat) : Result :=
  let win := winnerOf scores
  let t := build s n (BitVec.ofNat 3 win) false
  finish (((((s.setMem t.1).setMask (BitVec.ofNat 3 win)).setTscores (scoreWords scores)).setRes 0 win).setRes 1
    (scores.getD win 0) |>.setMapped 2 3 t.2)

/-- BEST (45_mask.md R232). -/
def execBest (s : State) : Result :=
  withModuleCount s fun n => withCodewords s <| finishBest s n (trialScores s n)

end Sys2Proof.Machine
end

