-- ==== Sys2Proof/Machine/Field.lean ====
section
/-! DEFINITION. The GF(256) field unit: NOP, GFMUL, GFEXP, GFLOG (40_gf_field.md). -/

namespace Sys2Proof.Machine

/-- `a ⊗ b` (40_gf_field.md R122); the zero test comes first. Field addition is ⊕, `a ^^^ b` (R121). -/
def gmul (a b : Byte) : Byte :=
  if a = 0#8 ∨ b = 0#8 then 0#8 else gexp ((glog a + glog b) % 255)

/-- `a ⊘ b` for non-zero a and b (40_gf_field.md R126): the index `(log[a] − log[b]) mod 255`, the 255 keeping it a
natural. -/
def gdiv (a b : Byte) : Byte := gexp ((glog a + 255 - glog b) % 255)

/-- NOP (40_gf_field.md R120): nothing but completion. -/
def execNop (s : State) : Result := finish s

/-- GFMUL a, b (40_gf_field.md R123): `RES0 <- zext_32(A ⊗ B)`. -/
def execGfmul (a b : Byte) (s : State) : Result := finish (s.setRes 0 (gmul a b).toNat)

/-- GFEXP i (40_gf_field.md R124): `RES0 <- zext_32(exp[IMM8 mod 255])`. -/
def execGfexp (i : Byte) (s : State) : Result := finish (s.setRes 0 (gexp (i.toNat % 255)).toNat)

/-- GFLOG a (40_gf_field.md R125): E_LOG0 for 0, else `RES0 <- zext_32(log[IMM8])`. -/
def execGflog (a : Byte) (s : State) : Result :=
  if a = 0#8 then raise s .log0 else finish (s.setRes 0 (glog a))

end Sys2Proof.Machine
end

