-- ==== Sys2Proof/Machine/Poly.lean ====
section
/-! DEFINITION. The polynomial unit: PMUL, PMOD, GENPOLY (41_polynomial.md). A polynomial is the list of its coefficients,
highest degree first (00_scope.md R12). -/

namespace Sys2Proof.Machine

/-- `xs` added (⊕) onto the first coefficients of `ys`: `s[i] <- s[i] ⊕ x[i]` for i < len(x). -/
def xorOnto : List Byte → List Byte → List Byte
  | x :: xs, y :: ys => (x ^^^ y) :: xorOnto xs ys
  | _, ys => ys

/-- The product of two non-zero polynomials (41_polynomial.md R141): coefficient i + j collects `a[i] ⊗ b[j]`; its length
is len(a) + len(b) − 1. -/
def polyMul : List Byte → List Byte → List Byte
  | [], b => zeros (b.length - 1)
  | a :: as, b => xorOnto (b.map (gmul a)) (0#8 :: polyMul as b)

/-- One pass of long division (41_polynomial.md R143): `f <- r[0] ⊘ b[0]`, `r[i] <- r[i] ⊕ (b[i] ⊗ f)`, `r <- norm(r)`. -/
def divisionPass (r b : List Byte) : List Byte :=
  let f := gdiv (r.headD 0#8) (b.headD 0#8)
  norm (xorOnto (b.map fun c => gmul c f) r)

/-- The loop of PMOD (41_polynomial.md R143): passes while len(r) ≥ len(b); `fuel` passes are enough, since each shortens
`r`. -/
def polyModLoop : Nat → List Byte → List Byte → List Byte
  | 0, r, _ => r
  | fuel + 1, r, b => if r.length < b.length then r else polyModLoop fuel (divisionPass r b) b

/-- The remainder of `a` by a non-zero `b`, both in normal form (41_polynomial.md R143). -/
def polyMod (a b : List Byte) : List Byte := polyModLoop (a.length + 1) a b

/-- `g <- [1]; for i in 0..n−1: g <- g · [1, exp[i]]` (41_polynomial.md R145). -/
def genPoly : Nat → List Byte
  | 0 => [1#8]
  | n + 1 => polyMul (genPoly n) [1#8, gexp n]

/-- PMUL pd, ps, pt (41_polynomial.md R141). -/
def execPmul (pd ps pt : PReg) (s : State) : Result :=
  withOperand s ps fun a =>
    withOperand s pt fun b =>
      if a.length = 0 ∨ b.length = 0 then finishPoly s pd []
      else if a.length + b.length - 1 > Config.maxLen then raise s .len
      else finishPoly s pd (polyMul a b)

/-- PMOD pd, ps, pt (41_polynomial.md R143). -/
def execPmod (pd ps pt : PReg) (s : State) : Result :=
  withOperand s ps fun a =>
    withOperand s pt fun b =>
      if b.length = 0 then raise s .div else finishPoly s pd (polyMod a b)

/-- GENPOLY pd, n (41_polynomial.md R145). -/
def execGenpoly (pd : PReg) (n : Byte) (s : State) : Result := finishPoly s pd (genPoly n.toNat)

end Sys2Proof.Machine
end

