-- ==== Sys2Proof/Machine/ReedSolomon.lean ====
section
/-! DEFINITION. The Reed-Solomon unit: RSENC (42_reed_solomon.md). -/

namespace Sys2Proof.Machine

/-- The EC codewords of the data `d` with ecCount `n` (42_reed_solomon.md R161): the remainder of `d · xⁿ` by the generator,
left-padded to exactly `n` coefficients. -/
def ecCodewords (d : List Byte) (n : Nat) : List Byte :=
  let r := polyMod (d ++ zeros n) (genPoly n)
  zeros (n - r.length) ++ r

/-- RSENC pd, ps, n (42_reed_solomon.md R161). -/
def execRsenc (pd ps : PReg) (n : Byte) (s : State) : Result :=
  withOperand s ps fun d =>
    if d.length + n.toNat > Config.maxLen then raise s .len
    else finishPoly s pd (ecCodewords d n.toNat)

end Sys2Proof.Machine
end

