-- ==== Sys2Proof/Machine/Dispatch.lean ====
section
/-! DEFINITION. The engine step's dispatch: what a decoded command does (60_exceptions.md R258), one arm a command. -/

namespace Sys2Proof.Machine

def exec (i : Instr) (s : State) : Host.Outcome State Fault Refusal :=
  match i with
  | .nop => Sys2Proof.Machine.execNop s
  | .gfmul a b => Sys2Proof.Machine.execGfmul a b s
  | .gfexp e => Sys2Proof.Machine.execGfexp e s
  | .gflog a => Sys2Proof.Machine.execGflog a s
  | .pmul pd ps pt => Sys2Proof.Machine.execPmul pd ps pt s
  | .pmod pd ps pt => Sys2Proof.Machine.execPmod pd ps pt s
  | .genpoly pd n => Sys2Proof.Machine.execGenpoly pd n s
  | .rsenc pd ps n => Sys2Proof.Machine.execRsenc pd ps n s
  | .bchf d => Sys2Proof.Machine.execBchf d s
  | .bchv v => Sys2Proof.Machine.execBchv v s
  | .gclear => Sys2Proof.Machine.execGclear s
  | .gfinder => Sys2Proof.Machine.execGfinder s
  | .galign => Sys2Proof.Machine.execGalign s
  | .gtiming => Sys2Proof.Machine.execGtiming s
  | .gformat => Sys2Proof.Machine.execGformat s
  | .gversion => Sys2Proof.Machine.execGversion s
  | .gmap => Sys2Proof.Machine.execGmap s
  | .gbuild => Sys2Proof.Machine.execGbuild s
  | .apos k => Sys2Proof.Machine.execApos k s
  | .maskfn m row col => Sys2Proof.Machine.execMaskfn m row col s
  | .score => Sys2Proof.Machine.execScore s
  | .best => Sys2Proof.Machine.execBest s

end Sys2Proof.Machine
end

