-- ==== Sys2Proof/Machine/Step.lean ====
section
/-! DEFINITION. One step of the machine: one event of the interleaving of host accesses and engine steps (20_memory.md
R72). -/

namespace Sys2Proof.Machine

/-- The engine's turn (60_exceptions.md R258): it executes the pending command, an illegal word ending with E_ILLEGAL; with
none pending it is idle (60_exceptions.md R275). -/
def engineStep (s : State) : Result :=
  match s.pending with
  | none => .next s
  | some w =>
    match decode w with
    | .command i => exec i s
    | .illegal _ => raise s .illegal

/-- One step: the next event, taken off the list; when no event is left, the engine's turn (log 1, log 6). -/
def step (s : State) : Host.Outcome State Fault Refusal :=
  match s.inputs with
  | [] => engineStep s
  | .engineTurn :: rest => engineStep { s with inputs := rest }
  | .hostRead bytes off :: rest => .next ({ s with inputs := rest }.hostRead bytes off)
  | .hostWrite bytes off v :: rest => .next ({ s with inputs := rest }.hostWrite bytes off v)
  | .powerOn :: rest => .next { s with inputs := rest }.powerOnReset

/-- The state in which the next step executes the word whose bits are `w`, the bits above `nbits` zero: the word accepted as
the pending command, and the turn the engine's (log 10). -/
def State.withFetchWord (s : State) (nbits w : Nat) : State :=
  { s with inputs := .engineTurn :: s.inputs }.accept (tableWord nbits w)

end Sys2Proof.Machine
end

