-- ==== Sys2Proof/Machine/Assembler.lean ====
section
/-! DEFINITION. The assembler syntax (30_encoding.md R98): a line `MNEMONIC operand, operand, ...`, with registers
`p0`..`p3` and numbers in decimal, `0x` hexadecimal or `0b` binary, read to a command. -/

namespace Sys2Proof.Machine

/-- The value of a digit of a base, 2, 10 or 16; no other character is a digit. -/
def digitValue (base : Nat) (c : Char) : Option Nat :=
  let v :=
    if '0' ≤ c ∧ c ≤ '9' then c.toNat - '0'.toNat
    else if 'a' ≤ c ∧ c ≤ 'f' then c.toNat - 'a'.toNat + 10
    else if 'A' ≤ c ∧ c ≤ 'F' then c.toNat - 'A'.toNat + 10
    else base
  if v < base then some v else none

/-- Digits of a base, most significant first, after the value read so far. -/
def digitsValue (base : Nat) : Nat → List Char → Option Nat
  | acc, [] => some acc
  | acc, c :: cs =>
    match digitValue base c with
    | none => none
    | some v => digitsValue base (acc * base + v) cs

/-- A number: decimal, `0x` hexadecimal or `0b` binary, with at least one digit. -/
def numberOf : List Char → Option Nat
  | [] => none
  | ['0', 'x'] => none
  | ['0', 'b'] => none
  | '0' :: 'x' :: cs => digitsValue 16 0 cs
  | '0' :: 'b' :: cs => digitsValue 2 0 cs
  | cs => digitsValue 10 0 cs

/-- One operand: a register or a number. -/
def operandOf : List Char → Option Operand
  | 'p' :: cs => (digitsValue 10 0 cs).bind fun k => if cs.length = 1 then some (.reg k) else none
  | cs => (numberOf cs).map .imm

/-- The pieces of a text between the characters `sep`. -/
def splitAt (sep : Char) : List Char → List (List Char)
  | [] => [[]]
  | c :: cs =>
    match splitAt sep cs with
    | [] => [[c]]
    | piece :: pieces => if c = sep then [] :: piece :: pieces else (c :: piece) :: pieces

/-- The blanks taken off both ends. -/
def trim (cs : List Char) : List Char :=
  ((cs.dropWhile (· == ' ')).reverse.dropWhile (· == ' ')).reverse

/-- A line as a mnemonic and its operands. -/
def parseLine (line : List Char) : Option Asm :=
  let text := trim line
  let name := text.takeWhile (· != ' ')
  let rest := trim (text.dropWhile (· != ' '))
  let operands := if rest = [] then some [] else (splitAt ',' rest).mapM fun piece => operandOf (trim piece)
  operands.map fun os => ⟨String.ofList name, os⟩

/-- A register number in its field. -/
def pregOf (k : Nat) : PReg := regOf (BitVec.ofNat 2 k)

/-- The command a well-formed text stands for (30_encoding.md R93, R98). -/
def assemble (a : Asm) : Option Instr :=
  if a.wellFormed then
    match a.mnemonic, a.operands with
    | "NOP", [] => some .nop
    | "GFMUL", [.imm x, .imm y] => some (.gfmul (BitVec.ofNat 8 x) (BitVec.ofNat 8 y))
    | "GFEXP", [.imm i] => some (.gfexp (BitVec.ofNat 8 i))
    | "GFLOG", [.imm x] => some (.gflog (BitVec.ofNat 8 x))
    | "PMUL", [.reg d, .reg p, .reg q] => some (.pmul (pregOf d) (pregOf p) (pregOf q))
    | "PMOD", [.reg d, .reg p, .reg q] => some (.pmod (pregOf d) (pregOf p) (pregOf q))
    | "GENPOLY", [.reg d, .imm n] => some (.genpoly (pregOf d) (BitVec.ofNat 8 n))
    | "RSENC", [.reg d, .reg p, .imm n] => some (.rsenc (pregOf d) (pregOf p) (BitVec.ofNat 8 n))
    | "BCHF", [.imm d] => some (.bchf (BitVec.ofNat 5 d))
    | "BCHV", [.imm v] => some (.bchv (BitVec.ofNat 6 v))
    | "GCLEAR", [] => some .gclear
    | "GFINDER", [] => some .gfinder
    | "GALIGN", [] => some .galign
    | "GTIMING", [] => some .gtiming
    | "GFORMAT", [] => some .gformat
    | "GVERSION", [] => some .gversion
    | "GMAP", [] => some .gmap
    | "GBUILD", [] => some .gbuild
    | "APOS", [.imm k] => some (.apos (BitVec.ofNat 8 k))
    | "MASKFN", [.imm m, .imm r, .imm c] => some (.maskfn (BitVec.ofNat 3 m) (BitVec.ofNat 8 r) (BitVec.ofNat 8 c))
    | "SCORE", [] => some .score
    | "BEST", [] => some .best
    | _, _ => none
  else none

/-- The word of a line of assembler text, if it is a command. -/
def assembleLine (line : String) : Option Word := ((parseLine line.toList).bind assemble).map encode

end Sys2Proof.Machine
end

