-- ==== Sys2Proof/Machine/HostProgram.lean ====
section
/-! DEFINITION. The host program syntax (30_encoding.md R100) as lists of events. `poll` waits for BUSY = 0: on this
machine the schedule's choice of when the engine moves (log 1), after which STATUS is read. -/

namespace Sys2Proof.Machine

/-- `wr`: a 32-bit write at an offset. -/
def wr (off : Nat) (v : Word) : List HostEvent := [.hostWrite 4 off v]

/-- `rd`: a 32-bit read at an offset; its value is the bus's answer. -/
def rd (off : Nat) : List HostEvent := [.hostRead 4 off]

/-- `poll`: the engine completes the pending command, and STATUS is read. -/
def poll : List HostEvent := .engineTurn :: rd 0x0008

/-- `cmd C`: the command's word is written to CMD, then `poll`. -/
def cmd (i : Instr) : List HostEvent := wr 0x000C (encode i) ++ poll

/-- `wrpoly pK, [b0, ...]`: the length, then the coefficients. -/
def wrpoly (p : PReg) (l : List Byte) : List HostEvent :=
  wr (0x0030 + 4 * p.idx) (BitVec.ofNat 32 l.length)
    ++ l.zipIdx.flatMap fun b => wr (coefAddr p b.2) (b.1.setWidth 32)

/-- `wrcw [b0, ...]`: the codeword bytes, then CWLEN. -/
def wrcw (l : List Byte) : List HostEvent :=
  (l.zipIdx.flatMap fun b => wr (cwAddr b.2) (b.1.setWidth 32)) ++ wr 0x001C (BitVec.ofNat 32 l.length)

/-- The state with the events of a host program still to come. -/
def State.withProgram (s : State) (p : List HostEvent) : State := { s with inputs := s.inputs ++ p }

end Sys2Proof.Machine
end

