-- ==== Sys2Proof/Safety.lean ====
section
/-! DEFINITION. What a good state is, and the reference notions the statements use: said from the spec in other words than
the machine's own. -/

namespace Sys2Proof.Machine

/-! Good states. -/

/-- The offset of some array element: a coefficient, a codeword byte or a cell (20_memory.md R61). -/
def isElementAddr (a : Nat) : Bool :=
  (a % 4 == 0 && Nat.ble 0x1000 a && Nat.blt a 0x2000) || isCwAddr a || isCellAddr a

/-- Every listed byte belongs to an array element, and a cell's code is UNSET, LIGHT or DARK (10_state.md R35). -/
def Memory.placed (m : Memory) : Bool :=
  m.all fun e => isElementAddr e.1 && (!isCellAddr e.1 || Nat.ble e.2.toNat 2)

/-- The machine's invariant: the arrays are canonical and hold only elements, and STATUS is consistent (10_state.md R23,
60_exceptions.md R250, 70_reset_and_hazards.md R285). -/
structure State.Inv (s : State) : Prop where
  canonical : s.mem.wf = true
  placed : s.mem.placed = true
  /-- ECODE ≠ 0 if and only if ERR = 1 -/
  errorCode : s.status.ecode ≠ 0#8 ↔ s.status.err = true
  /-- the codes above 0x06 are never written -/
  knownCode : s.status.ecode.toNat ≤ 6
  /-- DONE and ERR are 0 during BUSY -/
  busyClear : s.status.busy = true → s.status.done = false ∧ s.status.err = false

/-- VERSION is one of 1..40 (10_state.md R25). -/
abbrev State.versionLegal (s : State) : Prop := 1 ≤ s.version.toNat ∧ s.version.toNat ≤ 40

/-- moduleCount, the side of the symbol (00_scope.md R14). -/
abbrev State.side (s : State) : Nat := 4 * s.version.toNat + 17

/-- STATUS after a completion without error (60_exceptions.md R258). -/
abbrev Status.completed (t : Status) : Status := { t with busy := false, done := true }

/-- STATUS after a completion with error code `code` (60_exceptions.md R255). -/
abbrev Status.failed (t : Status) (code : Byte) : Status :=
  { t with busy := false, done := true, err := true, ecode := code }

namespace Ref

/-! GF(256) and GF(2) from their reduction polynomials. -/

/-- Multiplication by α: one shift, reduced by 0x11D (10_state.md R30). -/
def double (a : Nat) : Nat := if a <<< 1 ≥ 0x100 then (a <<< 1) ^^^ 0x11D else a <<< 1

/-- `αⁱ` by repeated multiplication (10_state.md R30). -/
def alphaPow : Nat → Nat
  | 0 => 1
  | i + 1 => double (alphaPow i)

/-- The product of two bytes as bit polynomials modulo 0x11D (10_state.md R30), bit 7 of `b` first. -/
def times (a b : Nat) : Nat :=
  [7, 6, 5, 4, 3, 2, 1, 0].foldl (fun acc k => double acc ^^^ (if b.testBit k then a else 0)) 0

/-- The product of two bit polynomials over GF(2), the first of degree below 32 (43_bch.md R173). -/
def bitMul (a b : Nat) : Nat :=
  (List.range 32).foldl (fun acc k => if a.testBit k then acc ^^^ (b <<< k) else acc) 0

/-! Polynomials over GF(256) by their coefficients. -/

/-- The coefficient of xᵏ; 0 beyond the degree (00_scope.md R12). -/
def coeff (l : List Byte) (k : Nat) : Byte := l.reverse.getD k 0#8

/-- The coefficient of xᵏ in the product: the sum of `a_i ⊗ b_{k−i}` (41_polynomial.md R142). -/
def conv (a b : List Byte) (k : Nat) : Byte :=
  (List.range (k + 1)).foldl (fun acc i => acc ^^^ gmul (coeff a i) (coeff b (k - i))) 0#8

/-- The value of the polynomial at `x`. -/
def evalAt (l : List Byte) (x : Byte) : Byte := l.foldl (fun acc c => gmul acc x ^^^ c) 0#8

/-! The symbol's areas, by distance. -/

/-- The larger of the row and the column distance. -/
def distance (r c r' c' : Nat) : Nat := max (absDiff r r') (absDiff c c')

/-- A finder's colour: dark ring, light ring, dark 3 × 3 centre, light separator, by the distance from its centre
(44_grid.md R183); `none` away from the three finders. -/
def finder (n r c : Nat) : Option Bool :=
  ([(3, 3), (n - 4, 3), (3, n - 4)].find? fun z => distance r c z.1 z.2 ≤ 4).map fun z =>
    distance r c z.1 z.2 != 2 && distance r c z.1 z.2 != 4

/-- The timing tracks' colour (44_grid.md R185); `none` off the tracks. -/
def timing (n r c : Nat) : Option Bool :=
  if c = 6 ∧ 8 ≤ r ∧ r ≤ n - 9 then some (r % 2 == 0)
  else if r = 6 ∧ 8 ≤ c ∧ c ≤ n - 9 then some (c % 2 == 0)
  else none

/-- An alignment pattern's colour: dark ring, light ring, dark centre (44_grid.md R184); `none` where no pattern whose
centre was UNSET in `m` lies. -/
def alignment (v : Nat) (m : Memory) (r c : Nat) : Option Bool :=
  ((centres (aposTable v)).find? fun z => decide (distance r c z.1 z.2 ≤ 2) && m.cell z.1 z.2 == unset).map fun z =>
    distance r c z.1 z.2 != 1

/-- A cell that takes a colour only when UNSET (44_grid.md R181). -/
def stamped (old : Byte) (new : Option Bool) : Byte :=
  if old ≠ unset then old else match new with | some dark => colour dark | none => unset

/-- The cells that take the format word's bits, the fixed dark cell, and from version 7 on the version word's bits
(44_grid.md R186, R187, R189): the cells a trial build with trialMetaLight makes light (45_mask.md R232). -/
def isMeta (v r c : Nat) : Bool :=
  let n := 4 * v + 17
  decide ((c = 8 ∧ (r ≤ 5 ∨ r = 7 ∨ r = 8 ∨ (n - 8 ≤ r ∧ r < n))) ∨ (r = 8 ∧ (c ≤ 5 ∨ c = 7 ∨ (n - 8 ≤ c ∧ c < n))) ∨
    (7 ≤ v ∧ ((r ≤ 5 ∧ n - 11 ≤ c ∧ c ≤ n - 9) ∨ (c ≤ 5 ∧ n - 11 ≤ r ∧ r ≤ n - 9))))

/-- The step between R32's positions after the first: the least even one that reaches from the last back to 6 or below in
the given number of positions, in version 32 two less (10_state.md R32, read off its table). -/
def alignmentStep (v count : Nat) : Nat :=
  if v = 32 then 26 else 2 * ((4 * v + 4 + (2 * (count - 1) - 1)) / (2 * (count - 1)))

/-! The penalty rules, as the counts and sums of 45_mask.md. -/

/-- Rule (a) (45_mask.md R222): the neighbours are the cells at most one row and one column away. -/
def penaltyA (n : Nat) (dark : Nat → Nat → Bool) : Nat :=
  ∑ r ∈ Finset.Icc 1 (n - 2), ∑ c ∈ Finset.Icc 1 (n - 2),
    let s := ((Finset.Icc (r - 1) (r + 1) ×ˢ Finset.Icc (c - 1) (c + 1)).filter fun z =>
      z ≠ (r, c) ∧ dark z.1 z.2 = dark r c).card
    if s > 5 then 3 + (s - 5) else 0

/-- Rule (b) (45_mask.md R223). -/
def penaltyB (n : Nat) (dark : Nat → Nat → Bool) : Nat :=
  3 * ((Finset.range (n - 1) ×ˢ Finset.range (n - 1)).filter fun z =>
    dark z.1 z.2 = dark (z.1 + 1) z.2 ∧ dark z.1 z.2 = dark z.1 (z.2 + 1) ∧
      dark z.1 z.2 = dark (z.1 + 1) (z.2 + 1)).card

/-- Seven cells are dark, light, dark, dark, dark, light, dark: light at 1 and 5 only (45_mask.md R224). -/
abbrev finderLike (cell : Nat → Bool) : Prop := ∀ k < 7, cell k = (k != 1 && k != 5)

/-- Rule (c) (45_mask.md R224): the runs along the rows and those along the columns, by their first cell. -/
def penaltyC (n : Nat) (dark : Nat → Nat → Bool) : Nat :=
  40 * (((Finset.range n ×ˢ Finset.range (n - 6)).filter fun z => finderLike fun k => dark z.1 (z.2 + k)).card
    + ((Finset.range (n - 6) ×ˢ Finset.range n).filter fun z => finderLike fun k => dark (z.1 + k) z.2).card)

/-- D, the number of dark cells (45_mask.md R225). -/
def darkCells (n : Nat) (dark : Nat → Nat → Bool) : Nat :=
  ((Finset.range n ×ˢ Finset.range n).filter fun z => dark z.1 z.2 = true).card

/-- Rule (d) of D dark cells, under either rounding (45_mask.md R225). -/
def penaltyD (mode : RuleDPercent) (n d : Nat) : Nat :=
  match mode with
  | .exact => 10 * ((100 * d - 50 * n ^ 2 : Int).natAbs / (5 * n ^ 2))
  | .truncated => 10 * (((100 * d / n ^ 2 : Nat) - 50 : Int).natAbs / 5)

/-- The score of a symbol (45_mask.md R226). -/
def score (mode : RuleDPercent) (n : Nat) (dark : Nat → Nat → Bool) : Nat :=
  penaltyA n dark + penaltyB n dark + penaltyC n dark + penaltyD mode n (darkCells n dark)

end Ref

end Sys2Proof.Machine
end

