-- ==== Sys2Proof/Certificates/Slice0/Obligations.lean ====
section
/-! DEFINITION. The statements about the machine. `t.status.completed` and the like are Safety.lean's names for the STATUS
a completion leaves; `{ s with f := t.f }` says that t is s but for the field f. -/

open Sys2Proof Sys2Proof.Machine

/-! Encoding. -/

/-- Every well-formed command is read back from its word (30_encoding.md R91 to R95). -/
def Obligations.DecodeReadsEveryEncodedCommand : Prop :=
  ∀ i : Instr, i.WellFormed → decode (encode i) = .command i

/-- A word that decodes to a command is that command's one word (30_encoding.md R90 to R94). -/
def Obligations.EveryLegalWordIsOneCommandsEncoding : Prop :=
  ∀ (w : Word) (i : Instr), decode w = .command i → encode i = w

/-- A word is illegal exactly when it has no listed row's opcode with that row's fixed bits (30_encoding.md R94 to R96). -/
def Obligations.WordIsIllegalExactlyWhenItMatchesNoRow : Prop :=
  ∀ w : Word, (∃ why, decode w = .illegal why) ↔ ∀ i : Instr, w &&& i.format.mask ≠ i.opc ++ 0#24

/-- The spec's example words decode to the commands it writes for them (30_encoding.md R98). -/
def Obligations.SpecExampleWordsDecode : Prop :=
  decode 0x00000000 = .command .nop ∧ decode 0x010053CA = .command (.gfmul 0x53 0xCA)
    ∧ decode 0x020000FF = .command (.gfexp 255) ∧ decode 0x0300008E = .command (.gflog 0x8E)
    ∧ decode 0x10840000 = .command (.pmul .p2 .p0 .p1)
    ∧ decode 0x11C80000 = .command (.pmod .p3 .p0 .p2) ∧ decode 0x12800007 = .command (.genpoly .p2 7)
    ∧ decode 0x18400007 = .command (.rsenc .p1 .p0 7) ∧ decode 0x20000008 = .command (.bchf 0b01000)
    ∧ decode 0x21000007 = .command (.bchv 7) ∧ decode 0x37000000 = .command .gbuild
    ∧ decode 0x38000002 = .command (.apos 2) ∧ decode 0x40030A04 = .command (.maskfn 3 10 4)
    ∧ decode 0x41000000 = .command .score ∧ decode 0x42000000 = .command .best

/-- What is written for a command is well formed and assembles to it (30_encoding.md R98). -/
def Obligations.WrittenCommandAssemblesToItself : Prop :=
  ∀ i : Instr, i.WellFormed ∧ assemble i.toAsm = some i

/-! The engine step. -/

/-- While BUSY = 1, the engine's turn is the execution of the decoded pending command, whether the schedule names the turn or
no event is left; the step adds only that the turn is taken off the list, the model's schedule of log 1. While BUSY = 0 no
command is pending and the turn changes nothing, as log 6 deduces (60_exceptions.md R258, R275). -/
def Obligations.EngineTurnExecutesThePendingCommand : Prop :=
  ∀ s : State,
    (∀ i : Instr, s.status.busy = true → decode s.cmd = .command i →
      (s.inputs = [] → step s = exec i s) ∧
      (∀ rest, s.inputs = .engineTurn :: rest → step s = exec i { s with inputs := rest })) ∧
    (s.status.busy = false →
      (s.inputs = [] → step s = .next s) ∧
      (∀ rest, s.inputs = .engineTurn :: rest → step s = .next { s with inputs := rest }))

/-- An illegal pending word completes with E_ILLEGAL and no other effect, at the turn of log 1's schedule (30_encoding.md
R95, R96). -/
def Obligations.IllegalWordCompletesWithErrorOnly : Prop :=
  ∀ (s : State) (why : IllegalReason), s.status.busy = true → decode s.cmd = .illegal why →
    (s.inputs = [] → step s = .next { s with status := s.status.failed 0x01 }) ∧
    (∀ rest, s.inputs = .engineTurn :: rest →
      step s = .next { s with inputs := rest, status := s.status.failed 0x01 })

/-- A word placed for the next step, as log 10 places it, is what that step executes, as an accepted command
(60_exceptions.md R258). -/
def Obligations.PlacedWordIsExecutedNext : Prop :=
  ∀ (s : State) (nbits w : Nat) (i : Instr), decodeTableWord nbits w = some i →
    step (s.withFetchWord nbits w) = exec i (s.accept (tableWord nbits w))

/-- Every step answers a next state, so no behaviour is stuck (93_implementation_defined.md section 1), and every accepted
command completes, or is abandoned, within one step more than the events still to come in log 1's schedule: the machine is
then idle (70_reset_and_hazards.md R290). -/
def Obligations.EveryAcceptedCommandEnds : Prop :=
  (∀ s : State, ∃ t, step s = .next t) ∧
  ∀ s : State, ∃ k t, k ≤ s.inputs.length + 1 ∧ Host.Core.run core k s = .next t ∧ t.status.busy = false

/-- Executing a command ends it: BUSY = 0, DONE = 1, HAZ kept, and either no error is reported and ERR and ECODE are as
they were, or ERR = 1 with a code (60_exceptions.md R255, R258). -/
def Obligations.ExecutionEndsWithDone : Prop :=
  ∀ (i : Instr) (s : State), ∃ t, exec i s = .next t ∧
    (t.status = s.status.completed ∨ ∃ e : ErrorCode, t.status = s.status.failed e.code)

/-- An error, of a command or of an illegal word, is precise: the state after it is the state before it, except STATUS,
where ECODE is the code, ERR = DONE = 1 and BUSY = 0 (60_exceptions.md R255). -/
def Obligations.ErrorChangesStatusOnly : Prop :=
  ∀ s t : State, engineStep s = .next t → s.status.err = false → t.status.err = true →
    ∃ e : ErrorCode, t = { s with status := s.status.failed e.code }

/-- A command writes only engine-written state and STATUS: CTRL, CMD, VERSION, ECL, CWLEN and the codeword memory keep
their values, as do the model's own fields, and MASK and TSCORE0..7 are written by BEST alone (00_scope.md R18,
10_state.md R25, R28, R34). -/
def Obligations.CommandsWriteOnlyEngineWrittenState : Prop :=
  ∀ (i : Instr) (s t : State), exec i s = .next t →
    t = { s with
      status := t.status, mask := t.mask, res := t.res, tscore := t.tscore, plen := t.plen, mem := t.mem } ∧
    (∀ k < 4096, t.mem.read (cwAddr k) = s.mem.read (cwAddr k)) ∧
    (i ≠ .best → t.mask = s.mask ∧ t.tscore = s.tscore)

/-! Invariant. -/

/-- Every step keeps the invariant, from every state that has it; the canonical form of the arrays is the model's, log 11
(10_state.md R23, R35). -/
def Obligations.EveryStepKeepsTheInvariant : Prop :=
  ∀ s t : State, s.Inv → step s = .next t → t.Inv

/-- The state after reset has the invariant (70_reset_and_hazards.md R280). -/
def Obligations.ResetHasTheInvariant : Prop := State.reset.Inv

/-! The field unit. -/

/-- NOP, GFMUL, GFEXP, BCHF, BCHV, MASKFN, GENPOLY and GCLEAR complete without error in every state (60_exceptions.md
R251); NOP changes nothing but STATUS (40_gf_field.md R120). -/
def Obligations.CommandsWithoutDomainErrorsComplete : Prop :=
  ∀ (s : State) (a b : Byte) (d : BitVec 5) (v : BitVec 6) (m : BitVec 3) (p : PReg),
    exec .nop s = .next { s with status := s.status.completed } ∧
    ∀ i ∈ [Instr.nop, .gfmul a b, .gfexp a, .bchf d, .bchv v, .maskfn m a b, .genpoly p a, .gclear],
      ∃ t, exec i s = .next t ∧ t.status = s.status.completed

/-- GFMUL writes the product of its operands as bit polynomials modulo x⁸+x⁴+x³+x²+1 to RES0, and nothing else
(40_gf_field.md R122, R123, 10_state.md R30). -/
def Obligations.GfmulWritesThePolynomialProduct : Prop :=
  ∀ (a b : Byte) (s : State),
    exec (.gfmul a b) s = .next { s with
      res := s.res.set 0 (BitVec.ofNat 32 (Ref.times a.toNat b.toNat)), status := s.status.completed }

/-- GFEXP writes αⁱ to RES0, and nothing else (40_gf_field.md R124, 10_state.md R30). -/
def Obligations.GfexpWritesThePowerOfAlpha : Prop :=
  ∀ (i : Byte) (s : State),
    exec (.gfexp i) s = .next { s with
      res := s.res.set 0 (BitVec.ofNat 32 (Ref.alphaPow i.toNat)), status := s.status.completed }

/-- GFLOG of 0 ends with E_LOG0; of any other byte it writes the unique exponent in 0..254 to RES0, and nothing else
(40_gf_field.md R125, 10_state.md R31). -/
def Obligations.GflogWritesTheUniqueExponent : Prop :=
  ∀ (a : Byte) (s : State),
    (a = 0 → exec (.gflog a) s = .next { s with status := s.status.failed 0x02 }) ∧
    (a ≠ 0 → ∃ k ≤ 254, Ref.alphaPow k = a.toNat ∧ (∀ j ≤ 254, Ref.alphaPow j = a.toNat → j = k) ∧
      exec (.gflog a) s = .next { s with
        res := s.res.set 0 (BitVec.ofNat 32 k), status := s.status.completed })

/-- The field laws of ⊗ and ⊕, inverses and division (40_gf_field.md R126). -/
def Obligations.FieldLawsHold : Prop :=
  ∀ a b c : Byte,
    gmul a b = gmul b a ∧ gmul (gmul a b) c = gmul a (gmul b c) ∧ gmul 1 a = a ∧ gmul 0 a = 0 ∧
    gmul a (b ^^^ c) = gmul a b ^^^ gmul a c ∧
    (a ≠ 0 → gmul a (gexp ((255 - glog a) % 255)) = 1) ∧
    (a ≠ 0 → b ≠ 0 → gmul (gdiv a b) b = a)

/-! The polynomial and Reed-Solomon units. -/

/-- PMUL of operands that fit writes the product of the two polynomials over GF(256) in normal form to P[pd]
(41_polynomial.md R141, R142). -/
def Obligations.PmulWritesTheProduct : Prop :=
  ∀ (pd ps pt : PReg) (s : State), s.plen[ps.idx].toNat ≤ 256 → s.plen[pt.idx].toNat ≤ 256 →
    (norm (s.poly ps)).length + (norm (s.poly pt)).length - 1 ≤ 256 →
    ∃ t, exec (.pmul pd ps pt) s = .next t ∧ t.status = s.status.completed ∧
      (∀ k, Ref.coeff (t.poly pd) k = Ref.conv (s.poly ps) (s.poly pt) k) ∧ norm (t.poly pd) = t.poly pd

/-- PMOD by a non-zero divisor writes the remainder r in normal form to P[pd]: a = q·b ⊕ r for some q, and r is shorter
than the divisor in normal form (41_polynomial.md R143, R144). -/
def Obligations.PmodWritesTheRemainder : Prop :=
  ∀ (pd ps pt : PReg) (s : State), s.plen[ps.idx].toNat ≤ 256 → s.plen[pt.idx].toNat ≤ 256 → norm (s.poly pt) ≠ [] →
    ∃ t q, exec (.pmod pd ps pt) s = .next t ∧ t.status = s.status.completed ∧
      (∀ k, Ref.coeff (s.poly ps) k = Ref.conv q (s.poly pt) k ^^^ Ref.coeff (t.poly pd) k) ∧
      (t.poly pd).length < (norm (s.poly pt)).length ∧ norm (t.poly pd) = t.poly pd

/-- GENPOLY writes a monic polynomial of degree n with roots α⁰..α^(n−1) to P[pd] (41_polynomial.md R145, R146). -/
def Obligations.GenpolyWritesTheMonicPolynomialWithTheRoots : Prop :=
  ∀ (pd : PReg) (n : Byte) (s : State),
    ∃ t, exec (.genpoly pd n) s = .next t ∧ t.status = s.status.completed ∧
      (t.poly pd).length = n.toNat + 1 ∧ (t.poly pd).head? = some 1 ∧
      ∀ i < n.toNat, Ref.evalAt (t.poly pd) (BitVec.ofNat 8 (Ref.alphaPow i)) = 0

/-- RSENC of data that fits writes exactly n EC codewords to P[pd], and data followed by EC codewords vanishes at
α⁰..α^(n−1) (42_reed_solomon.md R161, R162). -/
def Obligations.RsencMakesTheCodewordVanishAtTheRoots : Prop :=
  ∀ (pd ps : PReg) (n : Byte) (s : State), s.plen[ps.idx].toNat ≤ 256 →
    (norm (s.poly ps)).length + n.toNat ≤ 256 →
    ∃ t, exec (.rsenc pd ps n) s = .next t ∧ t.status = s.status.completed ∧ t.plen[pd.idx].toNat = n.toNat ∧
      ∀ i < n.toNat, Ref.evalAt (s.poly ps ++ t.poly pd) (BitVec.ofNat 8 (Ref.alphaPow i)) = 0

/-- Frame of PMUL, PMOD, GENPOLY and RSENC: only STATUS, PLEN[pd] and the coefficient cells of P[pd] may change, and
unless the command ends with an error the cells beyond the result's length are 0 (10_state.md R33, 41_polynomial.md R140,
R141, R143, R145, 42_reed_solomon.md R161). -/
def Obligations.PolynomialCommandsFrame : Prop :=
  ∀ (pd ps pt : PReg) (n : Byte) (s t : State) (i : Instr),
    i ∈ [Instr.pmul pd ps pt, .pmod pd ps pt, .genpoly pd n, .rsenc pd ps n] → exec i s = .next t →
    t = { s with status := t.status, plen := t.plen, mem := t.mem } ∧
    (∀ p ≠ pd, t.plen[p.idx] = s.plen[p.idx]) ∧
    (∀ a, (∀ k < 256, a ≠ coefAddr pd k) → t.mem.read a = s.mem.read a) ∧
    ((∃ e : ErrorCode, t = { s with status := s.status.failed e.code }) ∨
      ∀ k, t.plen[pd.idx].toNat ≤ k → k < 256 → t.mem.read (coefAddr pd k) = 0)

/-- The polynomial commands' errors in their order: an operand register of more than 256 coefficients, then PMUL's product
or RSENC's shifted data of more than 256, all E_LEN; then PMOD's zero divisor, E_DIV (60_exceptions.md R251, R252). -/
def Obligations.PolynomialCommandsReportTheFirstError : Prop :=
  ∀ (pd ps pt : PReg) (n : Byte) (s : State),
    (s.plen[ps.idx].toNat > 256 ∨ s.plen[pt.idx].toNat > 256 →
      exec (.pmul pd ps pt) s = .next { s with status := s.status.failed 0x03 } ∧
      exec (.pmod pd ps pt) s = .next { s with status := s.status.failed 0x03 }) ∧
    (s.plen[ps.idx].toNat > 256 → exec (.rsenc pd ps n) s = .next { s with status := s.status.failed 0x03 }) ∧
    (s.plen[ps.idx].toNat ≤ 256 → s.plen[pt.idx].toNat ≤ 256 →
      (norm (s.poly ps)).length + (norm (s.poly pt)).length > 257 →
      exec (.pmul pd ps pt) s = .next { s with status := s.status.failed 0x03 }) ∧
    (s.plen[ps.idx].toNat ≤ 256 → (norm (s.poly ps)).length + n.toNat > 256 →
      exec (.rsenc pd ps n) s = .next { s with status := s.status.failed 0x03 }) ∧
    (s.plen[ps.idx].toNat ≤ 256 → s.plen[pt.idx].toNat ≤ 256 → norm (s.poly pt) = [] →
      exec (.pmod pd ps pt) s = .next { s with status := s.status.failed 0x04 })

/-! The BCH unit. -/

/-- BCHF writes the 15-bit word whose unmasked value has the data in its top five bits and is a multiple of
x¹⁰+x⁸+x⁵+x⁴+x²+x+1 over GF(2) (43_bch.md R170, R171, R176). -/
def Obligations.BchfWritesTheFormatCodeword : Prop :=
  ∀ (d : BitVec 5) (s : State), ∃ f q,
    exec (.bchf d) s = .next { s with
      res := s.res.set 0 (BitVec.ofNat 32 f), status := s.status.completed } ∧
    f < 2 ^ 15 ∧ (f ^^^ 0x5412) >>> 10 = d.toNat ∧ Ref.bitMul q 0b10100110111 = f ^^^ 0x5412

/-- BCHV writes the 18-bit word that has the version in its top six bits and is a multiple of the version generator over
GF(2) (43_bch.md R170, R172, R176). -/
def Obligations.BchvWritesTheVersionCodeword : Prop :=
  ∀ (v : BitVec 6) (s : State), ∃ u q,
    exec (.bchv v) s = .next { s with
      res := s.res.set 0 (BitVec.ofNat 32 u), status := s.status.completed } ∧
    u < 2 ^ 18 ∧ u >>> 12 = v.toNat ∧ Ref.bitMul q 0b1111100100101 = u

/-- The commands that write only result registers leave every other register and every byte of the arrays as they were;
GFMUL, GFEXP, GFLOG, BCHF, BCHV and MASKFN write no result register but RES0, APOS none but RES0 and RES1, SCORE none of
RES6 and RES7 (10_state.md R28). -/
def Obligations.ResultRegisterCommandsFrame : Prop :=
  ∀ (a b : Byte) (d : BitVec 5) (v : BitVec 6) (m : BitVec 3) (s t : State) (i : Instr),
    i ∈ [Instr.nop, .gfmul a b, .gfexp a, .gflog a, .bchf d, .bchv v, .maskfn m a b, .apos a, .score] →
    exec i s = .next t →
    t = { s with status := t.status, res := t.res } ∧ (∀ x, t.mem.read x = s.mem.read x) ∧
    (i = .nop → t.res = s.res) ∧
    (∀ k : Fin 8, k ≠ 0 → i ≠ .apos a → i ≠ .score → t.res[k] = s.res[k]) ∧
    (∀ k : Fin 8, 2 ≤ k.val → i = .apos a → t.res[k] = s.res[k]) ∧
    (∀ k : Fin 8, 6 ≤ k.val → t.res[k] = s.res[k])

/-! The grid builder. -/

/-- GCLEAR, whatever VERSION is, makes every cell of the 177 × 177 array UNSET and changes nothing else but STATUS
(44_grid.md R180). -/
def Obligations.GclearUnsetsEveryCell : Prop :=
  ∀ s : State, ∃ t, exec .gclear s = .next t ∧
    t = { s with mem := t.mem, status := s.status.completed } ∧
    (∀ r c, r < 177 → c < 177 → t.mem.cell r c = 0) ∧
    (∀ a, (∀ r c, r < 177 → c < 177 → a ≠ cellAddr r c) → t.mem.read a = s.mem.read a)

/-- The commands that need a symbol end with E_VERSION when VERSION is not in 1..40, whatever CWLEN is; under a legal
VERSION, GMAP, GBUILD and BEST end with E_CWLEN when CWLEN > 4096 (44_grid.md R181, R193, R195, 45_mask.md R232,
60_exceptions.md R250, R252). -/
def Obligations.SymbolCommandsReportTheFirstError : Prop :=
  ∀ (s : State) (k : Byte) (i : Instr),
    (¬ s.versionLegal →
      i ∈ [Instr.gfinder, .galign, .gtiming, .gformat, .gversion, .gmap, .gbuild, .apos k, .score, .best] →
      exec i s = .next { s with status := s.status.failed 0x05 }) ∧
    (s.versionLegal → s.cwlen.toNat > 4096 → i ∈ [Instr.gmap, .gbuild, .best] →
      exec i s = .next { s with status := s.status.failed 0x06 })

/-- GFINDER gives every UNSET cell of the three finder areas its colour by the distance from the finder's centre, and
leaves every other cell of the symbol as it was (44_grid.md R182, R183). -/
def Obligations.GfinderStampsTheThreeFinders : Prop :=
  ∀ s : State, s.versionLegal → ∃ t, exec .gfinder s = .next t ∧ t.status = s.status.completed ∧
    ∀ r c, r < s.side → c < s.side → t.mem.cell r c = Ref.stamped (s.mem.cell r c) (Ref.finder s.side r c)

/-- GALIGN gives every UNSET cell within two of a table position whose cell is UNSET its colour, and leaves every other
cell of the symbol as it was (44_grid.md R184). -/
def Obligations.GalignStampsTheAlignmentPatterns : Prop :=
  ∀ s : State, s.versionLegal → ∃ t, exec .galign s = .next t ∧ t.status = s.status.completed ∧
    ∀ r c, r < s.side → c < s.side →
      t.mem.cell r c = Ref.stamped (s.mem.cell r c) (Ref.alignment s.version.toNat s.mem r c)

/-- GTIMING gives the UNSET cells 8..n−9 of row 6 and column 6 their colour, dark at even indices, and leaves every other
cell of the symbol as it was (44_grid.md R185). -/
def Obligations.GtimingStampsTheTracks : Prop :=
  ∀ s : State, s.versionLegal → ∃ t, exec .gtiming s = .next t ∧ t.status = s.status.completed ∧
    ∀ r c, r < s.side → c < s.side → t.mem.cell r c = Ref.stamped (s.mem.cell r c) (Ref.timing s.side r c)

/-- GFORMAT writes bit i of the format word of ECL and MASK to its two cells, whatever they held, and the fixed cell DARK,
and changes no other cell (44_grid.md R186 to R188). -/
def Obligations.GformatPlacesBothCopiesOfTheFormatWord : Prop :=
  ∀ s : State, s.versionLegal → ∃ t, exec .gformat s = .next t ∧ t.status = s.status.completed ∧
    let n := s.side
    let bit := fun i => colour ((bchFormat (8 * s.ecl.toNat + s.mask.toNat)).testBit i)
    (∀ i ≤ 5, t.mem.cell i 8 = bit i) ∧ t.mem.cell 7 8 = bit 6 ∧ t.mem.cell 8 8 = bit 7 ∧
    (∀ i, 8 ≤ i → i ≤ 14 → t.mem.cell (n - 15 + i) 8 = bit i) ∧
    (∀ i ≤ 7, t.mem.cell 8 (n - 1 - i) = bit i) ∧ t.mem.cell 8 7 = bit 8 ∧
    (∀ i, 9 ≤ i → i ≤ 14 → t.mem.cell 8 (14 - i) = bit i) ∧
    t.mem.cell (n - 8) 8 = colour true ∧
    ∀ r c, r < 177 → c < 177 →
      ¬ ((c = 8 ∧ (r ≤ 5 ∨ r = 7 ∨ r = 8 ∨ (n - 8 ≤ r ∧ r < n))) ∨ (r = 8 ∧ (c ≤ 5 ∨ c = 7 ∨ (n - 8 ≤ c ∧ c < n)))) →
      t.mem.cell r c = s.mem.cell r c

/-- GVERSION changes no cell below version 7; from 7 on, bit i of the version word goes to the two cells of row or column
i div 3 that are UNSET, and every other cell of the symbol is as it was (44_grid.md R189, R190). -/
def Obligations.GversionPlacesTheVersionWord : Prop :=
  ∀ s : State, s.versionLegal → ∃ t, exec .gversion s = .next t ∧ t.status = s.status.completed ∧
    ∀ r c, r < s.side → c < s.side →
      t.mem.cell r c = Ref.stamped (s.mem.cell r c)
        (if s.version.toNat < 7 then none
        else if r ≤ 5 ∧ s.side - 11 ≤ c ∧ c ≤ s.side - 9 then
          some ((bchVersion s.version.toNat).testBit (3 * r + (c - (s.side - 11))))
        else if c ≤ 5 ∧ s.side - 11 ≤ r ∧ r ≤ s.side - 9 then
          some ((bchVersion s.version.toNat).testBit (3 * c + (r - (s.side - 11))))
        else none)

/-- The scan visits every cell of the symbol but those of column 6, each once, and in this order: strip j, two columns wide
and j strips from the right, left of column 6 shifted by one, goes up when j is even and down when j is odd, in each row
the right cell before the left (44_grid.md R191). -/
def Obligations.MapOrderVisitsEveryCellButColumnSixOnce : Prop :=
  ∀ v, 1 ≤ v → v ≤ 40 →
    let n := 4 * v + 17
    (mapOrder n).Nodup ∧ (mapOrder n).length = (n - 1) * n ∧
    (∀ r c, (r, c) ∈ mapOrder n ↔ r < n ∧ c < n ∧ c ≠ 6) ∧
    ∀ j i b, j < 2 * v + 8 → i < n → b < 2 →
      (mapOrder n)[2 * (n * j + i) + b]? = some
        (if j % 2 = 0 then n - 1 - i else i, (if n - 1 - 2 * j > 6 then n - 1 - 2 * j else n - 2 - 2 * j) - b)

/-- GMAP under a legal VERSION and CWLEN gives the k-th UNSET cell of the scan bit k of the codeword stream, inverted where
the mask says, leaves every cell that was set and column 6 as they were, and reports the cells written and the codeword
bits consumed (44_grid.md R192, R193). -/
def Obligations.GmapPlacesTheStreamInScanOrder : Prop :=
  ∀ s : State, s.versionLegal → s.cwlen.toNat ≤ 4096 → ∃ t, exec .gmap s = .next t ∧ t.status = s.status.completed ∧
    let free := (mapOrder s.side).filter fun z => s.mem.cell z.1 z.2 == unset
    (∀ k z, free[k]? = some z →
      t.mem.cell z.1 z.2 =
        colour ((decide (k < 8 * s.cwlen.toNat) && (s.mem.read (cwAddr (k / 8))).getLsbD (7 - k % 8))
          ^^ maskbit s.mask z.1 z.2)) ∧
    (∀ r c, c < 256 → (r, c) ∉ free → t.mem.cell r c = s.mem.cell r c) ∧
    t.res[0] = BitVec.ofNat 32 free.length ∧ t.res[1] = BitVec.ofNat 32 (min free.length (8 * s.cwlen.toNat))

/-- Frame of GFINDER, GALIGN, GTIMING, GFORMAT and GVERSION: only STATUS and cells of the symbol may change, and all but
GFORMAT change UNSET cells only (44_grid.md R181). -/
def Obligations.StructuralPassesFrame : Prop :=
  ∀ (s t : State) (i : Instr), i ∈ [Instr.gfinder, .galign, .gtiming, .gformat, .gversion] → exec i s = .next t →
    t = { s with status := t.status, mem := t.mem } ∧
    (∀ a, (∀ r c, r < s.side → c < s.side → a ≠ cellAddr r c) → t.mem.read a = s.mem.read a) ∧
    (i ≠ .gformat → ∀ r c, s.mem.cell r c ≠ 0 → t.mem.cell r c = s.mem.cell r c)

/-- Frame of GMAP, GBUILD and BEST: GMAP changes only STATUS, RES0, RES1 and cells of the symbol, GBUILD only STATUS, RES0,
RES1 and cells of the array, BEST also RES2, RES3, MASK and TSCORE (44_grid.md R193, R195, 45_mask.md R232). -/
def Obligations.MappingCommandsFrame : Prop :=
  ∀ (s t : State) (i : Instr), i ∈ [Instr.gmap, .gbuild, .best] → exec i s = .next t →
    t = { s with status := t.status, mem := t.mem, res := t.res, mask := t.mask, tscore := t.tscore } ∧
    (i ≠ .best → t.mask = s.mask ∧ t.tscore = s.tscore ∧ t.res[2] = s.res[2] ∧ t.res[3] = s.res[3]) ∧
    (∀ k : Fin 8, 4 ≤ k.val → t.res[k] = s.res[k]) ∧
    (∀ a, (∀ r c, r < 177 → c < 177 → a ≠ cellAddr r c) → t.mem.read a = s.mem.read a) ∧
    (i = .gmap → ∀ a, (∀ r c, r < s.side → c < s.side → a ≠ cellAddr r c) → t.mem.read a = s.mem.read a)

/-- After GBUILD under a legal VERSION and CWLEN every cell of the symbol is LIGHT or DARK and every cell outside it is
UNSET (44_grid.md R196). -/
def Obligations.GbuildSetsEveryCellOfTheSymbol : Prop :=
  ∀ s : State, s.versionLegal → s.cwlen.toNat ≤ 4096 → ∃ t, exec .gbuild s = .next t ∧ t.status = s.status.completed ∧
    (∀ r c, r < s.side → c < s.side → t.mem.cell r c = 1 ∨ t.mem.cell r c = 2) ∧
    (∀ r c, r < 177 → c < 177 → ¬ (r < s.side ∧ c < s.side) → t.mem.cell r c = 0)

/-- GBUILD leaves what GCLEAR, GFINDER, GALIGN, GTIMING, GFORMAT, GVERSION, GMAP leave when executed in that order
(44_grid.md R195). -/
def Obligations.GbuildIsThePassesInOrder : Prop :=
  ∀ s : State, s.versionLegal → s.cwlen.toNat ≤ 4096 →
    ∃ s1 s2 s3 s4 s5 s6 t, exec .gclear s = .next s1 ∧ exec .gfinder s1 = .next s2 ∧ exec .galign s2 = .next s3 ∧
      exec .gtiming s3 = .next s4 ∧ exec .gformat s4 = .next s5 ∧ exec .gversion s5 = .next s6 ∧
      exec .gmap s6 = .next t ∧ exec .gbuild s = .next t

/-- Two builds of one version give every finder, separator, alignment and timing cell the same colour, whatever MASK, ECL
and the codewords are; an alignment cell is one within two of a table position outside the finder areas (44_grid.md R184,
R196). -/
def Obligations.FixedPatternCellsIgnoreMaskAndData : Prop :=
  ∀ s s' t t' : State, s.versionLegal → s'.version = s.version → s.cwlen.toNat ≤ 4096 → s'.cwlen.toNat ≤ 4096 →
    exec .gbuild s = .next t → exec .gbuild s' = .next t' →
    ∀ r c, r < s.side → c < s.side →
      (Ref.finder s.side r c ≠ none ∨ Ref.timing s.side r c ≠ none ∨
        ∃ z ∈ centres (aposTable s.version.toNat),
          Ref.finder s.side z.1 z.2 = none ∧ Ref.distance r c z.1 z.2 ≤ 2) →
      t.mem.cell r c = t'.mem.cell r c

/-- APOS k under a legal VERSION v writes the number of alignment positions to RES0 and position k to RES1, 0 past the end,
and nothing else; the table has no position for version 1 and ⌊v/7⌋ + 2 above, in increasing order, the first 6, the others
in equal steps down from the last, n − 7, which fixes every row of it (10_state.md R32, 44_grid.md R197). -/
def Obligations.AposReadsTheAlignmentTable : Prop :=
  ∀ (k : Byte) (s : State), s.versionLegal →
    let v := s.version.toNat
    let pos := aposTable v
    let count := if v = 1 then 0 else v / 7 + 2
    exec (.apos k) s = .next { s with
      res := (s.res.set 0 (BitVec.ofNat 32 count)).set 1 (BitVec.ofNat 32 (pos.getD k.toNat 0))
      status := s.status.completed } ∧
    pos.length = count ∧ pos.Pairwise (· < ·) ∧ (v ≠ 1 → pos[0]? = some 6) ∧
    ∀ j, 1 ≤ j → j < count → pos[j]? = some (4 * v + 10 - (count - 1 - j) * Ref.alignmentStep v count)

/-! The mask evaluator. -/

/-- MASKFN writes 1 to RES0 when the mask's condition holds at the row and column, else 0, and nothing else, and the answer
repeats every 12 rows and 6 columns, as the conditions do, where R221's remark says 6 by 6 (log 17) (45_mask.md R220,
R221). -/
def Obligations.MaskfnEvaluatesTheCondition : Prop :=
  ∀ (m : BitVec 3) (row col : Byte) (s : State),
    let i := row.toNat
    let j := col.toNat
    let inverts : Prop := match m.toNat with
      | 0 => 2 ∣ i + j
      | 1 => 2 ∣ i
      | 2 => 3 ∣ j
      | 3 => 3 ∣ i + j
      | 4 => 2 ∣ i / 2 + j / 3
      | 5 => 6 ∣ i * j
      | 6 => 2 ∣ i * j % 2 + i * j % 3
      | _ => 2 ∣ i * j % 3 + (i + j) % 2
    (inverts → exec (.maskfn m row col) s = .next { s with
      res := s.res.set 0 1, status := s.status.completed }) ∧
    (¬ inverts → exec (.maskfn m row col) s = .next { s with
      res := s.res.set 0 0, status := s.status.completed }) ∧
    (∀ x y, maskbit m (x + 12) y = maskbit m x y ∧ maskbit m x (y + 6) = maskbit m x y)

/-- SCORE under a legal VERSION writes the four penalties of the symbol's colours, UNSET counting as light, to RES1..RES4,
the dark count to RES5 and, without wrapping, their sum to RES0 (45_mask.md R222 to R229). -/
def Obligations.ScoreWritesTheFourPenalties : Prop :=
  ∀ s : State, s.versionLegal → ∃ t, exec .score s = .next t ∧ t.status = s.status.completed ∧
    let dark := fun r c => s.mem.cell r c == 2
    let n := s.side
    t.res[1].toNat = Ref.penaltyA n dark ∧ t.res[2].toNat = Ref.penaltyB n dark ∧ t.res[3].toNat = Ref.penaltyC n dark ∧
    t.res[4].toNat = Ref.penaltyD s.params.ruleDPercent n (Ref.darkCells n dark) ∧
    t.res[5].toNat = Ref.darkCells n dark ∧
    t.res[0].toNat = t.res[1].toNat + t.res[2].toNat + t.res[3].toNat + t.res[4].toNat

/-- The two roundings of rule (d) agree when the dark percentage is at least 50 or an integer, and otherwise truncated is
the exact penalty or 10 more (45_mask.md R225). -/
def Obligations.RuleDRoundingsDifferByAtMostTen : Prop :=
  ∀ n d : Nat, 1 ≤ n → d ≤ n ^ 2 →
    (100 * d ≥ 50 * n ^ 2 ∨ n ^ 2 ∣ 100 * d → penD .truncated n d = penD .exact n d) ∧
    (penD .truncated n d = penD .exact n d ∨ penD .truncated n d = penD .exact n d + 10)

/-- BEST under a legal VERSION and CWLEN selects the first mask of the least trial score: RES0 and MASK hold it, RES1 its
score, and TSCORE0..7, without wrapping, the scores of the trial grids; the trial grid of mask m is the symbol GBUILD builds
with m, but that under trialMetaLight the format cells, the fixed dark cell and the version cells are LIGHT (44_grid.md
R187, 45_mask.md R222 to R226, R232, R233). -/
def Obligations.BestSelectsTheFirstLeastScore : Prop :=
  ∀ s : State, s.versionLegal → s.cwlen.toNat ≤ 4096 →
    ∃ t, ∃ win : Fin 8, exec .best s = .next t ∧ t.status = s.status.completed ∧
      t.mask = BitVec.ofNat 3 win.val ∧ t.res[0] = BitVec.ofNat 32 win.val ∧ t.res[1] = t.tscore[win] ∧
      (∀ m : Fin 8, ∃ u, exec .gbuild { s with mask := BitVec.ofNat 3 m.val } = .next u ∧
        let trial := trialMemory s s.side (BitVec.ofNat 3 m.val)
        (∀ r c, r < s.side → c < s.side → trial.cell r c =
          if s.params.trialMetaLight && Ref.isMeta s.version.toNat r c then 1 else u.mem.cell r c) ∧
        t.tscore[m].toNat = Ref.score s.params.ruleDPercent s.side fun r c => trial.cell r c == 2) ∧
      (∀ m : Fin 8, t.tscore[win] ≤ t.tscore[m]) ∧ (∀ m : Fin 8, m < win → t.tscore[win] < t.tscore[m])

/-- BEST leaves the arrays GBUILD leaves with MASK = the winner, and RES2, RES3 hold GBUILD's RES0, RES1 (45_mask.md
R232). -/
def Obligations.BestBuildsTheWinnersSymbol : Prop :=
  ∀ s t : State, s.versionLegal → s.cwlen.toNat ≤ 4096 → exec .best s = .next t →
    ∃ u, exec .gbuild { s with mask := t.mask } = .next u ∧ t.mem = u.mem ∧ t.res[2] = u.res[0] ∧ t.res[3] = u.res[1]

/-- With trialMetaLight = false, TSCOREm is what SCORE reports of the symbol GBUILD builds with mask m, so SCORE after BEST
reports the winner's score (45_mask.md R232). -/
def Obligations.TrialScoresAreTheBuiltSymbolsScores : Prop :=
  ∀ s t : State, s.params.trialMetaLight = false → s.versionLegal → s.cwlen.toNat ≤ 4096 → exec .best s = .next t →
    (∀ m : Fin 8, ∃ u w, exec .gbuild { s with mask := BitVec.ofNat 3 m.val } = .next u ∧ exec .score u = .next w ∧
      t.tscore[m] = w.res[0]) ∧
    ∃ w, exec .score t = .next w ∧ w.res[0] = t.res[1]

/-! The host's accesses. -/

/-- An access of another width than 32 bits, at an offset that is not a multiple of 4 or outside the window, is answered
BUS_ERROR and changes no state of the engine (20_memory.md R62, 60_exceptions.md R256). -/
def Obligations.RefusedAccessChangesNothing : Prop :=
  ∀ (s : State) (bytes off : Nat) (v : Word) (rest : List HostEvent),
    bytes ≠ 4 ∨ off % 4 ≠ 0 ∨ 0x80000 ≤ off →
    s.inputs = .hostRead bytes off :: rest ∨ s.inputs = .hostWrite bytes off v :: rest →
    step s = .next { s with inputs := rest, bus := .busError }

/-- A host read changes no state of the engine: only the model's fields, the bus's answer (log 2) and the count of drawn
values (log 3) (20_memory.md R68). -/
def Obligations.HostReadChangesNoEngineState : Prop :=
  ∀ (s : State) (bytes off : Nat) (rest : List HostEvent), s.inputs = .hostRead bytes off :: rest →
    ∃ t, step s = .next t ∧ t = { s with inputs := rest, bus := t.bus, draws := t.draws } ∧
      (s.status.busy = false → t.draws = s.draws)

/-- While BUSY = 1 a read of RES, TSCORE (32 bits), MASK (3), PLEN (9), PC (8) or a cell (2) answers a value whose bits
outside the field are 0, drawn anew (log 3); every other offset reads as at any time, STATUS with BUSY = 1; an offset of
the grid's range without a cell reads 0, the reading of log 7 (70_reset_and_hazards.md R286). -/
def Obligations.ReadsWhileBusy : Prop :=
  ∀ (s : State) (off : Nat) (rest : List HostEvent), s.status.busy = true → s.inputs = .hostRead 4 off :: rest →
    off % 4 = 0 → off < 0x80000 →
    let isCell := ∃ r c, r < 177 ∧ c < 177 ∧ off = 0x10000 + 4 * (256 * r + c)
    let answers := fun n : Nat => step s = .next { s with inputs := rest, bus := .data (BitVec.ofNat 32 n) }
    let draws := fun w : Nat => ∃ n < 2 ^ w,
      step s = .next { s with inputs := rest, bus := .data (BitVec.ofNat 32 n), draws := s.draws + 1 }
    (0x0040 ≤ off ∧ off ≤ 0x007C → draws 32) ∧ (off = 0x0018 → draws 3) ∧ (0x0030 ≤ off ∧ off ≤ 0x003C → draws 9) ∧
    (0x1000 ≤ off ∧ off < 0x2000 → draws 8) ∧ (isCell → draws 2) ∧
    (off = 0x0000 → answers 0x51474601) ∧ (off = 0x0004 → answers (s.ctrl.ie.toNat + 2 * s.ctrl.eie.toNat)) ∧
    (off = 0x0008 → answers (1 + 2 * s.status.done.toNat + 4 * s.status.err.toNat + 8 * s.status.haz.toNat +
      256 * s.status.ecode.toNat)) ∧
    (off = 0x000C → answers s.cmd.toNat) ∧ (off = 0x0010 → answers s.version.toNat) ∧
    (off = 0x0014 → answers s.ecl.toNat) ∧ (off = 0x001C → answers s.cwlen.toNat) ∧
    (off = 0x0020 → answers (if s.versionLegal then 4 * s.version.toNat + 17 else 0)) ∧
    (0x4000 ≤ off ∧ off < 0x8000 → answers (s.mem.read off).toNat) ∧
    ((0x0024 ≤ off ∧ off < 0x0030) ∨ (0x0080 ≤ off ∧ off < 0x1000) ∨ (0x2000 ≤ off ∧ off < 0x4000) ∨
      (0x8000 ≤ off ∧ ¬ isCell) → answers 0)

/-- While BUSY = 1 a write to CMD or to another writable offset but CTRL and STATUS is discarded and sets HAZ; a write to a
read-only register or an unmapped offset, and as log 7 reads it to an offset of the grid's range without a cell, is ignored
and sets nothing (70_reset_and_hazards.md R285). -/
def Obligations.WritesWhileBusyAreDiscarded : Prop :=
  ∀ (s : State) (off : Nat) (v : Word) (rest : List HostEvent), s.status.busy = true →
    s.inputs = .hostWrite 4 off v :: rest → off % 4 = 0 → off < 0x80000 → off ≠ 0x0004 → off ≠ 0x0008 →
    let discarded := off = 0x000C ∨ (0x0010 ≤ off ∧ off ≤ 0x001C) ∨ (0x0030 ≤ off ∧ off ≤ 0x003C) ∨
      (0x1000 ≤ off ∧ off < 0x2000) ∨ (0x4000 ≤ off ∧ off < 0x8000) ∨
      ∃ r c, r < 177 ∧ c < 177 ∧ off = 0x10000 + 4 * (256 * r + c)
    (discarded → step s = .next { s with
      inputs := rest, bus := .accepted, status := { s.status with haz := true } }) ∧
    (¬ discarded → step s = .next { s with inputs := rest, bus := .accepted })

/-- A write to CMD while BUSY = 0 is accepted, whatever the word: it is latched, DONE, ERR and ECODE are cleared, BUSY is
set, HAZ is kept (60_exceptions.md R258). -/
def Obligations.CommandIsAcceptedWhenIdle : Prop :=
  ∀ (s : State) (w : Word) (rest : List HostEvent), s.status.busy = false → s.inputs = .hostWrite 4 0x000C w :: rest →
    step s = .next { s with
      inputs := rest, bus := .accepted, cmd := w,
      status := { busy := true, done := false, err := false, haz := s.status.haz, ecode := 0 } }

/-- A write to STATUS clears the bits among DONE, ERR and HAZ where it has a 1, and ECODE with ERR, and nothing else, BUSY
or not (10_state.md R23, 70_reset_and_hazards.md R285). -/
def Obligations.StatusWriteClearsWhereItHasOnes : Prop :=
  ∀ (s : State) (v : Word) (rest : List HostEvent), s.inputs = .hostWrite 4 0x0008 v :: rest →
    ∃ t, step s = .next { s with inputs := rest, bus := .accepted, status := t } ∧ t.busy = s.status.busy ∧
      (t.done = if v.getLsbD 1 then false else s.status.done) ∧ (t.err = if v.getLsbD 2 then false else s.status.err) ∧
      (t.haz = if v.getLsbD 3 then false else s.status.haz) ∧ (t.ecode = if v.getLsbD 2 then 0 else s.status.ecode)

/-- Power-on reset, and a write to CTRL with bit 31 = 1, put every register, every array and STATUS at its reset value and
leave no command pending, whatever the engine is doing; a write to CTRL with bit 31 = 0 writes IE and EIE only; that
power-on is an event of the schedule, and that a reset leaves the model's own fields inputs and params, is the model's
choice, log 16 and for params log 4 (10_state.md R22, 70_reset_and_hazards.md R280, R281). -/
def Obligations.ControlWriteResetsOrSetsEnables : Prop :=
  ∀ (s : State) (v : Word) (rest : List HostEvent),
    let isReset := fun t : State => t.ctrl.word = 0 ∧ t.status.word = 0 ∧ t.cmd = 0 ∧ t.version = 0 ∧
      t.ecl = 0 ∧ t.mask = 0 ∧ t.cwlen = 0 ∧ (∀ k : Fin 8, t.res[k] = 0 ∧ t.tscore[k] = 0) ∧
      (∀ p : Fin 4, t.plen[p] = 0) ∧ (∀ a, t.mem.read a = 0) ∧ t.pending = none ∧ t.irq = false ∧
      t.inputs = rest ∧ t.params = s.params
    (s.inputs = .powerOn :: rest → ∃ t, step s = .next t ∧ isReset t) ∧
    (s.inputs = .hostWrite 4 0x0004 v :: rest → v.getLsbD 31 = true → ∃ t, step s = .next t ∧ isReset t) ∧
    (s.inputs = .hostWrite 4 0x0004 v :: rest → v.getLsbD 31 = false → step s = .next { s with
      inputs := rest, bus := .accepted, ctrl := { ie := v.getLsbD 0, eie := v.getLsbD 1 } })

/-- While BUSY = 0 a word written to a writable register, coefficient, codeword byte or cell sets that field to its low bits
and nothing else, a write of code 3 to a cell sets nothing, and a read that follows answers the field's bits, the bits above
0 (10_state.md R25, R26, R33 to R35, 20_memory.md R64, R68). -/
def Obligations.WrittenElementReadsBackItsField : Prop :=
  ∀ (s : State) (off : Nat) (v : Word) (rest : List HostEvent), s.mem.wf = true → s.status.busy = false →
    s.inputs = .hostWrite 4 off v :: rest →
    let leaves := fun u : State => step s = .next { u with inputs := rest, bus := .accepted }
    let stores := fun width : Nat => ∃ m : Memory, leaves { s with mem := m } ∧ m.wf = true ∧
      (m.read off).toNat = v.toNat % 2 ^ width ∧ ∀ a ≠ off, m.read a = s.mem.read a
    (off = 0x0010 → leaves { s with version := BitVec.ofNat 6 v.toNat }) ∧
    (off = 0x0014 → leaves { s with ecl := BitVec.ofNat 2 v.toNat }) ∧
    (off = 0x0018 → leaves { s with mask := BitVec.ofNat 3 v.toNat }) ∧
    (off = 0x001C → leaves { s with cwlen := BitVec.ofNat 13 v.toNat }) ∧
    (∀ p : Fin 4, off = 0x0030 + 4 * p.val → leaves { s with plen := s.plen.set p (BitVec.ofNat 9 v.toNat) }) ∧
    (∀ p i, p < 4 → i < 256 → off = 0x1000 + 0x400 * p + 4 * i → stores 8) ∧
    (∀ i < 4096, off = 0x4000 + 4 * i → stores 8) ∧
    (∀ r c, r < 177 → c < 177 → off = 0x10000 + 4 * (256 * r + c) →
      if v.toNat % 4 = 3 then leaves s else stores 2) ∧
    ∀ width rest', rest = .hostRead 4 off :: rest' →
      ((off = 0x0010 ∧ width = 6) ∨ (off = 0x0014 ∧ width = 2) ∨ (off = 0x0018 ∧ width = 3) ∨
        (off = 0x001C ∧ width = 13) ∨ (∃ p < 4, off = 0x0030 + 4 * p ∧ width = 9) ∨
        (∃ p i, p < 4 ∧ i < 256 ∧ off = 0x1000 + 0x400 * p + 4 * i ∧ width = 8) ∨
        (∃ i < 4096, off = 0x4000 + 4 * i ∧ width = 8) ∨
        (∃ r c, r < 177 ∧ c < 177 ∧ off = 0x10000 + 4 * (256 * r + c) ∧ width = 2 ∧ v.toNat % 4 ≠ 3)) →
      ∃ t, Host.Core.run core 2 s = .next t ∧ t.inputs = rest' ∧
        t.bus = .data (BitVec.ofNat 32 (v.toNat % 2 ^ width))

/-- At an aligned offset of the window that holds no register and no cell, a read answers 0 and a write is ignored; neither
sets a flag, BUSY or not; for the offsets of the grid's range without a cell the flag is log 7's reading (20_memory.md R63,
10_state.md R35). -/
def Obligations.UnmappedOffsetsReadZeroAndIgnoreWrites : Prop :=
  ∀ (s : State) (off : Nat) (v : Word) (rest : List HostEvent), off % 4 = 0 →
    ((0x0024 ≤ off ∧ off < 0x0030) ∨ (0x0080 ≤ off ∧ off < 0x1000) ∨ (0x2000 ≤ off ∧ off < 0x4000) ∨
      (0x8000 ≤ off ∧ off < 0x10000) ∨ (0x50000 ≤ off ∧ off < 0x80000) ∨
      (∃ r c, r < 256 ∧ c < 256 ∧ (177 ≤ r ∨ 177 ≤ c) ∧ off = 0x10000 + 4 * (256 * r + c))) →
    (s.inputs = .hostRead 4 off :: rest → step s = .next { s with inputs := rest, bus := .data 0 }) ∧
    (s.inputs = .hostWrite 4 off v :: rest → step s = .next { s with inputs := rest, bus := .accepted })

/-- What every register and element reads as: ID 0x51474601; CTRL EIE and IE in bits 1 and 0, so SRST 0; STATUS BUSY, DONE,
ERR, HAZ in bits 0..3 and ECODE in bits 15:8; CMD the last accepted word; MODCNT 4 × VERSION + 17 under a legal VERSION, else
0; VERSION, ECL, CWLEN and CW their fields; and, while BUSY = 0, MASK, PLEN, PC, RES, TSCORE and the cells theirs, PLEN[p]
and PC[p] being the length and the coefficients of P[p]; host writes to ID, MODCNT, RES and TSCORE are ignored (10_state.md
R21, R22, R23, R24, R25, R26, R27, R28, R33, R34, R35, 70_reset_and_hazards.md R286). -/
def Obligations.IdStatusAndModcntRead : Prop :=
  ∀ (s : State) (off : Nat) (rest : List HostEvent),
    let answers := fun n : Nat => step s = .next { s with inputs := rest, bus := .data (BitVec.ofNat 32 n) }
    (s.inputs = .hostRead 4 off :: rest →
      (off = 0x0000 → answers 0x51474601) ∧ (off = 0x0004 → answers (s.ctrl.ie.toNat + 2 * s.ctrl.eie.toNat)) ∧
      (off = 0x0008 → answers (s.status.busy.toNat + 2 * s.status.done.toNat + 4 * s.status.err.toNat +
        8 * s.status.haz.toNat + 256 * s.status.ecode.toNat)) ∧
      (off = 0x000C → answers s.cmd.toNat) ∧
      (off = 0x0010 → answers s.version.toNat) ∧ (off = 0x0014 → answers s.ecl.toNat) ∧
      (off = 0x001C → answers s.cwlen.toNat) ∧
      (off = 0x0020 → answers (if s.versionLegal then 4 * s.version.toNat + 17 else 0)) ∧
      (∀ i < 4096, off = 0x4000 + 4 * i → answers (s.mem.read (cwAddr i)).toNat) ∧
      (s.status.busy = false →
        (off = 0x0018 → answers s.mask.toNat) ∧
        (∀ k : Fin 8,
          (off = 0x0040 + 4 * k.val → answers s.res[k].toNat) ∧ (off = 0x0060 + 4 * k.val → answers s.tscore[k].toNat)) ∧
        (∀ z ∈ [(PReg.p0, 0), (PReg.p1, 1), (PReg.p2, 2), (PReg.p3, 3)],
          (off = 0x0030 + 4 * z.2 → answers s.plen[z.1.idx].toNat ∧ (s.poly z.1).length = s.plen[z.1.idx].toNat) ∧
          (∀ i < 256, off = 0x1000 + 0x400 * z.2 + 4 * i → answers (s.mem.read (coefAddr z.1 i)).toNat ∧
            (i < s.plen[z.1.idx].toNat → (s.poly z.1)[i]? = some (s.mem.read (coefAddr z.1 i))))) ∧
        (∀ r c, r < 177 → c < 177 → off = 0x10000 + 4 * (256 * r + c) → answers ((s.mem.cell r c).toNat % 4)))) ∧
    (∀ v, s.inputs = .hostWrite 4 off v :: rest →
      off = 0x0000 ∨ off = 0x0020 ∨ (∃ k < 8, off = 0x0040 + 4 * k ∨ off = 0x0060 + 4 * k) →
      step s = .next { s with inputs := rest, bus := .accepted })

/-- IRQ is (IE ∧ DONE) ∨ (EIE ∧ ERR), in every state; so a command asserts it when IE = 1, and when it ends with an error
and EIE = 1; a host write of 1 to DONE or to ERR deasserts the source it clears, a write of CTRL leaves each source asserting
exactly when its new enable is 1, so at once when an enable is set, and acceptance of a command deasserts both; when no
source asserts, IRQ is deasserted (10_state.md R37, 60_exceptions.md R259). -/
def Obligations.IrqFollowsCompletionAndError : Prop :=
  ∀ (s : State),
    (s.irq = true ↔ (s.ctrl.ie = true ∧ s.status.done = true) ∨ (s.ctrl.eie = true ∧ s.status.err = true)) ∧
    (∀ i t, exec i s = .next t →
      (t.irq = true ↔ s.ctrl.ie = true ∨ (s.ctrl.eie = true ∧ t.status.err = true))) ∧
    (∀ v rest, s.inputs = .hostWrite 4 0x0008 v :: rest → ∃ t, step s = .next t ∧
      (t.irq = true ↔ (s.ctrl.ie = true ∧ s.status.done = true ∧ v.getLsbD 1 = false) ∨
        (s.ctrl.eie = true ∧ s.status.err = true ∧ v.getLsbD 2 = false))) ∧
    (∀ v rest, s.inputs = .hostWrite 4 0x0004 v :: rest → ∃ t, step s = .next t ∧
      (t.irq = true ↔ v.getLsbD 31 = false ∧ ((v.getLsbD 0 = true ∧ s.status.done = true) ∨
        (v.getLsbD 1 = true ∧ s.status.err = true)))) ∧
    (∀ w rest, s.status.busy = false → s.inputs = .hostWrite 4 0x000C w :: rest → ∃ t, step s = .next t ∧ t.irq = false)
end

