-- ==== Sys2Proof/Laws/Memory.lean ====
section
/-! SUPPORT. The laws of the arrays: read after write, what a write and a clear leave alone, and the canonical form. -/

namespace Sys2Proof.Machine.Memory

theorem read_nil (a : Nat) : Memory.read [] a = 0#8 := rfl

theorem read_cons (k : Nat) (v : Byte) (m : Memory) (a : Nat) :
    Memory.read ((k, v) :: m) a = if k = a then v else Memory.read m a := by
  by_cases h : k = a
  · simp [Memory.read, h]
  · have hb : Nat.beq k a = false := by rw [← Bool.not_eq_true, Nat.beq_eq]; exact h
    simp [Memory.read, h, hb]

theorem write_nil (a : Nat) (v : Byte) : Memory.write [] a v = if v = 0#8 then [] else [(a, v)] := by
  have hv : (v == 0#8) = decide (v = 0#8) := rfl
  simp only [Memory.write, hv, Bool.cond_decide]

theorem write_cons (k : Nat) (w : Byte) (m : Memory) (a : Nat) (v : Byte) :
    Memory.write ((k, w) :: m) a v =
      if k < a then (k, w) :: Memory.write m a v
      else if k = a then (if v = 0#8 then m else (a, v) :: m)
      else if v = 0#8 then (k, w) :: m
      else (a, v) :: (k, w) :: m := by
  have hb : Nat.blt k a = decide (k < a) := by
    rw [Bool.eq_iff_iff, Nat.blt_eq, decide_eq_true_eq]
  have he : Nat.beq k a = decide (k = a) := by
    rw [Bool.eq_iff_iff, Nat.beq_eq, decide_eq_true_eq]
  have hv : (v == 0#8) = decide (v = 0#8) := rfl
  simp only [Memory.write, hb, he, hv, Bool.cond_decide]

/-- A write leaves every other offset alone. -/
theorem read_write_other (m : Memory) {a b : Nat} (v : Byte) (h : b ≠ a) :
    (m.write a v).read b = m.read b := by
  induction m with
  | nil => by_cases hv : v = 0#8 <;> simp [write_nil, hv, read_cons, read_nil, Ne.symm h]
  | cons e m ih =>
    obtain ⟨k, w⟩ := e
    rw [write_cons]
    split
    · rw [read_cons, read_cons, ih]
    · split
      · subst_vars
        split <;> simp [read_cons, Ne.symm h]
      · split <;> simp [read_cons, Ne.symm h]

/-- A written byte other than 0 is read back. -/
theorem read_write_nonzero (m : Memory) (a : Nat) {v : Byte} (hv : v ≠ 0#8) : (m.write a v).read a = v := by
  induction m with
  | nil => simp [write_nil, hv, read_cons]
  | cons e m ih =>
    obtain ⟨k, w⟩ := e
    rw [write_cons]
    split
    · rw [read_cons, if_neg (by omega), ih]
    · split <;> simp [read_cons]

/-- An offset below every entry reads 0. -/
theorem read_of_risingFrom {m : Memory} {lo a : Nat} (h : m.risingFrom lo = true) (ha : a < lo) : m.read a = 0#8 := by
  induction m generalizing lo with
  | nil => rfl
  | cons e m ih =>
    obtain ⟨k, w⟩ := e
    simp only [risingFrom, Bool.and_eq_true, decide_eq_true_eq] at h
    rw [read_cons, if_neg (by omega)]
    exact ih h.2 (by omega)

theorem risingFrom_mono {m : Memory} {lo lo' : Nat} (h : m.risingFrom lo = true) (hl : lo' ≤ lo) :
    m.risingFrom lo' = true := by
  cases m with
  | nil => rfl
  | cons e m =>
    obtain ⟨k, w⟩ := e
    simp only [risingFrom, Bool.and_eq_true, decide_eq_true_eq] at h ⊢
    exact ⟨⟨by omega, h.1.2⟩, h.2⟩

/-- On rising arrays a written 0 is read back. -/
theorem read_write_zero {m : Memory} {lo : Nat} (h : m.risingFrom lo = true) (a : Nat) : (m.write a 0#8).read a = 0#8 := by
  induction m generalizing lo with
  | nil => rfl
  | cons e m ih =>
    obtain ⟨k, w⟩ := e
    simp only [risingFrom, Bool.and_eq_true, decide_eq_true_eq] at h
    rw [write_cons]
    split
    · rw [read_cons, if_neg (by omega), ih h.2]
    · split
      · subst_vars
        simpa using read_of_risingFrom h.2 (Nat.lt_succ_self _)
      · rw [if_pos rfl, read_cons, if_neg (by omega)]
        exact read_of_risingFrom h.2 (by omega)

/-- Read after write, on canonical arrays. -/
theorem read_write {m : Memory} (h : m.wf = true) (a b : Nat) (v : Byte) :
    (m.write a v).read b = if b = a then v else m.read b := by
  split
  · subst_vars
    by_cases hv : v = 0#8
    · subst hv; exact read_write_zero h _
    · exact read_write_nonzero m _ hv
  · exact read_write_other m v ‹_›

/-- A colour is never UNSET. -/
theorem colour_ne_unset (d : Bool) : colour d ≠ unset := by cases d <;> decide

/-- Read after a write of a colour, on any arrays. -/
theorem read_write_colour (m : Memory) (a b : Nat) (d : Bool) :
    (m.write a (colour d)).read b = if b = a then colour d else m.read b := by
  split
  · subst_vars; exact read_write_nonzero m _ (colour_ne_unset d)
  · exact read_write_other m _ ‹_›

/-- Clearing: the named offsets read 0, the others as before. -/
theorem read_clear (m : Memory) (p : Nat → Bool) (a : Nat) :
    (m.clear p).read a = if p a = true then 0#8 else m.read a := by
  induction m with
  | nil => simp [clear, read_nil]
  | cons e m ih =>
    obtain ⟨k, w⟩ := e
    unfold clear at ih ⊢
    by_cases hp : p k = true
    · rw [List.filter_cons_of_neg (by simp [hp]), ih, read_cons]
      by_cases hk : k = a
      · subst hk; simp [hp]
      · simp [hk]
    · rw [List.filter_cons_of_pos (by simpa using hp), read_cons, read_cons, ih]
      by_cases hk : k = a
      · subst hk; simp [hp]
      · simp [hk]

theorem risingFrom_write {m : Memory} {lo : Nat} (h : m.risingFrom lo = true) {a : Nat} (ha : lo ≤ a) (v : Byte) :
    (m.write a v).risingFrom lo = true := by
  induction m generalizing lo with
  | nil =>
    by_cases hv : v = 0#8
    · simp [write_nil, hv, risingFrom]
    · simp [write_nil, hv, risingFrom, ha]
  | cons e m ih =>
    obtain ⟨k, w⟩ := e
    have h0 := h
    simp only [risingFrom, Bool.and_eq_true, decide_eq_true_eq] at h
    rw [write_cons]
    split
    · simp only [risingFrom, Bool.and_eq_true, decide_eq_true_eq]
      exact ⟨h.1, ih h.2 (by omega)⟩
    · split
      · subst_vars
        split
        · exact risingFrom_mono h.2 (by omega)
        · simp only [risingFrom, Bool.and_eq_true, decide_eq_true_eq]
          exact ⟨⟨by omega, ‹_›⟩, h.2⟩
      · split
        · exact h0
        · simp only [risingFrom, Bool.and_eq_true, decide_eq_true_eq]
          exact ⟨⟨ha, ‹_›⟩, ⟨by omega, h.1.2⟩, h.2⟩

/-- A write keeps the canonical form. -/
theorem wf_write {m : Memory} (h : m.wf = true) (a : Nat) (v : Byte) : (m.write a v).wf = true :=
  risingFrom_write h (Nat.zero_le a) v

theorem risingFrom_clear {m : Memory} {lo : Nat} (h : m.risingFrom lo = true) (p : Nat → Bool) :
    (m.clear p).risingFrom lo = true := by
  induction m generalizing lo with
  | nil => rfl
  | cons e m ih =>
    obtain ⟨k, w⟩ := e
    simp only [risingFrom, Bool.and_eq_true, decide_eq_true_eq] at h
    unfold clear at ih ⊢
    by_cases hp : p k = true
    · rw [List.filter_cons_of_neg (by simp [hp])]
      exact risingFrom_mono (ih h.2) (by omega)
    · rw [List.filter_cons_of_pos (by simpa using hp)]
      simp only [risingFrom, Bool.and_eq_true, decide_eq_true_eq]
      exact ⟨h.1, ih h.2⟩

/-- Clearing keeps the canonical form. -/
theorem wf_clear {m : Memory} (h : m.wf = true) (p : Nat → Bool) : (m.clear p).wf = true := risingFrom_clear h p

/-- Writing words keeps the canonical form. -/
theorem wf_writeWords {m : Memory} (h : m.wf = true) (a : Nat) (l : List Byte) : (m.writeWords a l).wf = true := by
  induction l generalizing m a with
  | nil => exact h
  | cons v l ih => exact ih (wf_write h a v) (a + 4)

/-- The empty arrays are canonical. -/
theorem wf_nil : Memory.wf [] = true := rfl

/-- Writing words leaves every offset alone that is none of theirs. -/
theorem read_writeWords_other (m : Memory) (a b : Nat) (l : List Byte) (h : ∀ i < l.length, b ≠ a + 4 * i) :
    (m.writeWords a l).read b = m.read b := by
  induction l generalizing m a with
  | nil => rfl
  | cons v l ih =>
    rw [writeWords, ih, read_write_other]
    · simpa using h 0 (by simp)
    · intro i hi
      have := h (i + 1) (by simpa using hi)
      omega

/-- An offset no entry lists reads 0. -/
theorem read_of_absent {m : Memory} {a : Nat} (h : ∀ e ∈ m, e.1 ≠ a) : m.read a = 0#8 := by
  induction m with
  | nil => rfl
  | cons e m ih => rw [read_cons, if_neg (h e (by simp)), ih fun e he => h e (by simp [he])]

theorem key_of_mem_write {m : Memory} {a : Nat} {v : Byte} {e : Host.Cell} (h : e ∈ m.write a v) :
    e ∈ m ∨ e = (a, v) ∧ v ≠ 0#8 := by
  induction m with
  | nil =>
    rw [write_nil] at h
    split at h <;> simp_all
  | cons c m ih =>
    obtain ⟨k, w⟩ := c
    rw [write_cons] at h
    split at h
    · rcases List.mem_cons.mp h with h | h
      · simp [h]
      · rcases ih h with h | h
        · simp [h]
        · exact .inr h
    · split at h
      · split at h
        · simp [h]
        · rcases List.mem_cons.mp h with h | h
          · exact .inr ⟨h, ‹_›⟩
          · simp [h]
      · split at h
        · exact .inl h
        · rcases List.mem_cons.mp h with h | h
          · exact .inr ⟨h, ‹_›⟩
          · exact .inl h

/-- A byte written at an offset no entry lists is read back, whatever it is. -/
theorem read_write_of_absent (m : Memory) {a : Nat} (h : ∀ e ∈ m, e.1 ≠ a) (v : Byte) : (m.write a v).read a = v := by
  by_cases hv : v = 0#8
  · subst hv
    refine read_of_absent fun e he => ?_
    rcases key_of_mem_write he with he | ⟨-, h0⟩
    · exact h e he
    · exact absurd rfl h0
  · exact read_write_nonzero m a hv

/-- Words written over cleared offsets are read back. -/
theorem read_writeWords (m : Memory) (a : Nat) (l : List Byte) (h : ∀ e ∈ m, ∀ i < l.length, e.1 ≠ a + 4 * i)
    (i : Nat) (hi : i < l.length) : (m.writeWords a l).read (a + 4 * i) = l[i] := by
  induction l generalizing m a i with
  | nil => simp at hi
  | cons v l ih =>
    rw [writeWords]
    cases i with
    | zero =>
      rw [read_writeWords_other]
      · simpa using read_write_of_absent m (fun e he => by simpa using h e he 0 (by simp)) v
      · intro j _; omega
    | succ i =>
      have hi' : i < l.length := by simpa using hi
      rw [show a + 4 * (i + 1) = a + 4 + 4 * i by omega, ih]
      · simp
      · intro e he j hj
        rcases key_of_mem_write he with he | ⟨he, -⟩
        · have := h e he (j + 1) (by simpa using hj); omega
        · subst he; dsimp only; omega
      · exact hi'

/-- A property of entries that a written entry has is kept by a write. -/
theorem all_write {m : Memory} {p : Host.Cell → Bool} (h : m.all p = true) {a : Nat} {v : Byte}
    (hv : v ≠ 0#8 → p (a, v) = true) : (m.write a v).all p = true := by
  rw [List.all_eq_true] at h ⊢
  intro e he
  rcases key_of_mem_write he with he | ⟨rfl, h0⟩
  · exact h e he
  · exact hv h0

/-- A property of entries is kept by clearing. -/
theorem all_clear {m : Memory} {p : Host.Cell → Bool} (h : m.all p = true) (q : Nat → Bool) :
    (m.clear q).all p = true := by
  rw [List.all_eq_true] at h ⊢
  intro e he
  exact h e (List.mem_filter.mp he).1

/-- A property of entries is kept by writing words that have it. -/
theorem all_writeWords {m : Memory} {p : Host.Cell → Bool} (h : m.all p = true) (a : Nat) (l : List Byte)
    (hv : ∀ i v, i < l.length → p (a + 4 * i, v) = true) : (m.writeWords a l).all p = true := by
  induction l generalizing m a with
  | nil => exact h
  | cons v l ih =>
    refine ih (all_write h fun _ => by simpa using hv 0 v (by simp)) (a + 4) fun i w hi => ?_
    have := hv (i + 1) w (by simpa using hi)
    rwa [show a + 4 * (i + 1) = a + 4 + 4 * i by omega] at this

end Sys2Proof.Machine.Memory
end

