-- ==== Sys2Proof/Laws/State.lean ====
section
/-! SUPPORT. What each named update does to each field of the state: one lemma a field, true by rfl. -/

namespace Sys2Proof.Machine

variable (s : State)

/-! setPoly -/

@[simp] theorem State.setPoly_ctrl (p : PReg) (l : List Byte) : (s.setPoly p l).ctrl = s.ctrl := rfl
@[simp] theorem State.setPoly_status (p : PReg) (l : List Byte) : (s.setPoly p l).status = s.status := rfl
@[simp] theorem State.setPoly_cmd (p : PReg) (l : List Byte) : (s.setPoly p l).cmd = s.cmd := rfl
@[simp] theorem State.setPoly_version (p : PReg) (l : List Byte) : (s.setPoly p l).version = s.version := rfl
@[simp] theorem State.setPoly_ecl (p : PReg) (l : List Byte) : (s.setPoly p l).ecl = s.ecl := rfl
@[simp] theorem State.setPoly_mask (p : PReg) (l : List Byte) : (s.setPoly p l).mask = s.mask := rfl
@[simp] theorem State.setPoly_cwlen (p : PReg) (l : List Byte) : (s.setPoly p l).cwlen = s.cwlen := rfl
@[simp] theorem State.setPoly_res (p : PReg) (l : List Byte) : (s.setPoly p l).res = s.res := rfl
@[simp] theorem State.setPoly_tscore (p : PReg) (l : List Byte) : (s.setPoly p l).tscore = s.tscore := rfl
@[simp] theorem State.setPoly_plen (p : PReg) (l : List Byte) : (s.setPoly p l).plen = s.plen.set p.idx (BitVec.ofNat 9 l.length) := rfl
@[simp] theorem State.setPoly_mem (p : PReg) (l : List Byte) : (s.setPoly p l).mem = (s.mem.clear (isCoefAddr p)).writeWords (coefAddr p 0) l := rfl
@[simp] theorem State.setPoly_params (p : PReg) (l : List Byte) : (s.setPoly p l).params = s.params := rfl
@[simp] theorem State.setPoly_inputs (p : PReg) (l : List Byte) : (s.setPoly p l).inputs = s.inputs := rfl
@[simp] theorem State.setPoly_bus (p : PReg) (l : List Byte) : (s.setPoly p l).bus = s.bus := rfl
@[simp] theorem State.setPoly_draws (p : PReg) (l : List Byte) : (s.setPoly p l).draws = s.draws := rfl

/-! setRes -/

@[simp] theorem State.setRes_ctrl (k : Fin 8) (v : Nat) : (s.setRes k v).ctrl = s.ctrl := rfl
@[simp] theorem State.setRes_status (k : Fin 8) (v : Nat) : (s.setRes k v).status = s.status := rfl
@[simp] theorem State.setRes_cmd (k : Fin 8) (v : Nat) : (s.setRes k v).cmd = s.cmd := rfl
@[simp] theorem State.setRes_version (k : Fin 8) (v : Nat) : (s.setRes k v).version = s.version := rfl
@[simp] theorem State.setRes_ecl (k : Fin 8) (v : Nat) : (s.setRes k v).ecl = s.ecl := rfl
@[simp] theorem State.setRes_mask (k : Fin 8) (v : Nat) : (s.setRes k v).mask = s.mask := rfl
@[simp] theorem State.setRes_cwlen (k : Fin 8) (v : Nat) : (s.setRes k v).cwlen = s.cwlen := rfl
@[simp] theorem State.setRes_res (k : Fin 8) (v : Nat) : (s.setRes k v).res = s.res.set k (BitVec.ofNat 32 v) := rfl
@[simp] theorem State.setRes_tscore (k : Fin 8) (v : Nat) : (s.setRes k v).tscore = s.tscore := rfl
@[simp] theorem State.setRes_plen (k : Fin 8) (v : Nat) : (s.setRes k v).plen = s.plen := rfl
@[simp] theorem State.setRes_mem (k : Fin 8) (v : Nat) : (s.setRes k v).mem = s.mem := rfl
@[simp] theorem State.setRes_params (k : Fin 8) (v : Nat) : (s.setRes k v).params = s.params := rfl
@[simp] theorem State.setRes_inputs (k : Fin 8) (v : Nat) : (s.setRes k v).inputs = s.inputs := rfl
@[simp] theorem State.setRes_bus (k : Fin 8) (v : Nat) : (s.setRes k v).bus = s.bus := rfl
@[simp] theorem State.setRes_draws (k : Fin 8) (v : Nat) : (s.setRes k v).draws = s.draws := rfl

/-! setMem -/

@[simp] theorem State.setMem_ctrl (m : Memory) : (s.setMem m).ctrl = s.ctrl := rfl
@[simp] theorem State.setMem_status (m : Memory) : (s.setMem m).status = s.status := rfl
@[simp] theorem State.setMem_cmd (m : Memory) : (s.setMem m).cmd = s.cmd := rfl
@[simp] theorem State.setMem_version (m : Memory) : (s.setMem m).version = s.version := rfl
@[simp] theorem State.setMem_ecl (m : Memory) : (s.setMem m).ecl = s.ecl := rfl
@[simp] theorem State.setMem_mask (m : Memory) : (s.setMem m).mask = s.mask := rfl
@[simp] theorem State.setMem_cwlen (m : Memory) : (s.setMem m).cwlen = s.cwlen := rfl
@[simp] theorem State.setMem_res (m : Memory) : (s.setMem m).res = s.res := rfl
@[simp] theorem State.setMem_tscore (m : Memory) : (s.setMem m).tscore = s.tscore := rfl
@[simp] theorem State.setMem_plen (m : Memory) : (s.setMem m).plen = s.plen := rfl
@[simp] theorem State.setMem_mem (m : Memory) : (s.setMem m).mem = m := rfl
@[simp] theorem State.setMem_params (m : Memory) : (s.setMem m).params = s.params := rfl
@[simp] theorem State.setMem_inputs (m : Memory) : (s.setMem m).inputs = s.inputs := rfl
@[simp] theorem State.setMem_bus (m : Memory) : (s.setMem m).bus = s.bus := rfl
@[simp] theorem State.setMem_draws (m : Memory) : (s.setMem m).draws = s.draws := rfl

/-! setMask -/

@[simp] theorem State.setMask_ctrl (m : BitVec 3) : (s.setMask m).ctrl = s.ctrl := rfl
@[simp] theorem State.setMask_status (m : BitVec 3) : (s.setMask m).status = s.status := rfl
@[simp] theorem State.setMask_cmd (m : BitVec 3) : (s.setMask m).cmd = s.cmd := rfl
@[simp] theorem State.setMask_version (m : BitVec 3) : (s.setMask m).version = s.version := rfl
@[simp] theorem State.setMask_ecl (m : BitVec 3) : (s.setMask m).ecl = s.ecl := rfl
@[simp] theorem State.setMask_mask (m : BitVec 3) : (s.setMask m).mask = m := rfl
@[simp] theorem State.setMask_cwlen (m : BitVec 3) : (s.setMask m).cwlen = s.cwlen := rfl
@[simp] theorem State.setMask_res (m : BitVec 3) : (s.setMask m).res = s.res := rfl
@[simp] theorem State.setMask_tscore (m : BitVec 3) : (s.setMask m).tscore = s.tscore := rfl
@[simp] theorem State.setMask_plen (m : BitVec 3) : (s.setMask m).plen = s.plen := rfl
@[simp] theorem State.setMask_mem (m : BitVec 3) : (s.setMask m).mem = s.mem := rfl
@[simp] theorem State.setMask_params (m : BitVec 3) : (s.setMask m).params = s.params := rfl
@[simp] theorem State.setMask_inputs (m : BitVec 3) : (s.setMask m).inputs = s.inputs := rfl
@[simp] theorem State.setMask_bus (m : BitVec 3) : (s.setMask m).bus = s.bus := rfl
@[simp] theorem State.setMask_draws (m : BitVec 3) : (s.setMask m).draws = s.draws := rfl

/-! setTscores -/

@[simp] theorem State.setTscores_ctrl (v : Vector Word 8) : (s.setTscores v).ctrl = s.ctrl := rfl
@[simp] theorem State.setTscores_status (v : Vector Word 8) : (s.setTscores v).status = s.status := rfl
@[simp] theorem State.setTscores_cmd (v : Vector Word 8) : (s.setTscores v).cmd = s.cmd := rfl
@[simp] theorem State.setTscores_version (v : Vector Word 8) : (s.setTscores v).version = s.version := rfl
@[simp] theorem State.setTscores_ecl (v : Vector Word 8) : (s.setTscores v).ecl = s.ecl := rfl
@[simp] theorem State.setTscores_mask (v : Vector Word 8) : (s.setTscores v).mask = s.mask := rfl
@[simp] theorem State.setTscores_cwlen (v : Vector Word 8) : (s.setTscores v).cwlen = s.cwlen := rfl
@[simp] theorem State.setTscores_res (v : Vector Word 8) : (s.setTscores v).res = s.res := rfl
@[simp] theorem State.setTscores_tscore (v : Vector Word 8) : (s.setTscores v).tscore = v := rfl
@[simp] theorem State.setTscores_plen (v : Vector Word 8) : (s.setTscores v).plen = s.plen := rfl
@[simp] theorem State.setTscores_mem (v : Vector Word 8) : (s.setTscores v).mem = s.mem := rfl
@[simp] theorem State.setTscores_params (v : Vector Word 8) : (s.setTscores v).params = s.params := rfl
@[simp] theorem State.setTscores_inputs (v : Vector Word 8) : (s.setTscores v).inputs = s.inputs := rfl
@[simp] theorem State.setTscores_bus (v : Vector Word 8) : (s.setTscores v).bus = s.bus := rfl
@[simp] theorem State.setTscores_draws (v : Vector Word 8) : (s.setTscores v).draws = s.draws := rfl

/-! setMapped -/

@[simp] theorem State.setMapped_ctrl (k k' : Fin 8) (w : Nat) : (s.setMapped k k' w).ctrl = s.ctrl := rfl
@[simp] theorem State.setMapped_status (k k' : Fin 8) (w : Nat) : (s.setMapped k k' w).status = s.status := rfl
@[simp] theorem State.setMapped_cmd (k k' : Fin 8) (w : Nat) : (s.setMapped k k' w).cmd = s.cmd := rfl
@[simp] theorem State.setMapped_version (k k' : Fin 8) (w : Nat) : (s.setMapped k k' w).version = s.version := rfl
@[simp] theorem State.setMapped_ecl (k k' : Fin 8) (w : Nat) : (s.setMapped k k' w).ecl = s.ecl := rfl
@[simp] theorem State.setMapped_mask (k k' : Fin 8) (w : Nat) : (s.setMapped k k' w).mask = s.mask := rfl
@[simp] theorem State.setMapped_cwlen (k k' : Fin 8) (w : Nat) : (s.setMapped k k' w).cwlen = s.cwlen := rfl
@[simp] theorem State.setMapped_res (k k' : Fin 8) (w : Nat) : (s.setMapped k k' w).res = (s.res.set k (BitVec.ofNat 32 w)).set k' (BitVec.ofNat 32 (min w (8 * s.cwlen.toNat))) := rfl
@[simp] theorem State.setMapped_tscore (k k' : Fin 8) (w : Nat) : (s.setMapped k k' w).tscore = s.tscore := rfl
@[simp] theorem State.setMapped_plen (k k' : Fin 8) (w : Nat) : (s.setMapped k k' w).plen = s.plen := rfl
@[simp] theorem State.setMapped_mem (k k' : Fin 8) (w : Nat) : (s.setMapped k k' w).mem = s.mem := rfl
@[simp] theorem State.setMapped_params (k k' : Fin 8) (w : Nat) : (s.setMapped k k' w).params = s.params := rfl
@[simp] theorem State.setMapped_inputs (k k' : Fin 8) (w : Nat) : (s.setMapped k k' w).inputs = s.inputs := rfl
@[simp] theorem State.setMapped_bus (k k' : Fin 8) (w : Nat) : (s.setMapped k k' w).bus = s.bus := rfl
@[simp] theorem State.setMapped_draws (k k' : Fin 8) (w : Nat) : (s.setMapped k k' w).draws = s.draws := rfl

/-! reply -/

@[simp] theorem State.reply_ctrl (r : BusReply) : (s.reply r).ctrl = s.ctrl := rfl
@[simp] theorem State.reply_status (r : BusReply) : (s.reply r).status = s.status := rfl
@[simp] theorem State.reply_cmd (r : BusReply) : (s.reply r).cmd = s.cmd := rfl
@[simp] theorem State.reply_version (r : BusReply) : (s.reply r).version = s.version := rfl
@[simp] theorem State.reply_ecl (r : BusReply) : (s.reply r).ecl = s.ecl := rfl
@[simp] theorem State.reply_mask (r : BusReply) : (s.reply r).mask = s.mask := rfl
@[simp] theorem State.reply_cwlen (r : BusReply) : (s.reply r).cwlen = s.cwlen := rfl
@[simp] theorem State.reply_res (r : BusReply) : (s.reply r).res = s.res := rfl
@[simp] theorem State.reply_tscore (r : BusReply) : (s.reply r).tscore = s.tscore := rfl
@[simp] theorem State.reply_plen (r : BusReply) : (s.reply r).plen = s.plen := rfl
@[simp] theorem State.reply_mem (r : BusReply) : (s.reply r).mem = s.mem := rfl
@[simp] theorem State.reply_params (r : BusReply) : (s.reply r).params = s.params := rfl
@[simp] theorem State.reply_inputs (r : BusReply) : (s.reply r).inputs = s.inputs := rfl
@[simp] theorem State.reply_bus (r : BusReply) : (s.reply r).bus = r := rfl
@[simp] theorem State.reply_draws (r : BusReply) : (s.reply r).draws = s.draws := rfl

/-! accept -/

@[simp] theorem State.accept_ctrl (w : Word) : (s.accept w).ctrl = s.ctrl := rfl
@[simp] theorem State.accept_status (w : Word) : (s.accept w).status = { s.status with busy := true, done := false, err := false, ecode := 0#8 } := rfl
@[simp] theorem State.accept_cmd (w : Word) : (s.accept w).cmd = w := rfl
@[simp] theorem State.accept_version (w : Word) : (s.accept w).version = s.version := rfl
@[simp] theorem State.accept_ecl (w : Word) : (s.accept w).ecl = s.ecl := rfl
@[simp] theorem State.accept_mask (w : Word) : (s.accept w).mask = s.mask := rfl
@[simp] theorem State.accept_cwlen (w : Word) : (s.accept w).cwlen = s.cwlen := rfl
@[simp] theorem State.accept_res (w : Word) : (s.accept w).res = s.res := rfl
@[simp] theorem State.accept_tscore (w : Word) : (s.accept w).tscore = s.tscore := rfl
@[simp] theorem State.accept_plen (w : Word) : (s.accept w).plen = s.plen := rfl
@[simp] theorem State.accept_mem (w : Word) : (s.accept w).mem = s.mem := rfl
@[simp] theorem State.accept_params (w : Word) : (s.accept w).params = s.params := rfl
@[simp] theorem State.accept_inputs (w : Word) : (s.accept w).inputs = s.inputs := rfl
@[simp] theorem State.accept_bus (w : Word) : (s.accept w).bus = s.bus := rfl
@[simp] theorem State.accept_draws (w : Word) : (s.accept w).draws = s.draws := rfl

/-! complete -/

@[simp] theorem State.complete_ctrl : (s.complete).ctrl = s.ctrl := rfl
@[simp] theorem State.complete_status : (s.complete).status = { s.status with busy := false, done := true } := rfl
@[simp] theorem State.complete_cmd : (s.complete).cmd = s.cmd := rfl
@[simp] theorem State.complete_version : (s.complete).version = s.version := rfl
@[simp] theorem State.complete_ecl : (s.complete).ecl = s.ecl := rfl
@[simp] theorem State.complete_mask : (s.complete).mask = s.mask := rfl
@[simp] theorem State.complete_cwlen : (s.complete).cwlen = s.cwlen := rfl
@[simp] theorem State.complete_res : (s.complete).res = s.res := rfl
@[simp] theorem State.complete_tscore : (s.complete).tscore = s.tscore := rfl
@[simp] theorem State.complete_plen : (s.complete).plen = s.plen := rfl
@[simp] theorem State.complete_mem : (s.complete).mem = s.mem := rfl
@[simp] theorem State.complete_params : (s.complete).params = s.params := rfl
@[simp] theorem State.complete_inputs : (s.complete).inputs = s.inputs := rfl
@[simp] theorem State.complete_bus : (s.complete).bus = s.bus := rfl
@[simp] theorem State.complete_draws : (s.complete).draws = s.draws := rfl

/-! raiseError -/

@[simp] theorem State.raiseError_ctrl (e : ErrorCode) : (s.raiseError e).ctrl = s.ctrl := rfl
@[simp] theorem State.raiseError_status (e : ErrorCode) : (s.raiseError e).status = { s.status with busy := false, done := true, err := true, ecode := e.code } := rfl
@[simp] theorem State.raiseError_cmd (e : ErrorCode) : (s.raiseError e).cmd = s.cmd := rfl
@[simp] theorem State.raiseError_version (e : ErrorCode) : (s.raiseError e).version = s.version := rfl
@[simp] theorem State.raiseError_ecl (e : ErrorCode) : (s.raiseError e).ecl = s.ecl := rfl
@[simp] theorem State.raiseError_mask (e : ErrorCode) : (s.raiseError e).mask = s.mask := rfl
@[simp] theorem State.raiseError_cwlen (e : ErrorCode) : (s.raiseError e).cwlen = s.cwlen := rfl
@[simp] theorem State.raiseError_res (e : ErrorCode) : (s.raiseError e).res = s.res := rfl
@[simp] theorem State.raiseError_tscore (e : ErrorCode) : (s.raiseError e).tscore = s.tscore := rfl
@[simp] theorem State.raiseError_plen (e : ErrorCode) : (s.raiseError e).plen = s.plen := rfl
@[simp] theorem State.raiseError_mem (e : ErrorCode) : (s.raiseError e).mem = s.mem := rfl
@[simp] theorem State.raiseError_params (e : ErrorCode) : (s.raiseError e).params = s.params := rfl
@[simp] theorem State.raiseError_inputs (e : ErrorCode) : (s.raiseError e).inputs = s.inputs := rfl
@[simp] theorem State.raiseError_bus (e : ErrorCode) : (s.raiseError e).bus = s.bus := rfl
@[simp] theorem State.raiseError_draws (e : ErrorCode) : (s.raiseError e).draws = s.draws := rfl

/-! flagHazard -/

@[simp] theorem State.flagHazard_ctrl : (s.flagHazard).ctrl = s.ctrl := rfl
@[simp] theorem State.flagHazard_status : (s.flagHazard).status = { s.status with haz := true } := rfl
@[simp] theorem State.flagHazard_cmd : (s.flagHazard).cmd = s.cmd := rfl
@[simp] theorem State.flagHazard_version : (s.flagHazard).version = s.version := rfl
@[simp] theorem State.flagHazard_ecl : (s.flagHazard).ecl = s.ecl := rfl
@[simp] theorem State.flagHazard_mask : (s.flagHazard).mask = s.mask := rfl
@[simp] theorem State.flagHazard_cwlen : (s.flagHazard).cwlen = s.cwlen := rfl
@[simp] theorem State.flagHazard_res : (s.flagHazard).res = s.res := rfl
@[simp] theorem State.flagHazard_tscore : (s.flagHazard).tscore = s.tscore := rfl
@[simp] theorem State.flagHazard_plen : (s.flagHazard).plen = s.plen := rfl
@[simp] theorem State.flagHazard_mem : (s.flagHazard).mem = s.mem := rfl
@[simp] theorem State.flagHazard_params : (s.flagHazard).params = s.params := rfl
@[simp] theorem State.flagHazard_inputs : (s.flagHazard).inputs = s.inputs := rfl
@[simp] theorem State.flagHazard_bus : (s.flagHazard).bus = s.bus := rfl
@[simp] theorem State.flagHazard_draws : (s.flagHazard).draws = s.draws := rfl

/-! acknowledge -/

@[simp] theorem State.acknowledge_ctrl (v : Word) : (s.acknowledge v).ctrl = s.ctrl := rfl
@[simp] theorem State.acknowledge_status (v : Word) : (s.acknowledge v).status = { s.status with
      done := s.status.done && !v[1], err := s.status.err && !v[2], haz := s.status.haz && !v[3],
      ecode := if v[2] then 0#8 else s.status.ecode } := rfl
@[simp] theorem State.acknowledge_cmd (v : Word) : (s.acknowledge v).cmd = s.cmd := rfl
@[simp] theorem State.acknowledge_version (v : Word) : (s.acknowledge v).version = s.version := rfl
@[simp] theorem State.acknowledge_ecl (v : Word) : (s.acknowledge v).ecl = s.ecl := rfl
@[simp] theorem State.acknowledge_mask (v : Word) : (s.acknowledge v).mask = s.mask := rfl
@[simp] theorem State.acknowledge_cwlen (v : Word) : (s.acknowledge v).cwlen = s.cwlen := rfl
@[simp] theorem State.acknowledge_res (v : Word) : (s.acknowledge v).res = s.res := rfl
@[simp] theorem State.acknowledge_tscore (v : Word) : (s.acknowledge v).tscore = s.tscore := rfl
@[simp] theorem State.acknowledge_plen (v : Word) : (s.acknowledge v).plen = s.plen := rfl
@[simp] theorem State.acknowledge_mem (v : Word) : (s.acknowledge v).mem = s.mem := rfl
@[simp] theorem State.acknowledge_params (v : Word) : (s.acknowledge v).params = s.params := rfl
@[simp] theorem State.acknowledge_inputs (v : Word) : (s.acknowledge v).inputs = s.inputs := rfl
@[simp] theorem State.acknowledge_bus (v : Word) : (s.acknowledge v).bus = s.bus := rfl
@[simp] theorem State.acknowledge_draws (v : Word) : (s.acknowledge v).draws = s.draws := rfl

/-! powerOnReset: the engine's fields at reset, the model's own kept. -/

@[simp] theorem State.powerOnReset_ctrl : s.powerOnReset.ctrl = State.reset.ctrl := rfl
@[simp] theorem State.powerOnReset_status : s.powerOnReset.status = State.reset.status := rfl
@[simp] theorem State.powerOnReset_cmd : s.powerOnReset.cmd = State.reset.cmd := rfl
@[simp] theorem State.powerOnReset_version : s.powerOnReset.version = State.reset.version := rfl
@[simp] theorem State.powerOnReset_ecl : s.powerOnReset.ecl = State.reset.ecl := rfl
@[simp] theorem State.powerOnReset_mask : s.powerOnReset.mask = State.reset.mask := rfl
@[simp] theorem State.powerOnReset_cwlen : s.powerOnReset.cwlen = State.reset.cwlen := rfl
@[simp] theorem State.powerOnReset_res : s.powerOnReset.res = State.reset.res := rfl
@[simp] theorem State.powerOnReset_tscore : s.powerOnReset.tscore = State.reset.tscore := rfl
@[simp] theorem State.powerOnReset_plen : s.powerOnReset.plen = State.reset.plen := rfl
@[simp] theorem State.powerOnReset_mem : s.powerOnReset.mem = State.reset.mem := rfl
@[simp] theorem State.powerOnReset_params : s.powerOnReset.params = s.params := rfl
@[simp] theorem State.powerOnReset_inputs : s.powerOnReset.inputs = s.inputs := rfl
@[simp] theorem State.powerOnReset_bus : s.powerOnReset.bus = s.bus := rfl
@[simp] theorem State.powerOnReset_draws : s.powerOnReset.draws = s.draws := rfl

/-! poly depends on the length and the arrays only. -/

theorem State.poly_congr {s t : State} (p : PReg) (hl : t.plen[p.idx] = s.plen[p.idx])
    (hm : ∀ i < s.plen[p.idx].toNat, t.mem.read (coefAddr p i) = s.mem.read (coefAddr p i)) : t.poly p = s.poly p := by
  unfold State.poly
  rw [hl]
  exact List.map_congr_left fun i hi => hm i (List.mem_range.mp hi)

@[simp] theorem State.poly_length (p : PReg) : (s.poly p).length = s.plen[p.idx].toNat := by simp [State.poly]

end Sys2Proof.Machine
end

