-- ==== Sys2Proof/Laws/Ops.lean ====
section
/-! SUPPORT. What the shared operations of a command can do: its operand checks, its completion and its error, and the
addresses of the arrays' elements. -/

namespace Sys2Proof.Machine

/-! Completion and error. -/

@[simp] theorem finish_eq (s : State) : finish s = .next s.complete := rfl

@[simp] theorem raise_eq (s : State) (e : ErrorCode) : raise s e = .next (s.raiseError e) := rfl

theorem State.complete_eq (s : State) : s.complete = { s with status := s.status.completed } := rfl

theorem State.raiseError_eq (s : State) (e : ErrorCode) :
    s.raiseError e = { s with status := s.status.failed e.code } := rfl

/-- Every error code is one of 1..6. -/
theorem ErrorCode.code_range (e : ErrorCode) : e.code ≠ 0#8 ∧ e.code.toNat ≤ 6 := by cases e <;> decide

/-! Operand checks. -/

theorem withOperand_legal {s : State} {p : PReg} (h : s.plen[p.idx].toNat ≤ 256) (k : List Byte → Result) :
    withOperand s p k = k (norm (s.poly p)) := by
  unfold withOperand; exact if_neg (by simpa [Config.maxLen] using h)

theorem withOperand_long {s : State} {p : PReg} (h : s.plen[p.idx].toNat > 256) (k : List Byte → Result) :
    withOperand s p k = .next (s.raiseError .len) := by
  unfold withOperand; exact if_pos (by simpa [Config.maxLen] using h)

theorem withModuleCount_legal {s : State} (h : s.versionLegal) (k : Nat → Result) :
    withModuleCount s k = k s.side := by
  unfold withModuleCount; exact if_neg (by unfold State.versionLegal at h; omega)

theorem withModuleCount_illegal {s : State} (h : ¬ s.versionLegal) (k : Nat → Result) :
    withModuleCount s k = .next (s.raiseError .version) := by
  unfold withModuleCount; exact if_pos (by unfold State.versionLegal at h; omega)

theorem withCodewords_legal {s : State} (h : s.cwlen.toNat ≤ 4096) (k : Result) : withCodewords s k = k := by
  unfold withCodewords; exact if_neg (by simpa [Config.cwSize] using h)

theorem withCodewords_long {s : State} (h : s.cwlen.toNat > 4096) (k : Result) :
    withCodewords s k = .next (s.raiseError .cwlen) := by
  unfold withCodewords; exact if_pos (by simpa [Config.cwSize] using h)

/-- What holds of an error of `s` and of whatever the operand is handed to holds of the whole. -/
theorem withOperand_elim {P : Result → Prop} {s : State} {p : PReg} {k : List Byte → Result}
    (he : ∀ e, P (.next (s.raiseError e))) (hk : s.plen[p.idx].toNat ≤ 256 → P (k (norm (s.poly p)))) :
    P (withOperand s p k) := by
  by_cases h : s.plen[p.idx].toNat ≤ 256
  · rw [withOperand_legal h]; exact hk h
  · rw [withOperand_long (by omega)]; exact he _

theorem withModuleCount_elim {P : Result → Prop} {s : State} {k : Nat → Result}
    (he : ∀ e, P (.next (s.raiseError e))) (hk : s.versionLegal → P (k s.side)) : P (withModuleCount s k) := by
  by_cases h : s.versionLegal
  · rw [withModuleCount_legal h]; exact hk h
  · rw [withModuleCount_illegal h]; exact he _

theorem withCodewords_elim {P : Result → Prop} {s : State} {k : Result}
    (he : ∀ e, P (.next (s.raiseError e))) (hk : s.cwlen.toNat ≤ 4096 → P k) : P (withCodewords s k) := by
  by_cases h : s.cwlen.toNat ≤ 4096
  · rw [withCodewords_legal h]; exact hk h
  · rw [withCodewords_long (by omega)]; exact he _

/-! Addresses. -/

theorem coefAddr_zero_add (p : PReg) (i : Nat) : coefAddr p i = coefAddr p 0 + 4 * i := by unfold coefAddr; omega

/-- The bounds of a register's coefficients. -/
theorem coefAddr_bounds (p : PReg) {i : Nat} (h : i < 256) :
    0x1000 + 0x400 * p.idx.val ≤ coefAddr p i ∧ coefAddr p i < 0x1400 + 0x400 * p.idx.val := by
  unfold coefAddr; omega

theorem coefAddr_lt (p : PReg) {i : Nat} (h : i < 256) : 0x1000 ≤ coefAddr p i ∧ coefAddr p i < 0x2000 := by
  have := coefAddr_bounds p h
  have := p.idx.isLt
  omega

/-- Coefficient offsets are distinct. -/
theorem coefAddr_inj {p q : PReg} {i j : Nat} (hi : i < 256) (hj : j < 256) :
    coefAddr p i = coefAddr q j ↔ p = q ∧ i = j := by
  constructor
  · intro h
    have h1 := coefAddr_bounds p hi
    have h2 := coefAddr_bounds q hj
    have hpq : p.idx = q.idx := Fin.ext (by omega)
    have : p = q := by revert hpq; cases p <;> cases q <;> decide
    subst this
    unfold coefAddr at h
    exact ⟨rfl, by omega⟩
  · rintro ⟨rfl, rfl⟩; rfl

theorem isCoefAddr_iff (p : PReg) (a : Nat) : isCoefAddr p a = true ↔ ∃ i < 256, a = coefAddr p i := by
  simp only [isCoefAddr, Bool.and_eq_true, beq_iff_eq, Nat.ble_eq, Nat.blt_eq, Config.maxLen, coefAddr]
  constructor
  · intro h
    exact ⟨(a - (0x1000 + 0x400 * p.idx.val)) / 4, by omega, by omega⟩
  · rintro ⟨i, hi, rfl⟩
    omega

theorem isCwAddr_iff (a : Nat) : isCwAddr a = true ↔ ∃ i < 4096, a = cwAddr i := by
  simp only [isCwAddr, Bool.and_eq_true, beq_iff_eq, Nat.ble_eq, Nat.blt_eq, Config.cwSize, cwAddr]
  constructor
  · intro h
    exact ⟨(a - 0x4000) / 4, by omega, by omega⟩
  · rintro ⟨i, hi, rfl⟩
    omega

theorem rowOf_cellAddr {r c : Nat} (hc : c < 256) : rowOf (cellAddr r c) = r := by
  unfold rowOf cellAddr; omega

theorem colOf_cellAddr {r c : Nat} (hc : c < 256) : colOf (cellAddr r c) = c := by
  unfold colOf cellAddr; omega

/-- Cell offsets are distinct. -/
theorem cellAddr_inj {r c r' c' : Nat} (hc : c < 256) (hc' : c' < 256) :
    cellAddr r c = cellAddr r' c' ↔ r = r' ∧ c = c' := by
  unfold cellAddr; omega

theorem isCellAddr_iff (a : Nat) : isCellAddr a = true ↔ ∃ r c, r < 177 ∧ c < 177 ∧ a = cellAddr r c := by
  simp only [isCellAddr, isGridAddr, Bool.and_eq_true, beq_iff_eq, Nat.ble_eq, Nat.blt_eq, Config.gridMax]
  constructor
  · rintro ⟨⟨⟨⟨h1, h2⟩, h3⟩, h4⟩, h5⟩
    refine ⟨rowOf a, colOf a, h4, h5, ?_⟩
    unfold rowOf colOf cellAddr at *
    omega
  · rintro ⟨r, c, hr, hc, rfl⟩
    rw [rowOf_cellAddr (by omega), colOf_cellAddr (by omega)]
    unfold cellAddr
    omega

/-- The arrays do not overlap. -/
theorem isCellAddr_false_of_lt {a : Nat} (h : a < 0x10000) : isCellAddr a = false := by
  rw [Bool.eq_false_iff, ne_eq, isCellAddr_iff]
  rintro ⟨r, c, -, -, rfl⟩
  unfold cellAddr at h
  omega

theorem isCoefAddr_false {p : PReg} {a : Nat} (h : a < 0x1000 ∨ 0x2000 ≤ a) : isCoefAddr p a = false := by
  rw [Bool.eq_false_iff, ne_eq, isCoefAddr_iff]
  rintro ⟨i, hi, rfl⟩
  have := coefAddr_lt p hi
  omega

/-! The polynomial result. -/

theorem PReg.idx_inj {p q : PReg} : p.idx = q.idx ↔ p = q := by cases p <;> cases q <;> decide

/-- A written polynomial register holds the polynomial. -/
theorem State.poly_setPoly (s : State) (p : PReg) {l : List Byte} (h : l.length ≤ 256) : (s.setPoly p l).poly p = l := by
  have hl : (s.setPoly p l).plen[p.idx].toNat = l.length := by
    simp only [State.setPoly_plen, Fin.getElem_fin, Vector.getElem_set_self, BitVec.toNat_ofNat]; omega
  apply List.ext_getElem
  · simpa using hl
  · intro i h1 h2
    simp only [State.poly, List.getElem_map, List.getElem_range, State.setPoly_mem]
    rw [coefAddr_zero_add p i, Memory.read_writeWords]
    intro e he j hj hej
    have := (List.mem_filter.mp he).2
    rw [hej, ← coefAddr_zero_add, (isCoefAddr_iff p _).mpr ⟨j, by omega, rfl⟩] at this
    simp at this

/-- The cells beyond a written polynomial are 0. -/
theorem State.read_setPoly_beyond (s : State) (p : PReg) {l : List Byte} {k : Nat} (hk : l.length ≤ k) (h : k < 256) :
    (s.setPoly p l).mem.read (coefAddr p k) = 0#8 := by
  rw [State.setPoly_mem, Memory.read_writeWords_other, Memory.read_clear, if_pos ((isCoefAddr_iff p _).mpr ⟨k, h, rfl⟩)]
  intro i hi
  rw [← coefAddr_zero_add, ne_eq, coefAddr_inj h (by omega)]
  omega

/-- Writing a polynomial register leaves every byte alone that is no coefficient of it. -/
theorem State.read_setPoly_other (s : State) (p : PReg) {l : List Byte} (hl : l.length ≤ 256) {a : Nat}
    (h : ∀ k < 256, a ≠ coefAddr p k) : (s.setPoly p l).mem.read a = s.mem.read a := by
  rw [State.setPoly_mem, Memory.read_writeWords_other, Memory.read_clear, if_neg]
  · rw [isCoefAddr_iff]; rintro ⟨i, hi, rfl⟩; exact h i hi rfl
  · intro i hi
    rw [← coefAddr_zero_add]
    exact h i (by omega)

/-- Writing a polynomial register leaves the other lengths alone. -/
theorem State.plen_setPoly_other (s : State) {p q : PReg} (l : List Byte) (h : q ≠ p) :
    (s.setPoly p l).plen[q.idx] = s.plen[q.idx] := by
  rw [State.setPoly_plen]
  have : p.idx.val ≠ q.idx.val := fun e => h (PReg.idx_inj.mp (Fin.ext e.symm))
  simp [this]

theorem State.plen_setPoly (s : State) (p : PReg) {l : List Byte} (h : l.length ≤ 256) :
    (s.setPoly p l).plen[p.idx].toNat = l.length := by
  simp only [State.setPoly_plen, Fin.getElem_fin, Vector.getElem_set_self, BitVec.toNat_ofNat]; omega

/-! The invariant of the arrays. -/

/-- The byte may be listed at the offset: an element's, and a code of a cell. -/
def entryLegal (e : Host.Cell) : Bool := isElementAddr e.1 && (!isCellAddr e.1 || Nat.ble e.2.toNat 2)

theorem Memory.placed_eq (m : Memory) : m.placed = m.all entryLegal := rfl

theorem entryLegal_cell {r c : Nat} (hr : r < 177) (hc : c < 177) {v : Byte} (hv : v.toNat ≤ 2) :
    entryLegal (cellAddr r c, v) = true := by
  have h : isCellAddr (cellAddr r c) = true := (isCellAddr_iff _).mpr ⟨r, c, hr, hc, rfl⟩
  simp only [entryLegal, isElementAddr, h, Bool.or_true, Bool.true_and, Bool.not_true, Bool.false_or, Nat.ble_eq]
  exact hv

theorem colour_toNat_le (d : Bool) : (colour d).toNat ≤ 2 := by cases d <;> decide

theorem entryLegal_coef (p : PReg) {i : Nat} (h : i < 256) (v : Byte) : entryLegal (coefAddr p i, v) = true := by
  have h1 := coefAddr_lt p h
  have h2 : isCellAddr (coefAddr p i) = false := isCellAddr_false_of_lt (by omega)
  have h3 : coefAddr p i % 4 = 0 := by unfold coefAddr; omega
  simp [entryLegal, isElementAddr, h2, h1, h3, Nat.ble_eq, Nat.blt_eq]

/-- Writing a polynomial register keeps the arrays good. -/
theorem State.setPoly_good (s : State) (p : PReg) {l : List Byte} (hl : l.length ≤ 256)
    (hw : s.mem.wf = true) (hp : s.mem.placed = true) :
    (s.setPoly p l).mem.wf = true ∧ (s.setPoly p l).mem.placed = true := by
  refine ⟨Memory.wf_writeWords (Memory.wf_clear hw _) _ _, ?_⟩
  rw [Memory.placed_eq] at hp ⊢
  refine Memory.all_writeWords (Memory.all_clear hp _) _ _ fun i v hi => ?_
  rw [← coefAddr_zero_add]
  exact entryLegal_coef p (by omega) v

end Sys2Proof.Machine
end

