-- ==== Sys2Proof/Laws/Bus.lean ====
section
/-! SUPPORT. The register window: which accesses are taken, what each range of offsets holds, and what an event's step is. -/

namespace Sys2Proof.Machine

theorem accessLegal_iff (bytes off : Nat) : accessLegal bytes off = true ↔ bytes = 4 ∧ off % 4 = 0 ∧ off < 0x80000 := by
  simp [accessLegal, Nat.blt_eq, Config.windowSize, and_assoc]

/-! Steps. -/

theorem step_hostRead {s : State} {bytes off : Nat} {rest : List HostEvent} (h : s.inputs = .hostRead bytes off :: rest) :
    step s = .next ({ s with inputs := rest }.hostRead bytes off) := by unfold step; rw [h]

theorem step_hostWrite {s : State} {bytes off : Nat} {v : Word} {rest : List HostEvent}
    (h : s.inputs = .hostWrite bytes off v :: rest) :
    step s = .next ({ s with inputs := rest }.hostWrite bytes off v) := by unfold step; rw [h]

theorem step_powerOn {s : State} {rest : List HostEvent} (h : s.inputs = .powerOn :: rest) :
    step s = .next { s with inputs := rest }.powerOnReset := by unfold step; rw [h]

theorem step_engineTurn {s : State} {rest : List HostEvent} (h : s.inputs = .engineTurn :: rest) :
    step s = engineStep { s with inputs := rest } := by unfold step; rw [h]

theorem step_nil {s : State} (h : s.inputs = []) : step s = engineStep s := by unfold step; rw [h]

/-- One step of a run. -/
theorem run_succ (M : Host.Core) (k : Nat) {s t : M.State} (h : M.step s = .next t) :
    Host.Core.run M (k + 1) s = Host.Core.run M k t := by
  simp only [Host.Core.run, h]

theorem run_next {s t : State} (k : Nat) (h : step s = .next t) :
    Host.Core.run core (k + 1) s = Host.Core.run core k t := run_succ core k h

/-! The engine's turn. -/

theorem engineStep_idle {s : State} (h : s.status.busy = false) : engineStep s = .next s := by
  simp [engineStep, State.pending, h]

theorem engineStep_command {s : State} {i : Instr} (h : s.status.busy = true) (hd : decode s.cmd = .command i) :
    engineStep s = exec i s := by simp [engineStep, State.pending, h, hd]

theorem engineStep_illegal {s : State} {why : IllegalReason} (h : s.status.busy = true)
    (hd : decode s.cmd = .illegal why) : engineStep s = .next (s.raiseError .illegal) := by
  simp [engineStep, State.pending, h, hd]

/-! Host accesses. -/

theorem hostRead_legal (s : State) {off : Nat} (h : off % 4 = 0) (h' : off < 0x80000) :
    s.hostRead 4 off = s.hostReadTarget (targetOf off) := by
  unfold State.hostRead; rw [(accessLegal_iff 4 off).mpr ⟨rfl, h, h'⟩]; rfl

theorem hostWrite_legal (s : State) {off : Nat} (v : Word) (h : off % 4 = 0) (h' : off < 0x80000) :
    s.hostWrite 4 off v = (s.hostWriteTarget (targetOf off) v).reply .accepted := by
  unfold State.hostWrite; rw [(accessLegal_iff 4 off).mpr ⟨rfl, h, h'⟩]; rfl

theorem hostRead_refused (s : State) {bytes off : Nat} (h : bytes ≠ 4 ∨ off % 4 ≠ 0 ∨ 0x80000 ≤ off) :
    s.hostRead bytes off = s.reply .busError := by
  unfold State.hostRead; rw [if_neg]; rw [accessLegal_iff]; omega

theorem hostWrite_refused (s : State) {bytes off : Nat} (v : Word) (h : bytes ≠ 4 ∨ off % 4 ≠ 0 ∨ 0x80000 ≤ off) :
    s.hostWrite bytes off v = s.reply .busError := by
  unfold State.hostWrite; rw [if_neg]; rw [accessLegal_iff]; omega

theorem hostReadTarget_plain {s : State} {t : Target} (h : s.status.busy = false ∨ t.engineWritten = none) :
    s.hostReadTarget t = s.reply (.data (s.readTarget t)) := by
  unfold State.hostReadTarget
  rcases h with h | h
  · simp only [h]
  · rw [h]; cases s.status.busy <;> rfl

theorem hostReadTarget_drawn {s : State} {t : Target} {w : Nat} (h : s.status.busy = true)
    (ht : t.engineWritten = some w) :
    s.hostReadTarget t = { s with bus := .data (drawnWord s.draws w), draws := s.draws + 1 } := by
  unfold State.hostReadTarget; simp only [h, ht]

theorem hostWriteTarget_discarded {s : State} {t : Target} (h : s.status.busy = true) (ht : t.guarded = true) (v : Word) :
    s.hostWriteTarget t v = s.flagHazard := by simp [State.hostWriteTarget, h, ht]

theorem hostWriteTarget_performed {s : State} {t : Target} (h : s.status.busy = false ∨ t.guarded = false) (v : Word) :
    s.hostWriteTarget t v = s.writeTarget v t := by
  unfold State.hostWriteTarget; rcases h with h | h <;> simp [h]

/-! The map. -/

theorem targetOf_plen {p : Nat} (h : p < 4) : targetOf (0x0030 + 4 * p) = .plen ⟨p, h⟩ := by
  unfold targetOf
  rw [if_neg (by omega), if_pos (by omega)]
  congr 1
  apply Fin.ext
  simp only [Fin.ofNat]
  omega

theorem targetOf_res {k : Nat} (h : k < 8) : targetOf (0x0040 + 4 * k) = .res ⟨k, h⟩ := by
  unfold targetOf
  rw [if_neg (by omega), if_neg (by omega), if_pos (by omega)]
  congr 1
  apply Fin.ext
  simp only [Fin.ofNat]
  omega

theorem targetOf_tscore {k : Nat} (h : k < 8) : targetOf (0x0060 + 4 * k) = .tscore ⟨k, h⟩ := by
  unfold targetOf
  rw [if_neg (by omega), if_neg (by omega), if_neg (by omega), if_pos (by omega)]
  congr 1
  apply Fin.ext
  simp only [Fin.ofNat]
  omega

theorem targetOf_coef {off : Nat} (h : 0x1000 ≤ off) (h' : off < 0x2000) : targetOf off = .coef off := by
  unfold targetOf
  rw [if_neg (by omega), if_neg (by omega), if_neg (by omega), if_neg (by omega), if_pos ⟨h, h'⟩]

theorem targetOf_of_ge {off : Nat} (h : 0x2000 ≤ off) :
    targetOf off = if isCwAddr off then .cw off else if isCellAddr off then .cell off else .unmapped := by
  unfold targetOf
  rw [if_neg (by omega), if_neg (by omega), if_neg (by omega), if_neg (by omega), if_neg (by omega)]

theorem targetOf_cw {i : Nat} (h : i < 4096) : targetOf (cwAddr i) = .cw (cwAddr i) := by
  rw [targetOf_of_ge (by unfold cwAddr; omega), if_pos ((isCwAddr_iff _).mpr ⟨i, h, rfl⟩)]

theorem targetOf_cell {r c : Nat} (hr : r < 177) (hc : c < 177) : targetOf (cellAddr r c) = .cell (cellAddr r c) := by
  rw [targetOf_of_ge (by unfold cellAddr; omega), if_neg, if_pos ((isCellAddr_iff _).mpr ⟨r, c, hr, hc, rfl⟩)]
  rw [isCwAddr_iff]
  rintro ⟨i, hi, h⟩
  unfold cellAddr cwAddr at h
  omega

/-- A target that names an element's offset names an element's. -/
theorem targetOf_elements (off : Nat) :
    (∀ a, targetOf off = .coef a → a = off ∧ 0x1000 ≤ off ∧ off < 0x2000) ∧
    (∀ a, targetOf off = .cw a → a = off ∧ isCwAddr off = true) ∧
    (∀ a, targetOf off = .cell a → a = off ∧ isCellAddr off = true) := by
  by_cases h : off < 0x2000
  · by_cases h1 : 0x1000 ≤ off
    · simp [targetOf_coef h1 h, h1, h]
    · unfold targetOf
      rw [if_neg (show ¬ (0x1000 ≤ off ∧ off < 0x2000) from fun x => h1 x.1), isCellAddr_false_of_lt (by omega)]
      have : isCwAddr off = false := by
        rw [Bool.eq_false_iff, ne_eq, isCwAddr_iff]; rintro ⟨i, -, rfl⟩; unfold cwAddr at h; omega
      rw [this]
      refine ⟨fun a => ?_, fun a => ?_, fun a => ?_⟩ <;> split_ifs <;> first | (split <;> simp) | simp_all
  · rw [targetOf_of_ge (by omega)]
    split_ifs with h1 h2 <;> simp_all

/-! What the registers read as, as numbers. -/

theorem Ctrl.word_toNat (c : Ctrl) : c.word.toNat = c.ie.toNat + 2 * c.eie.toNat := by
  obtain ⟨a, b⟩ := c
  cases a <;> cases b <;> decide

theorem Status.word_toNat (t : Status) : t.word.toNat =
    t.busy.toNat + 2 * t.done.toNat + 4 * t.err.toNat + 8 * t.haz.toNat + 256 * t.ecode.toNat := by
  obtain ⟨a, b, c, d, e⟩ := t
  unfold Status.word
  revert e
  cases a <;> cases b <;> cases c <;> cases d <;> decide

theorem modcnt_toNat (s : State) :
    (BitVec.ofNat 32 s.modcnt).toNat = if s.versionLegal then 4 * s.version.toNat + 17 else 0 := by
  have := s.version.isLt
  simp only [BitVec.toNat_ofNat, State.modcnt]
  split <;> omega

/-- A read that is not drawn answers the target's word. -/
theorem step_read_plain {s : State} {off : Nat} {rest : List HostEvent} (hi : s.inputs = .hostRead 4 off :: rest)
    (h : off % 4 = 0) (h' : off < 0x80000) {t : Target} (ht : targetOf off = t)
    (he : s.status.busy = false ∨ t.engineWritten = none) {n : Nat} (hn : (s.readTarget t).toNat = n) :
    step s = .next { s with inputs := rest, bus := .data (BitVec.ofNat 32 n) } := by
  have hr : BitVec.ofNat 32 n = ({ s with inputs := rest } : State).readTarget t := by
    subst hn
    rw [BitVec.ofNat_toNat, BitVec.setWidth_eq]
    cases t <;> rfl
  rw [step_hostRead hi, hostRead_legal _ h h', ht, hostReadTarget_plain (s := { s with inputs := rest }) he, hr]
  rfl

/-- A write to the idle engine performs the target's write. -/
theorem step_write_idle {s : State} {off : Nat} {v : Word} {rest : List HostEvent} (hb : s.status.busy = false)
    (hi : s.inputs = .hostWrite 4 off v :: rest) (h : off % 4 = 0) (h' : off < 0x80000) {t : Target}
    (ht : targetOf off = t) :
    step s = .next ((State.writeTarget { s with inputs := rest } v t).reply .accepted) := by
  rw [step_hostWrite hi, hostWrite_legal _ _ h h', ht,
    hostWriteTarget_performed (s := { s with inputs := rest }) (.inl hb)]

/-- A read of engine-written state while BUSY = 1 answers a free value of the field's width. -/
theorem step_read_drawn {s : State} {off : Nat} {rest : List HostEvent} (hb : s.status.busy = true)
    (hi : s.inputs = .hostRead 4 off :: rest) (h : off % 4 = 0) (h' : off < 0x80000) {w : Nat}
    (he : (targetOf off).engineWritten = some w) :
    ∃ n < 2 ^ w,
      step s = .next { s with inputs := rest, bus := .data (BitVec.ofNat 32 n), draws := s.draws + 1 } := by
  rw [step_hostRead hi, hostRead_legal _ h h', hostReadTarget_drawn (s := { s with inputs := rest }) hb he]
  refine ⟨((Config.freeValue s.draws).setWidth w).toNat, BitVec.isLt _, ?_⟩
  congr 3
  apply BitVec.eq_of_toNat_eq
  simp [drawnWord]

/-- The offsets that hold no register and no cell. -/
theorem targetOf_unmapped {off : Nat}
    (h : (0x0024 ≤ off ∧ off < 0x0030) ∨ (0x0080 ≤ off ∧ off < 0x1000) ∨ (0x2000 ≤ off ∧ off < 0x4000) ∨
      (0x8000 ≤ off ∧ off < 0x10000) ∨ (0x50000 ≤ off ∧ off < 0x80000) ∨
      (∃ r c, r < 256 ∧ c < 256 ∧ (177 ≤ r ∨ 177 ≤ c) ∧ off = 0x10000 + 4 * (256 * r + c))) : targetOf off = .unmapped := by
  have h2 : isCwAddr off = false := by
    rw [Bool.eq_false_iff, ne_eq, isCwAddr_iff]; rintro ⟨i, hi, rfl⟩; unfold cwAddr at h; omega
  have h3 : isCellAddr off = false := by
    rw [Bool.eq_false_iff, ne_eq, isCellAddr_iff]; rintro ⟨r, c, hr, hc, rfl⟩
    unfold cellAddr at h
    rcases h with h | h | h | h | h | ⟨r', c', h1, h2, h3, h4⟩ <;> omega
  unfold targetOf
  rw [h2, h3]
  rw [if_neg, if_neg, if_neg, if_neg, if_neg, if_neg, if_neg] <;> first | omega | simp

end Sys2Proof.Machine
end

