-- ==== Sys2Proof/Laws/Decode.lean ====
section
/-! SUPPORT. Words and bytes: the lanes of a word make the word, and the host's table words decode as the word they are. -/

namespace Sys2Proof

theorem wordOfLanes_byteLane (w : Word) :
    wordOfLanes (byteLane w 0) (byteLane w 1) (byteLane w 2) (byteLane w 3) = w := by
  unfold wordOfLanes byteLane
  rw [BitVec.extractLsb'_append_extractLsb'_eq_extractLsb' (by decide),
    BitVec.extractLsb'_append_extractLsb'_eq_extractLsb' (by decide),
    BitVec.extractLsb'_append_extractLsb'_eq_extractLsb' (by decide)]
  exact BitVec.extractLsb'_eq_self

theorem Decoded.toOption_eq_some {d : Decoded} {i : Instr} : d.toOption = some i ↔ d = .command i := by
  cases d <;> simp [Decoded.toOption]

/-- The four bytes of a word decode as the word. -/
theorem decodeBytes_lanes (w : Word) (rest : List Byte) :
    decodeBytes (byteLane w 0 :: byteLane w 1 :: byteLane w 2 :: byteLane w 3 :: rest)
      = (decode w).toOption.map (·, rest) := by
  simp only [decodeBytes]
  rw [wordOfLanes_byteLane]

theorem decode_of_decodeTableWord {nbits w : Nat} {i : Instr} (h : decodeTableWord nbits w = some i) :
    decode (tableWord nbits w) = .command i := by
  unfold decodeTableWord at h
  split at h
  · simp only [decodeBytes_lanes, Option.map_map] at h
    rw [← Decoded.toOption_eq_some, ← h]
    cases (decode (tableWord nbits w)).toOption <;> rfl
  · simp at h

end Sys2Proof
end

