-- ==== Sys2Proof/Laws/Grid.lean ====
section
/-! SUPPORT. What the grid's passes can do to the arrays: one cell written, a list of cells written, and for each pass the
relation Touched or Painted, which the invariant and the frames need. -/

namespace Sys2Proof.Machine

/-! What a pass may change. -/

/-- Only cells of the leading n × n square differ, and a good memory stays good. -/
structure Touched (n : Nat) (m m' : Memory) : Prop where
  outside : ∀ a, (∀ r c, r < n → c < n → a ≠ cellAddr r c) → m'.read a = m.read a
  wf : m.wf = true → m'.wf = true
  placed : m.placed = true → m'.placed = true

/-- As Touched, and every byte that is not 0 stays. -/
structure Painted (n : Nat) (m m' : Memory) : Prop extends Touched n m m' where
  kept : ∀ a, m.read a ≠ 0#8 → m'.read a = m.read a

theorem Touched.refl (n : Nat) (m : Memory) : Touched n m m := ⟨fun _ _ => rfl, id, id⟩

theorem Touched.trans {n : Nat} {m m' m'' : Memory} (h : Touched n m m') (h' : Touched n m' m'') : Touched n m m'' :=
  ⟨fun a ha => (h'.outside a ha).trans (h.outside a ha), h'.wf ∘ h.wf, h'.placed ∘ h.placed⟩

theorem Touched.mono {n n' : Nat} {m m' : Memory} (h : Touched n m m') (hn : n ≤ n') : Touched n' m m' :=
  ⟨fun a ha => h.outside a fun r c hr hc => ha r c (by omega) (by omega), h.wf, h.placed⟩

theorem Painted.refl (n : Nat) (m : Memory) : Painted n m m := ⟨.refl n m, fun _ _ => rfl⟩

theorem Painted.trans {n : Nat} {m m' m'' : Memory} (h : Painted n m m') (h' : Painted n m' m'') : Painted n m m'' :=
  ⟨h.toTouched.trans h'.toTouched, fun a ha => by
    rw [h'.kept a (by rw [h.kept a ha]; exact ha), h.kept a ha]⟩

theorem Touched.foldl {α : Type} {n : Nat} {f : Memory → α → Memory} (l : List α) (m : Memory)
    (h : ∀ x ∈ l, ∀ m, Touched n m (f m x)) : Touched n m (l.foldl f m) := by
  induction l generalizing m with
  | nil => exact .refl n m
  | cons x l ih => exact (h x (by simp) m).trans (ih _ fun y hy => h y (by simp [hy]))

theorem Painted.foldl {α : Type} {n : Nat} {f : Memory → α → Memory} (l : List α) (m : Memory)
    (h : ∀ x ∈ l, ∀ m, Painted n m (f m x)) : Painted n m (l.foldl f m) := by
  induction l generalizing m with
  | nil => exact .refl n m
  | cons x l ih => exact (h x (by simp) m).trans (ih _ fun y hy => h y (by simp [hy]))

/-- Writing one cell of the square. -/
theorem Touched.write {n r c : Nat} (hn : n ≤ 177) (hr : r < n) (hc : c < n) (m : Memory) (d : Bool) :
    Touched n m (m.write (cellAddr r c) (colour d)) where
  outside a ha := Memory.read_write_other m _ (ha r c hr hc)
  wf h := Memory.wf_write h _ _
  placed h := by
    rw [Memory.placed_eq] at h ⊢
    exact Memory.all_write h fun _ => entryLegal_cell (by omega) (by omega) (colour_toNat_le d)

theorem Painted.write {n r c : Nat} (hn : n ≤ 177) (hr : r < n) (hc : c < n) {m : Memory} (h : m.cell r c = unset)
    (d : Bool) : Painted n m (m.write (cellAddr r c) (colour d)) where
  toTouched := Touched.write hn hr hc m d
  kept _ ha := Memory.read_write_other m _ fun e => ha (e ▸ h)

/-! setu and setf. -/

/-- The cell of an in-range request, written when UNSET. -/
theorem setu_nat (n : Nat) (m : Memory) (r c : Nat) (d : Bool) :
    setu n m r c d = if r < n ∧ c < n ∧ m.cell r c = unset then m.write (cellAddr r c) (colour d) else m := by
  simp only [setu, ← Bool.cond_decide]
  congr 1
  rw [Bool.eq_iff_iff]
  simp [Nat.blt_eq, and_assoc]

/-- setu does nothing, or writes one UNSET cell of the symbol. -/
theorem setu_cases (n : Nat) (m : Memory) (r c : Int) (d : Bool) :
    setu n m r c d = m ∨ ∃ r' c' : Nat, r = r' ∧ c = c' ∧ r' < n ∧ c' < n ∧ m.cell r' c' = unset ∧
      setu n m r c d = m.write (cellAddr r' c') (colour d) := by
  rcases r with r | r
  · rcases c with c | c
    · have := setu_nat n m r c d
      by_cases h : r < n ∧ c < n ∧ m.cell r c = unset
      · rw [if_pos h] at this
        exact .inr ⟨r, c, rfl, rfl, h.1, h.2.1, h.2.2, this⟩
      · rw [if_neg h] at this
        exact .inl this
    · exact .inl rfl
  · exact .inl rfl

theorem Painted.setu {n : Nat} (hn : n ≤ 177) (m : Memory) (r c : Int) (d : Bool) : Painted n m (setu n m r c d) := by
  rcases setu_cases n m r c d with h | ⟨r', c', -, -, hr, hc, hu, h⟩
  · rw [h]; exact .refl n m
  · rw [h]; exact .write hn hr hc hu d

theorem Touched.setf {n r c : Nat} (hn : n ≤ 177) (hr : r < n) (hc : c < n) (m : Memory) (d : Bool) :
    Touched n m (setf m r c d) := Touched.write hn hr hc m d

/-- A cell after one setu. -/
theorem cell_setu {n : Nat} (hn : n ≤ 177) (m : Memory) (r c : Int) (d : Bool) {r' c' : Nat} (hr : r' < n) (hc : c' < n) :
    (setu n m r c d).cell r' c' = if r = r' ∧ c = c' ∧ m.cell r' c' = unset then colour d else m.cell r' c' := by
  rcases r with r | r
  · rcases c with c | c
    · have := setu_nat n m r c d
      simp only [Int.ofNat_eq_natCast] at this ⊢
      rw [this]
      by_cases he : r = r' ∧ c = c'
      · obtain ⟨rfl, rfl⟩ := he
        by_cases hu : m.cell r c = unset
        · rw [if_pos ⟨hr, hc, hu⟩, if_pos ⟨rfl, rfl, hu⟩, Memory.cell, Memory.read_write_colour, if_pos rfl]
        · rw [if_neg fun h => hu h.2.2, if_neg fun h => hu h.2.2]
      · rw [if_neg (show ¬ ((r : Int) = r' ∧ (c : Int) = c' ∧ _) from fun h => he ⟨by omega, by omega⟩)]
        split
        · rename_i h
          exact Memory.read_write_other m _ fun e => he (by
            have := (cellAddr_inj (by omega) (by omega)).mp e; exact ⟨this.1.symm, this.2.symm⟩)
        · rfl
    · rw [if_neg]
      · rfl
      · rintro ⟨-, h, -⟩; exact absurd h (by simp)
  · rw [if_neg]
    · rfl
    · rintro ⟨h, -⟩; exact absurd h (by simp)

theorem Ref.stamped_set {old : Byte} (h : old ≠ unset) (new : Option Bool) : Ref.stamped old new = old := by
  unfold Ref.stamped; exact if_pos h

theorem Ref.stamped_unset {old : Byte} (h : old = unset) (dark : Bool) : Ref.stamped old (some dark) = colour dark := by
  unfold Ref.stamped; exact if_neg (not_not.mpr h)

theorem Ref.stamped_none (old : Byte) : Ref.stamped old none = old := by
  by_cases h : old = unset
  · subst h; rfl
  · exact Ref.stamped_set h _

/-- A list of setu requests: the cells a structural pass asks for, in order. -/
def paint (n : Nat) (m : Memory) (l : List ((Int × Int) × Bool)) : Memory :=
  l.foldl (fun m q => setu n m q.1.1 q.1.2 q.2) m

theorem Painted.paint {n : Nat} (hn : n ≤ 177) (m : Memory) (l : List ((Int × Int) × Bool)) : Painted n m (paint n m l) :=
  Painted.foldl l m fun q _ m => .setu hn m q.1.1 q.1.2 q.2

/-- A cell after a list of requests: the first request for it wins, if it was UNSET. -/
theorem cell_paint {n : Nat} (hn : n ≤ 177) (m : Memory) (l : List ((Int × Int) × Bool)) {r c : Nat} (hr : r < n)
    (hc : c < n) :
    (paint n m l).cell r c = Ref.stamped (m.cell r c) ((l.find? fun q => q.1 == ((r : Int), (c : Int))).map (·.2)) := by
  induction l generalizing m with
  | nil => exact (Ref.stamped_none _).symm
  | cons q l ih =>
    show (paint n (Machine.setu n m q.1.1 q.1.2 q.2) l).cell r c = _
    rw [ih, cell_setu hn m _ _ _ hr hc]
    by_cases he : q.1 = ((r : Int), (c : Int))
    · rw [List.find?_cons_of_pos (by simp [he])]
      have h1 : q.1.1 = (r : Int) := by rw [he]
      have h2 : q.1.2 = (c : Int) := by rw [he]
      by_cases hu : m.cell r c = unset
      · rw [if_pos ⟨h1, h2, hu⟩, Ref.stamped_set (Memory.colour_ne_unset _)]
        exact (Ref.stamped_unset hu q.2).symm
      · rw [if_neg fun h => hu h.2.2, Ref.stamped_set hu, Ref.stamped_set hu]
    · rw [List.find?_cons_of_neg (by simpa using he), if_neg]
      rintro ⟨h1, h2, -⟩
      exact he (Prod.ext h1 h2)

/-- A run of requests for one colour of the cell: the find of cell_paint. -/
theorem find_paint {l : List ((Int × Int) × Bool)} {p : Int × Int} {g : Option Bool}
    (h : ∀ d, (p, d) ∈ l → g = some d) (h' : ∀ d, g = some d → (p, d) ∈ l) :
    (l.find? fun q => q.1 == p).map (·.2) = g := by
  cases hf : l.find? (fun q => q.1 == p) with
  | none =>
    rw [List.find?_eq_none] at hf
    cases g with
    | none => rfl
    | some d => exact absurd (by simp) (hf _ (h' d rfl))
  | some q =>
    have h1 := List.mem_of_find?_eq_some hf
    have h2 := List.find?_some hf
    obtain ⟨p', d⟩ := q
    have : p' = p := by simpa using h2
    subst this
    exact (h d h1).symm

/-! The passes. -/

theorem side_le {s : State} (h : s.versionLegal) : s.side ≤ 177 := by
  unfold State.versionLegal at h; unfold State.side; omega

theorem Painted.finderPass {n : Nat} (hn : n ≤ 177) (m : Memory) : Painted n m (finderPass n m) :=
  Painted.foldl _ m fun _ _ m => Painted.foldl _ m fun _ _ m => .setu hn m _ _ _

theorem Painted.alignPass {n : Nat} (hn : n ≤ 177) (v : Nat) (m : Memory) : Painted n m (alignPass n v m) := by
  refine Painted.foldl _ m fun _ _ m => ?_
  unfold alignAt
  split
  · exact .refl n m
  · exact Painted.foldl _ m fun _ _ m => .setu hn m _ _ _

theorem Painted.timingPass {n : Nat} (hn : n ≤ 177) (m : Memory) : Painted n m (timingPass n m) :=
  (Painted.foldl _ m fun r _ m => Painted.setu hn m r 6 _).trans (Painted.foldl _ _ fun c _ m => Painted.setu hn m 6 c _)

/-- The format cells lie in the symbol. -/
theorem formatCell_lt {n : Nat} (hn : 21 ≤ n) {i : Nat} (hi : i < 15) :
    ((formatCellA n i).1 < n ∧ (formatCellA n i).2 < n) ∧ (formatCellB n i).1 < n ∧ (formatCellB n i).2 < n := by
  unfold formatCellA formatCellB
  split_ifs <;> refine ⟨⟨?_, ?_⟩, ?_, ?_⟩ <;> dsimp only <;> omega

theorem Touched.formatPass {n : Nat} (h : 21 ≤ n) (hn : n ≤ 177) (f : Nat) (light : Bool) (m : Memory) :
    Touched n m (formatPass n f light m) := by
  refine Touched.trans (Touched.foldl _ m fun i hi m => ?_) (.setf hn (by omega) (by omega) _ _)
  have hc := formatCell_lt h (List.mem_range.mp hi)
  exact Touched.trans (.setf hn hc.1.1 hc.1.2 _ _) (.setf hn hc.2.1 hc.2.2 _ _)

theorem Painted.versionPassOf {n : Nat} (hn : n ≤ 177) (v : Nat) (light : Bool) (m : Memory) :
    Painted n m (versionPassOf n v light m) := by
  unfold Machine.versionPassOf
  split
  · exact .refl n m
  · refine Painted.foldl _ m fun i _ m => ?_
    unfold versionBit
    exact (Painted.setu hn m _ _ _).trans (Painted.setu hn _ _ _ _)

/-- A strip stays in the symbol. -/
theorem mem_strip {n col : Nat} {up : Bool} {z : Nat × Nat} (h : z ∈ strip n col up) :
    z.1 < n ∧ (z.2 = col ∨ z.2 = col - 1) := by
  simp only [strip, List.mem_flatMap] at h
  obtain ⟨r, hr, hz⟩ := h
  have hr : r < n := by cases up <;> simpa using hr
  simp only [List.mem_cons, List.not_mem_nil, or_false] at hz
  rcases hz with rfl | rfl <;> simp [hr]

theorem mem_stripsFrom {fuel n col : Nat} {up : Bool} {z : Nat × Nat} (h : z ∈ stripsFrom fuel n col up) (hc : col < n) :
    z.1 < n ∧ z.2 < n := by
  induction fuel generalizing col up with
  | zero => simp [stripsFrom] at h
  | succ fuel ih =>
    simp only [stripsFrom] at h
    split at h
    · simp at h
    · rcases List.mem_append.mp h with h | h
      · have := mem_strip h
        split at this <;> omega
      · exact ih h (by split <;> omega)

/-- The scan stays in the symbol. -/
theorem mem_mapOrder {n : Nat} {z : Nat × Nat} (h : z ∈ mapOrder n) : z.1 < n ∧ z.2 < n := by
  rcases n with _ | n
  · simp [mapOrder, stripsFrom] at h
  · exact mem_stripsFrom h (by omega)

theorem Painted.mapCell {n : Nat} (hn : n ≤ 177) (mask : BitVec 3) (cwlen : Nat) (t : Memory × Nat) {z : Nat × Nat}
    (hr : z.1 < n) (hc : z.2 < n) : Painted n t.1 (mapCell mask cwlen t z).1 := by
  unfold Machine.mapCell
  split
  · exact .refl n _
  · rename_i h; exact .write hn hr hc (not_not.mp h) _

theorem Painted.mapPass {n : Nat} (hn : n ≤ 177) (mask : BitVec 3) (cwlen : Nat) (m : Memory) :
    Painted n m (mapPass n mask cwlen m).1 := by
  unfold Machine.mapPass
  have : ∀ (l : List (Nat × Nat)) (t : Memory × Nat), (∀ z ∈ l, z.1 < n ∧ z.2 < n) →
      Painted n t.1 (l.foldl (Machine.mapCell mask cwlen) t).1 := by
    intro l
    induction l with
    | nil => exact fun t _ => .refl n _
    | cons z l ih =>
      intro t h
      have hz := h z (by simp)
      exact (Painted.mapCell hn mask cwlen t hz.1 hz.2).trans (ih _ fun y hy => h y (by simp [hy]))
  exact this _ (m, 0) fun z hz => mem_mapOrder hz

theorem Touched.clearPass (m : Memory) : Touched 177 m (clearPass m) where
  outside a ha := by
    rw [Machine.clearPass, Memory.read_clear, if_neg]
    rw [isCellAddr_iff]
    rintro ⟨r, c, hr, hc, rfl⟩
    exact ha r c hr hc rfl
  wf h := Memory.wf_clear h _
  placed h := Memory.all_clear h _

/-- A cell after the clearing. -/
theorem cell_clearPass (m : Memory) {r c : Nat} (hr : r < 177) (hc : c < 177) : (clearPass m).cell r c = unset := by
  rw [clearPass, Memory.cell, Memory.read_clear, if_pos ((isCellAddr_iff _).mpr ⟨r, c, hr, hc, rfl⟩)]

/-- A build changes cells of the array only, and those outside the symbol it leaves UNSET. -/
theorem Touched.build {s : State} (h : s.versionLegal) (mask : BitVec 3) (light : Bool) :
    Touched 177 s.mem (build s s.side mask light).1 := by
  have hn := side_le h
  have h21 : 21 ≤ s.side := by unfold State.versionLegal at h; unfold State.side; omega
  exact (Touched.clearPass s.mem).trans <| Touched.mono (hn := hn) <|
    (Painted.finderPass hn _).toTouched.trans <| (Painted.alignPass hn _ _).toTouched.trans <|
    (Painted.timingPass hn _).toTouched.trans <| (Touched.formatPass h21 hn _ _ _).trans <|
    (Painted.versionPassOf hn _ _ _).toTouched.trans (Painted.mapPass hn _ _ _).toTouched

end Sys2Proof.Machine
end

