-- ==== Sys2Proof/Laws/Field.lean ====
section
/-! SUPPORT. The two tables are inverse to each other (10_state.md R31), and what follows for ⊗ and ⊘. -/

namespace Sys2Proof.Machine

theorem glog_gexp_fin : ∀ k : Fin 255, glog (gexp k.val) = k.val ∧ gexp k.val ≠ 0#8 := by decide +kernel

theorem gexp_glog_fin : ∀ k : Fin 256, BitVec.ofNat 8 k.val ≠ 0#8 →
    gexp (glog (BitVec.ofNat 8 k.val)) = BitVec.ofNat 8 k.val ∧ glog (BitVec.ofNat 8 k.val) < 255 := by decide +kernel

/-- log[exp[k]] = k below 255. -/
theorem glog_gexp {k : Nat} (h : k < 255) : glog (gexp k) = k := (glog_gexp_fin ⟨k, h⟩).1

theorem gexp_ne_zero {k : Nat} (h : k < 255) : gexp k ≠ 0#8 := (glog_gexp_fin ⟨k, h⟩).2

/-- exp[log[a]] = a for a ≠ 0. -/
theorem gexp_glog {a : Byte} (h : a ≠ 0#8) : gexp (glog a) = a := by
  have := gexp_glog_fin ⟨a.toNat, a.isLt⟩
  simp only [BitVec.ofNat_toNat, BitVec.setWidth_eq] at this
  exact (this h).1

theorem glog_lt {a : Byte} (h : a ≠ 0#8) : glog a < 255 := by
  have := gexp_glog_fin ⟨a.toNat, a.isLt⟩
  simp only [BitVec.ofNat_toNat, BitVec.setWidth_eq] at this
  exact (this h).2

@[simp] theorem gmul_zero (a : Byte) : gmul a 0#8 = 0#8 := by simp [gmul]

@[simp] theorem zero_gmul (a : Byte) : gmul 0#8 a = 0#8 := by simp [gmul]

theorem gmul_of_ne_zero {a b : Byte} (ha : a ≠ 0#8) (hb : b ≠ 0#8) : gmul a b = gexp ((glog a + glog b) % 255) := by
  simp [gmul, ha, hb]

theorem gmul_ne_zero {a b : Byte} (ha : a ≠ 0#8) (hb : b ≠ 0#8) : gmul a b ≠ 0#8 := by
  rw [gmul_of_ne_zero ha hb]; exact gexp_ne_zero (Nat.mod_lt _ (by decide))

theorem gdiv_ne_zero (a b : Byte) : gdiv a b ≠ 0#8 := gexp_ne_zero (Nat.mod_lt _ (by decide))

/-- ⊘ inverts ⊗. -/
theorem gmul_gdiv {a b : Byte} (ha : a ≠ 0#8) (hb : b ≠ 0#8) : gmul b (gdiv a b) = a := by
  rw [gmul_of_ne_zero hb (gdiv_ne_zero a b), gdiv, glog_gexp (Nat.mod_lt _ (by decide))]
  have h1 := glog_lt ha
  have h2 := glog_lt hb
  rw [show (glog b + (glog a + 255 - glog b) % 255) % 255 = glog a by omega, gexp_glog ha]

end Sys2Proof.Machine
end

