-- ==== Sys2Proof/Laws/Poly.lean ====
section
/-! SUPPORT. Polynomials as coefficient lists: normal form, and the lengths of the results, which never exceed MAXLEN. -/

namespace Sys2Proof.Machine

/-! Normal form. -/

theorem norm_length_le (l : List Byte) : (norm l).length ≤ l.length := List.length_dropWhile_le _ l

/-- The first coefficient of a normal form is not 0. -/
theorem norm_head {l l' : List Byte} {x : Byte} (h : norm l = x :: l') : x ≠ 0#8 := by
  induction l with
  | nil => simp [norm] at h
  | cons y l ih =>
    by_cases hy : y = 0#8
    · exact ih (by simpa [norm, hy] using h)
    · simp only [norm, List.dropWhile_cons, beq_iff_eq, hy, if_false] at h
      rw [List.cons.injEq] at h
      exact h.1 ▸ hy

/-- A list is in normal form when its first coefficient is not 0. -/
theorem norm_cons {x : Byte} (h : x ≠ 0#8) (l : List Byte) : norm (x :: l) = x :: l := by
  simp [norm, h]

theorem norm_norm (l : List Byte) : norm (norm l) = norm l := by
  cases h : norm l with
  | nil => rfl
  | cons x l' => exact norm_cons (norm_head h) l'

@[simp] theorem norm_zero_cons (l : List Byte) : norm (0#8 :: l) = norm l := rfl

/-! Sums and products. -/

theorem xorOnto_length (xs ys : List Byte) : (xorOnto xs ys).length = ys.length := by
  induction xs generalizing ys with
  | nil => cases ys <;> rfl
  | cons x xs ih =>
    cases ys with
    | nil => rfl
    | cons y ys => simp [xorOnto, ih]

/-- The product has len(a) + len(b) − 1 coefficients. -/
theorem polyMul_length {a b : List Byte} (ha : a ≠ []) (hb : b ≠ []) : (polyMul a b).length = a.length + b.length - 1 := by
  have hb := List.length_pos_iff.mpr hb
  cases a with
  | nil => exact absurd rfl ha
  | cons x a =>
    clear ha
    induction a generalizing x with
    | nil => simp [polyMul, xorOnto_length, zeros]; omega
    | cons y a ih =>
      have := ih y
      simp only [polyMul, xorOnto_length, List.length_cons] at this ⊢
      omega

theorem genPoly_length (n : Nat) : (genPoly n).length = n + 1 := by
  induction n with
  | zero => rfl
  | succ n ih =>
    rw [genPoly, polyMul_length (by intro h; simp [h] at ih) (by simp), ih]
    simp

/-- The first coefficient of a product is the product of the first coefficients. -/
theorem polyMul_cons (x y : Byte) (a b : List Byte) : ∃ l, polyMul (x :: a) (y :: b) = gmul x y :: l := by
  simp [polyMul, xorOnto]

/-- The generator is monic. -/
theorem genPoly_monic (n : Nat) : ∃ l, genPoly n = 1#8 :: l := by
  induction n with
  | zero => exact ⟨[], rfl⟩
  | succ n ih =>
    obtain ⟨l, h⟩ := ih
    obtain ⟨l', h'⟩ := polyMul_cons 1#8 1#8 l [gexp n]
    exact ⟨l', by rw [genPoly, h, h']; rfl⟩

/-! Division. -/

/-- A pass of long division removes the first coefficient at least. -/
theorem divisionPass_length {x y : Byte} (hx : x ≠ 0#8) (hy : y ≠ 0#8) (r b : List Byte) :
    (divisionPass (x :: r) (y :: b)).length ≤ r.length := by
  have : divisionPass (x :: r) (y :: b) = norm (xorOnto (b.map fun c => gmul c (gdiv x y)) r) := by
    simp [divisionPass, xorOnto, gmul_gdiv hx hy]
  rw [this]
  exact (norm_length_le _).trans (xorOnto_length _ _).le

theorem divisionPass_norm (r b : List Byte) : norm (divisionPass r b) = divisionPass r b := norm_norm _

/-- The loop ends below the divisor's length, for a dividend in normal form and enough passes. -/
theorem polyModLoop_length {y : Byte} (hy : y ≠ 0#8) (b : List Byte) {fuel : Nat} {r : List Byte} (hf : r.length < fuel)
    (hr : norm r = r) : (polyModLoop fuel r (y :: b)).length < (y :: b).length := by
  induction fuel generalizing r with
  | zero => omega
  | succ fuel ih =>
    simp only [polyModLoop]
    split
    · assumption
    · cases r with
      | nil => simp at *
      | cons x r =>
        have := divisionPass_length (norm_head hr) hy r b
        exact ih (by simp only [List.length_cons] at hf; omega) (divisionPass_norm _ _)

/-- The remainder is in normal form when the dividend is. -/
theorem polyModLoop_norm (fuel : Nat) {r b : List Byte} (hr : norm r = r) :
    norm (polyModLoop fuel r b) = polyModLoop fuel r b := by
  induction fuel generalizing r with
  | zero => exact hr
  | succ fuel ih =>
    simp only [polyModLoop]
    split
    · exact hr
    · exact ih (divisionPass_norm _ _)

theorem polyMod_length {a b : List Byte} (ha : norm a = a) (hb : norm b = b) (h0 : b ≠ []) :
    (polyMod a b).length < b.length := by
  cases b with
  | nil => exact absurd rfl h0
  | cons y b => exact polyModLoop_length (norm_head hb) b (Nat.lt_succ_self _) ha

/-- A dividend shorter than the divisor is the remainder. -/
theorem polyMod_short {a b : List Byte} (h : a.length < b.length) : polyMod a b = a := by
  simp [polyMod, polyModLoop, h]

/-- RSENC's result has exactly n coefficients. -/
theorem ecCodewords_length {d : List Byte} (hd : norm d = d) (n : Nat) : (ecCodewords d n).length = n := by
  have hr : (polyMod (d ++ zeros n) (genPoly n)).length ≤ n := by
    cases d with
    | nil =>
      rw [List.nil_append, polyMod_short (by simp [genPoly_length, zeros])]
      simp [zeros]
    | cons x d =>
      obtain ⟨l, hl⟩ := genPoly_monic n
      have := polyMod_length (a := x :: d ++ zeros n) (b := genPoly n) (norm_cons (norm_head hd) _)
        (by rw [hl]; exact norm_cons (by decide) l) (by rw [hl]; simp)
      rw [genPoly_length] at this
      omega
  have hz : ∀ k, (zeros k).length = k := fun k => List.length_replicate
  simp only [ecCodewords, List.length_append, hz]
  omega

end Sys2Proof.Machine
end

