-- ==== Sys2Proof/Laws/Exec.lean ====
section
/-! SUPPORT. What each command does, once: the form of its execution when its operands pass their checks, and the one case
analysis of every command. -/

namespace Sys2Proof.Machine

variable (s : State)

/-! Commands without checks. -/

theorem exec_nop : exec .nop s = .next s.complete := rfl

theorem exec_gfmul (a b : Byte) : exec (.gfmul a b) s = .next (s.setRes 0 (gmul a b).toNat).complete := rfl

theorem exec_gfexp (i : Byte) : exec (.gfexp i) s = .next (s.setRes 0 (gexp (i.toNat % 255)).toNat).complete := rfl

theorem exec_genpoly (pd : PReg) (n : Byte) :
    exec (.genpoly pd n) s = .next (s.setPoly pd (genPoly n.toNat)).complete := rfl

theorem exec_bchf (d : BitVec 5) : exec (.bchf d) s = .next (s.setRes 0 (bchFormat d.toNat)).complete := rfl

theorem exec_bchv (v : BitVec 6) : exec (.bchv v) s = .next (s.setRes 0 (bchVersion v.toNat)).complete := rfl

theorem exec_gclear : exec .gclear s = .next (s.setMem (clearPass s.mem)).complete := rfl

theorem exec_maskfn (m : BitVec 3) (row col : Byte) :
    exec (.maskfn m row col) s = .next (s.setRes 0 (maskbit m row.toNat col.toNat).toNat).complete := rfl

/-! Commands with checks. -/

theorem exec_gflog (a : Byte) :
    exec (.gflog a) s = if a = 0#8 then .next (s.raiseError .log0) else .next (s.setRes 0 (glog a)).complete := rfl

variable {s}

theorem exec_pmul {pd ps pt : PReg} (h : s.plen[ps.idx].toNat ≤ 256) (h' : s.plen[pt.idx].toNat ≤ 256) :
    exec (.pmul pd ps pt) s =
      if (norm (s.poly ps)).length = 0 ∨ (norm (s.poly pt)).length = 0 then .next (s.setPoly pd []).complete
      else if (norm (s.poly ps)).length + (norm (s.poly pt)).length - 1 > 256 then .next (s.raiseError .len)
      else .next (s.setPoly pd (polyMul (norm (s.poly ps)) (norm (s.poly pt)))).complete := by
  show execPmul pd ps pt s = _
  unfold execPmul
  rw [withOperand_legal h, withOperand_legal h']
  rfl

theorem exec_pmod {pd ps pt : PReg} (h : s.plen[ps.idx].toNat ≤ 256) (h' : s.plen[pt.idx].toNat ≤ 256) :
    exec (.pmod pd ps pt) s =
      if (norm (s.poly pt)).length = 0 then .next (s.raiseError .div)
      else .next (s.setPoly pd (polyMod (norm (s.poly ps)) (norm (s.poly pt)))).complete := by
  show execPmod pd ps pt s = _
  unfold execPmod
  rw [withOperand_legal h, withOperand_legal h']
  rfl

theorem exec_rsenc {pd ps : PReg} {n : Byte} (h : s.plen[ps.idx].toNat ≤ 256) :
    exec (.rsenc pd ps n) s =
      if (norm (s.poly ps)).length + n.toNat > 256 then .next (s.raiseError .len)
      else .next (s.setPoly pd (ecCodewords (norm (s.poly ps)) n.toNat)).complete := by
  show execRsenc pd ps n s = _
  unfold execRsenc
  rw [withOperand_legal h]
  rfl

theorem exec_gfinder (h : s.versionLegal) : exec .gfinder s = .next (s.setMem (finderPass s.side s.mem)).complete := by
  show execGfinder s = _
  unfold execGfinder
  rw [withModuleCount_legal h]
  rfl

theorem exec_galign (h : s.versionLegal) :
    exec .galign s = .next (s.setMem (alignPass s.side s.version.toNat s.mem)).complete := by
  show execGalign s = _
  unfold execGalign
  rw [withModuleCount_legal h]
  rfl

theorem exec_gtiming (h : s.versionLegal) : exec .gtiming s = .next (s.setMem (timingPass s.side s.mem)).complete := by
  show execGtiming s = _
  unfold execGtiming
  rw [withModuleCount_legal h]
  rfl

theorem exec_gformat (h : s.versionLegal) :
    exec .gformat s =
      .next (s.setMem (formatPass s.side (bchFormat (formatData s.ecl s.mask)) false s.mem)).complete := by
  show execGformat s = _
  unfold execGformat
  rw [withModuleCount_legal h]
  rfl

theorem exec_gversion (h : s.versionLegal) :
    exec .gversion s = .next (s.setMem (versionPassOf s.side s.version.toNat false s.mem)).complete := by
  show execGversion s = _
  unfold execGversion
  rw [withModuleCount_legal h]
  rfl

theorem exec_gmap (h : s.versionLegal) (h' : s.cwlen.toNat ≤ 4096) :
    exec .gmap s =
      .next ((s.setMem (mapPass s.side s.mask s.cwlen.toNat s.mem).1).setMapped 0 1
        (mapPass s.side s.mask s.cwlen.toNat s.mem).2).complete := by
  show execGmap s = _
  unfold execGmap
  rw [withModuleCount_legal h, withCodewords_legal h']
  rfl

theorem exec_gbuild (h : s.versionLegal) (h' : s.cwlen.toNat ≤ 4096) :
    exec .gbuild s =
      .next ((s.setMem (build s s.side s.mask false).1).setMapped 0 1 (build s s.side s.mask false).2).complete := by
  show execGbuild s = _
  unfold execGbuild
  rw [withModuleCount_legal h, withCodewords_legal h']
  rfl

theorem exec_apos (h : s.versionLegal) (k : Byte) :
    exec (.apos k) s =
      .next ((s.setRes 0 (aposTable s.version.toNat).length).setRes 1
        ((aposTable s.version.toNat).getD k.toNat 0)).complete := by
  show execApos k s = _
  unfold execApos
  rw [withModuleCount_legal h]
  rfl

/-- The state SCORE leaves, of the colours `dark`. -/
def State.scored (s : State) (dark : Nat → Nat → Bool) : State :=
  let n := s.side
  let d := penD s.params.ruleDPercent n (darkCount n dark)
  ((((((s.setRes 0 (penA n dark + penB n dark + penC n dark + d)).setRes 1 (penA n dark)).setRes 2 (penB n dark)).setRes 3
    (penC n dark)).setRes 4 d).setRes 5 (darkCount n dark))

theorem exec_score (h : s.versionLegal) :
    exec .score s = .next (s.scored (darkAt (darkRows s.mem s.side))).complete := by
  show execScore s = _
  unfold execScore
  rw [withModuleCount_legal h]
  rfl

/-- The state BEST leaves, given the scores of the trials. -/
def State.bested (s : State) (scores : List Nat) : State :=
  let win := winnerOf scores
  let t := build s s.side (BitVec.ofNat 3 win) false
  ((((s.setMem t.1).setMask (BitVec.ofNat 3 win)).setTscores (scoreWords scores)).setRes 0 win).setRes 1
    (scores.getD win 0) |>.setMapped 2 3 t.2

theorem exec_best (h : s.versionLegal) (h' : s.cwlen.toNat ≤ 4096) :
    exec .best s = .next (s.bested (trialScores s s.side)).complete := by
  show execBest s = _
  unfold execBest
  rw [withModuleCount_legal h, withCodewords_legal h']
  rfl

/-! Every command at once. -/

/-- What a completion without error leaves, one form a shape of command. -/
inductive Completes (s : State) : State → Prop where
  | same : Completes s s
  | res (v : Nat) : Completes s (s.setRes 0 v)
  | poly (p : PReg) (l : List Byte) (h : l.length ≤ 256) : Completes s (s.setPoly p l)
  | mem (m : Memory) (h : Touched 177 s.mem m) : Completes s (s.setMem m)
  | mapped (m : Memory) (w : Nat) (h : Touched 177 s.mem m) : Completes s ((s.setMem m).setMapped 0 1 w)
  | two (v w : Nat) : Completes s ((s.setRes 0 v).setRes 1 w)
  | scored (dark : Nat → Nat → Bool) : Completes s (s.scored dark)
  | bested (scores : List Nat) (h : s.versionLegal) : Completes s (s.bested scores)

/-- A command ends with an error, or completes in one of the forms. -/
theorem exec_cases (i : Instr) (s : State) :
    (∃ e, exec i s = .next (s.raiseError e)) ∨ ∃ t, Completes s t ∧ exec i s = .next t.complete := by
  let P : Result → Prop := fun o => (∃ e, o = .next (s.raiseError e)) ∨ ∃ t, Completes s t ∧ o = .next t.complete
  have he : ∀ e, P (.next (s.raiseError e)) := fun e => .inl ⟨e, rfl⟩
  have hf : ∀ t, Completes s t → P (finish t) := fun t h => .inr ⟨t, h, rfl⟩
  have hp : ∀ p l, l.length ≤ 256 → P (finishPoly s p l) := fun p l h => hf _ (.poly p l h)
  have hn : s.versionLegal → s.side ≤ 177 := side_le
  show P (exec i s)
  cases i with
  | nop => exact hf _ .same
  | gfmul a b => exact hf _ (.res _)
  | gfexp a => exact hf _ (.res _)
  | gflog a => rw [exec_gflog]; split; exacts [he _, hf _ (.res _)]
  | pmul pd ps pt =>
    show P (execPmul pd ps pt s)
    unfold execPmul
    refine withOperand_elim (P := P) he fun _ => withOperand_elim (P := P) he fun _ => ?_
    split
    · exact hp _ _ (by simp)
    · split
      · exact he _
      · rename_i h1 h2
        simp only [Config.maxLen] at h2
        refine hp _ _ ?_
        rw [polyMul_length (by rintro h; simp [h] at h1) (by rintro h; simp [h] at h1)]
        omega
  | pmod pd ps pt =>
    show P (execPmod pd ps pt s)
    unfold execPmod
    refine withOperand_elim (P := P) he fun _ => withOperand_elim (P := P) he fun h => ?_
    split
    · exact he _
    · have := polyMod_length (norm_norm (s.poly ps)) (norm_norm (s.poly pt)) (by rintro h; simp_all)
      have := norm_length_le (s.poly pt)
      rw [State.poly_length] at this
      exact hp _ _ (by omega)
  | genpoly pd n => exact hp _ _ (by rw [genPoly_length]; exact n.isLt)
  | rsenc pd ps n =>
    show P (execRsenc pd ps n s)
    unfold execRsenc
    refine withOperand_elim (P := P) he fun _ => ?_
    split
    · exact he _
    · exact hp _ _ (by rw [ecCodewords_length (norm_norm _)]; omega)
  | bchf d => exact hf _ (.res _)
  | bchv v => exact hf _ (.res _)
  | gclear => exact hf _ (.mem _ (.clearPass _))
  | gfinder =>
    show P (execGfinder s)
    unfold execGfinder
    exact withModuleCount_elim (P := P) he fun h => hf _ (.mem _ (((Painted.finderPass (hn h) _).toTouched).mono (hn h)))
  | galign =>
    show P (execGalign s)
    unfold execGalign
    exact withModuleCount_elim (P := P) he fun h => hf _ (.mem _ (((Painted.alignPass (hn h) _ _).toTouched).mono (hn h)))
  | gtiming =>
    show P (execGtiming s)
    unfold execGtiming
    exact withModuleCount_elim (P := P) he fun h => hf _ (.mem _ (((Painted.timingPass (hn h) _).toTouched).mono (hn h)))
  | gformat =>
    show P (execGformat s)
    unfold execGformat
    exact withModuleCount_elim (P := P) he fun h => hf _ (.mem _ ((Touched.formatPass (by unfold State.side; have := h.1; omega) (hn h) _ _ _).mono
      (hn h)))
  | gversion =>
    show P (execGversion s)
    unfold execGversion
    exact withModuleCount_elim (P := P) he fun h => hf _ (.mem _ (((Painted.versionPassOf (hn h) _ _ _).toTouched).mono (hn h)))
  | gmap =>
    show P (execGmap s)
    unfold execGmap
    exact withModuleCount_elim (P := P) he fun h => withCodewords_elim (P := P) he fun _ =>
      hf _ (.mapped _ _ ((Painted.mapPass (hn h) _ _ _).toTouched.mono (hn h)))
  | gbuild =>
    show P (execGbuild s)
    unfold execGbuild
    exact withModuleCount_elim (P := P) he fun h => withCodewords_elim (P := P) he fun _ =>
      hf _ (.mapped _ _ (.build h _ _))
  | apos k =>
    show P (execApos k s)
    unfold execApos
    exact withModuleCount_elim (P := P) he fun _ => hf _ (.two _ _)
  | maskfn m row col => exact hf _ (.res _)
  | score =>
    show P (execScore s)
    unfold execScore
    exact withModuleCount_elim (P := P) he fun _ => hf _ (.scored _)
  | best =>
    show P (execBest s)
    unfold execBest
    exact withModuleCount_elim (P := P) he fun h => withCodewords_elim (P := P) he fun _ => hf _ (.bested _ h)

theorem State.scored_mem (s : State) (dark : Nat → Nat → Bool) : (s.scored dark).mem = s.mem := by simp [State.scored]

theorem State.bested_mem (s : State) (scores : List Nat) :
    (s.bested scores).mem = (build s s.side (BitVec.ofNat 3 (winnerOf scores)) false).1 := by
  simp [State.bested, State.setMapped]

/-- No form of completion touches STATUS, the host-written registers or the model's own fields. -/
theorem Completes.same_fields {s t : State} (h : Completes s t) :
    t.ctrl = s.ctrl ∧ t.status = s.status ∧ t.cmd = s.cmd ∧ t.version = s.version ∧ t.ecl = s.ecl ∧ t.cwlen = s.cwlen ∧
      t.params = s.params ∧ t.inputs = s.inputs ∧ t.bus = s.bus ∧ t.draws = s.draws := by
  cases h <;> simp [State.scored, State.bested, State.setMapped]

/-- A completion keeps the arrays good. -/
theorem Completes.good {s t : State} (h : Completes s t) (hw : s.mem.wf = true) (hp : s.mem.placed = true) :
    t.mem.wf = true ∧ t.mem.placed = true := by
  cases h with
  | same => exact ⟨hw, hp⟩
  | res _ => exact ⟨hw, hp⟩
  | poly p l h => exact State.setPoly_good s p h hw hp
  | mem m h => exact ⟨h.wf hw, h.placed hp⟩
  | mapped m w h => exact ⟨h.wf hw, h.placed hp⟩
  | two _ _ => exact ⟨hw, hp⟩
  | scored dark => rw [State.scored_mem]; exact ⟨hw, hp⟩
  | bested scores h => rw [State.bested_mem]; exact ⟨(Touched.build h _ _).wf hw, (Touched.build h _ _).placed hp⟩

end Sys2Proof.Machine
end

