-- ==== Sys2Proof/Laws/Penalty.lean ====
section
/-! SUPPORT. The machine's penalty sums are the counts and sums of 45_mask.md R222 to R226 as Ref states them, one lemma a
rule, and they read only the colours of the n × n cells. -/

namespace Sys2Proof.Machine

theorem sumFrom_eq (lo len : Nat) (f : Nat → Nat) : sumFrom lo len f = ∑ i ∈ Finset.range len, f (lo + i) := by
  unfold sumFrom
  induction len with
  | zero => rfl
  | succ n ih => simp [List.range_succ, Finset.sum_range_succ, ih]

theorem sumFrom_one (n : Nat) (f : Nat → Nat) : sumFrom 1 (n - 2) f = ∑ i ∈ Finset.Icc 1 (n - 2), f i := by
  rw [sumFrom_eq, ← Finset.Ico_add_one_right_eq_Icc, Finset.sum_Ico_eq_sum_range]
  rfl

/-- A double sum of truth values counts the pairs. -/
theorem sumFrom_card (k l : Nat) (p : Nat → Nat → Bool) :
    (sumFrom 0 k fun r => sumFrom 0 l fun c => (p r c).toNat) =
      ((Finset.range k ×ˢ Finset.range l).filter fun z => p z.1 z.2 = true).card := by
  have h (b : Bool) : b.toNat = if b = true then 1 else 0 := by cases b <;> rfl
  simp only [sumFrom_eq, Nat.zero_add, Finset.card_filter, Finset.sum_product, h]

theorem sum_three (a : Nat) (f : Nat → Nat) : ∑ i ∈ Finset.Icc a (a + 2), f i = f a + f (a + 1) + f (a + 2) := by
  rw [← Finset.Ico_add_one_right_eq_Icc, Finset.sum_Ico_eq_sum_range]
  have : a + 2 + 1 - a = 3 := by omega
  rw [this]
  simp [Finset.sum_range_succ]

theorem sameNeighbours_eq (dark : Nat → Nat → Bool) {r c : Nat} (hr : 1 ≤ r) (hc : 1 ≤ c) :
    sameNeighbours dark r c = ((Finset.Icc (r - 1) (r + 1) ×ˢ Finset.Icc (c - 1) (c + 1)).filter fun z =>
      z ≠ (r, c) ∧ dark z.1 z.2 = dark r c).card := by
  obtain ⟨r, rfl⟩ := Nat.exists_eq_add_of_le' hr
  obtain ⟨c, rfl⟩ := Nat.exists_eq_add_of_le' hc
  simp only [Finset.card_filter, Finset.sum_product, Nat.add_sub_cancel, Nat.add_assoc, Nat.reduceAdd, sum_three]
  simp [sameNeighbours, neighbourOffsets, List.countP_cons]
  omega

theorem penA_eq (n : Nat) (dark : Nat → Nat → Bool) : penA n dark = Ref.penaltyA n dark := by
  unfold penA Ref.penaltyA
  rw [sumFrom_one]
  refine Finset.sum_congr rfl fun r hr => ?_
  rw [sumFrom_one]
  refine Finset.sum_congr rfl fun c hc => ?_
  rw [sameNeighbours_eq dark (Finset.mem_Icc.mp hr).1 (Finset.mem_Icc.mp hc).1]

theorem penB_eq (n : Nat) (dark : Nat → Nat → Bool) : penB n dark = Ref.penaltyB n dark := by
  unfold penB Ref.penaltyB
  rw [sumFrom_card]
  simp [and_assoc]

theorem matchesRun_iff (cell : Nat → Bool) : matchesRun cell = true ↔ Ref.finderLike cell := by
  simp only [Ref.finderLike, Nat.forall_lt_succ_right, Nat.not_lt_zero, false_implies, implies_true, true_and]
  simp [matchesRun, runPattern, List.range_succ, and_assoc]

theorem penC_eq (n : Nat) (dark : Nat → Nat → Bool) : penC n dark = Ref.penaltyC n dark := by
  unfold penC Ref.penaltyC
  rw [sumFrom_card, sumFrom_card]
  simp only [matchesRun_iff]
  congr 2
  refine Finset.card_bij' (fun z _ => (z.2, z.1)) (fun z _ => (z.2, z.1)) ?_ ?_ ?_ ?_ <;>
    simp +contextual [Ref.finderLike]

theorem darkCount_eq (n : Nat) (dark : Nat → Nat → Bool) : darkCount n dark = Ref.darkCells n dark := sumFrom_card n n dark

theorem penD_eq (mode : RuleDPercent) (n d : Nat) : penD mode n d = Ref.penaltyD mode n d := by
  have h (a b : Nat) : absDiff a b = ((a : Int) - b).natAbs := by unfold absDiff; omega
  cases mode <;> simp [penD, Ref.penaltyD, h]

theorem symbolScore_eq (mode : RuleDPercent) (n : Nat) (dark : Nat → Nat → Bool) :
    symbolScore mode n dark = Ref.score mode n dark := by
  unfold symbolScore Ref.score
  rw [penA_eq, penB_eq, penC_eq, penD_eq, darkCount_eq]

/-! Only the n × n cells count. -/

theorem darkAt_darkRows (m : Memory) {n r c : Nat} (hr : r < n) (hc : c < n) :
    darkAt (darkRows m n) r c = (m.cell r c == 2#8) := by
  simp [darkAt, darkRows, hr, hc, isDark, colour]

variable {n : Nat} {dark dark' : Nat → Nat → Bool} (h : ∀ r c, r < n → c < n → dark r c = dark' r c)
include h

theorem Ref.penaltyA_congr : Ref.penaltyA n dark = Ref.penaltyA n dark' := by
  unfold Ref.penaltyA
  refine Finset.sum_congr rfl fun r hr => Finset.sum_congr rfl fun c hc => ?_
  simp only [Finset.mem_Icc] at hr hc
  have : (Finset.Icc (r - 1) (r + 1) ×ˢ Finset.Icc (c - 1) (c + 1)).filter (fun z =>
      z ≠ (r, c) ∧ dark z.1 z.2 = dark r c) = (Finset.Icc (r - 1) (r + 1) ×ˢ Finset.Icc (c - 1) (c + 1)).filter
      fun z => z ≠ (r, c) ∧ dark' z.1 z.2 = dark' r c := by
    refine Finset.filter_congr fun z hz => ?_
    simp only [Finset.mem_product, Finset.mem_Icc] at hz
    rw [h z.1 z.2 (by omega) (by omega), h r c (by omega) (by omega)]
  rw [this]

theorem Ref.penaltyB_congr : Ref.penaltyB n dark = Ref.penaltyB n dark' := by
  unfold Ref.penaltyB
  congr 2
  refine Finset.filter_congr fun z hz => ?_
  simp only [Finset.mem_product, Finset.mem_range] at hz
  rw [h _ _ (by omega) (by omega), h (z.1 + 1) _ (by omega) (by omega), h _ (z.2 + 1) (by omega) (by omega),
    h (z.1 + 1) (z.2 + 1) (by omega) (by omega)]

theorem Ref.penaltyC_congr : Ref.penaltyC n dark = Ref.penaltyC n dark' := by
  unfold Ref.penaltyC
  congr 3
  all_goals
    refine Finset.filter_congr fun z hz => ?_
    simp only [Finset.mem_product, Finset.mem_range] at hz
    refine forall₂_congr fun k hk => ?_
    beta_reduce
    rw [h _ _ (by omega) (by omega)]

theorem Ref.darkCells_congr : Ref.darkCells n dark = Ref.darkCells n dark' := by
  unfold Ref.darkCells
  congr 1
  refine Finset.filter_congr fun z hz => ?_
  simp only [Finset.mem_product, Finset.mem_range] at hz
  rw [h _ _ hz.1 hz.2]

theorem Ref.score_congr (mode : RuleDPercent) : Ref.score mode n dark = Ref.score mode n dark' := by
  unfold Ref.score
  rw [Ref.penaltyA_congr h, Ref.penaltyB_congr h, Ref.penaltyC_congr h, Ref.darkCells_congr h]

omit h

theorem memoryScore_eq (mode : RuleDPercent) (n : Nat) (m : Memory) :
    memoryScore mode n m = Ref.score mode n fun r c => m.cell r c == 2#8 :=
  (symbolScore_eq mode n _).trans (Ref.score_congr (fun _ _ hr hc => darkAt_darkRows m hr hc) mode)

end Sys2Proof.Machine
end

