-- ==== Sys2Proof/Laws/PerInstr.lean ====
section
/-! SUPPORT. The family Legal: every command's word passes its own legality test, that is, has its opcode and every fixed bit
of its format (30_encoding.md R94), one lemma a constructor. -/

namespace Sys2Proof.Laws.Legal

/-- The word of a command is legal as that command. -/
def Statement (i : Instr) : Prop := encode i &&& i.format.mask = i.opc ++ 0#24

/-- Fields that each avoid a mask avoid it together. -/
theorem append_avoids {n m : Nat} {x a : BitVec n} {y b : BitVec m} (hx : x &&& a = 0#n) (hy : y &&& b = 0#m) :
    (x ++ y) &&& (a ++ b) = 0#(n + m) := by
  rw [BitVec.and_append, hx, hy]; exact BitVec.zero_append_zero

/-- A command is legal when its operand bits avoid the fixed bits `m` of its format below the opcode. -/
theorem of_operandBits {i : Instr} (m : BitVec 24) (hm : i.format.mask = 0xFF#8 ++ m) (h : i.operandBits &&& m = 0#24) :
    Statement i := by
  rw [Statement, encode, hm, BitVec.and_append, h]
  congr 1
  exact BitVec.and_allOnes

theorem nop : Statement .nop := of_operandBits 0xFFFFFF#24 rfl rfl

theorem gfmul (a b : Byte) : Statement (.gfmul a b) :=
  of_operandBits (0xFF#8 ++ 0#8 ++ 0#8) rfl (append_avoids (append_avoids BitVec.zero_and BitVec.and_zero) BitVec.and_zero)

theorem gfexp (i : Byte) : Statement (.gfexp i) :=
  of_operandBits (0xFFFF#16 ++ 0#8) rfl (append_avoids BitVec.zero_and BitVec.and_zero)

theorem gflog (a : Byte) : Statement (.gflog a) :=
  of_operandBits (0xFFFF#16 ++ 0#8) rfl (append_avoids BitVec.zero_and BitVec.and_zero)

theorem pmul (pd ps pt : PReg) : Statement (.pmul pd ps pt) :=
  of_operandBits (0#2 ++ 0#2 ++ 0#2 ++ 0x3FFFF#18) rfl (append_avoids (append_avoids (append_avoids BitVec.and_zero BitVec.and_zero) BitVec.and_zero) BitVec.zero_and)

theorem pmod (pd ps pt : PReg) : Statement (.pmod pd ps pt) :=
  of_operandBits (0#2 ++ 0#2 ++ 0#2 ++ 0x3FFFF#18) rfl (append_avoids (append_avoids (append_avoids BitVec.and_zero BitVec.and_zero) BitVec.and_zero) BitVec.zero_and)

theorem genpoly (pd : PReg) (n : Byte) : Statement (.genpoly pd n) :=
  of_operandBits (0#2 ++ 0x3FFF#14 ++ 0#8) rfl (append_avoids (append_avoids BitVec.and_zero BitVec.zero_and) BitVec.and_zero)

theorem rsenc (pd ps : PReg) (n : Byte) : Statement (.rsenc pd ps n) :=
  of_operandBits (0#2 ++ 0#2 ++ 0xFFF#12 ++ 0#8) rfl (append_avoids (append_avoids (append_avoids BitVec.and_zero BitVec.and_zero) BitVec.zero_and) BitVec.and_zero)

theorem bchf (d : BitVec 5) : Statement (.bchf d) :=
  of_operandBits (0x7FFFF#19 ++ 0#5) rfl (append_avoids BitVec.zero_and BitVec.and_zero)

theorem bchv (v : BitVec 6) : Statement (.bchv v) :=
  of_operandBits (0x3FFFF#18 ++ 0#6) rfl (append_avoids BitVec.zero_and BitVec.and_zero)

theorem gclear : Statement .gclear := of_operandBits 0xFFFFFF#24 rfl rfl

theorem gfinder : Statement .gfinder := of_operandBits 0xFFFFFF#24 rfl rfl

theorem galign : Statement .galign := of_operandBits 0xFFFFFF#24 rfl rfl

theorem gtiming : Statement .gtiming := of_operandBits 0xFFFFFF#24 rfl rfl

theorem gformat : Statement .gformat := of_operandBits 0xFFFFFF#24 rfl rfl

theorem gversion : Statement .gversion := of_operandBits 0xFFFFFF#24 rfl rfl

theorem gmap : Statement .gmap := of_operandBits 0xFFFFFF#24 rfl rfl

theorem gbuild : Statement .gbuild := of_operandBits 0xFFFFFF#24 rfl rfl

theorem apos (k : Byte) : Statement (.apos k) :=
  of_operandBits (0xFFFF#16 ++ 0#8) rfl (append_avoids BitVec.zero_and BitVec.and_zero)

theorem maskfn (m : BitVec 3) (row col : Byte) : Statement (.maskfn m row col) :=
  of_operandBits (0x1F#5 ++ 0#3 ++ 0#8 ++ 0#8) rfl (append_avoids (append_avoids (append_avoids BitVec.zero_and BitVec.and_zero) BitVec.and_zero) BitVec.and_zero)

theorem score : Statement .score := of_operandBits 0xFFFFFF#24 rfl rfl

theorem best : Statement .best := of_operandBits 0xFFFFFF#24 rfl rfl

end Sys2Proof.Laws.Legal
end

