-- ==== Sys2Proof/Tests/Slice0.lean ====
section
/-! SUPPORT. The model's own tests: what WellFormed refuses, every command's word, single commands on small states, and a
witness for the hypotheses of each statement. Every expected value is written in spec/, in the section named. -/

namespace Sys2Proof.Machine

/-! WellFormed: one ill-formed text for each check. -/

theorem test_wellFormed_accepts :
    (Asm.mk "MASKFN" [.imm 7, .imm 255, .imm 255]).wellFormed = true ∧
    (Asm.mk "RSENC" [.reg 3, .reg 0, .imm 255]).wellFormed = true := by decide

theorem test_wellFormed_unknown_mnemonic : (Asm.mk "GFDIV" [.imm 1, .imm 2]).wellFormed = false := by decide

theorem test_wellFormed_too_few : (Asm.mk "GFMUL" [.imm 1]).wellFormed = false := by decide

theorem test_wellFormed_too_many : (Asm.mk "NOP" [.imm 0]).wellFormed = false := by decide

theorem test_wellFormed_number_for_register : (Asm.mk "GENPOLY" [.imm 2, .imm 7]).wellFormed = false := by decide

theorem test_wellFormed_register_for_number : (Asm.mk "GFEXP" [.reg 0]).wellFormed = false := by decide

theorem test_wellFormed_no_register_four : (Asm.mk "PMUL" [.reg 0, .reg 4, .reg 1]).wellFormed = false := by decide

theorem test_wellFormed_imm8_range : (Asm.mk "GFLOG" [.imm 256]).wellFormed = false := by decide

theorem test_wellFormed_imm6_range : (Asm.mk "BCHV" [.imm 64]).wellFormed = false := by decide

theorem test_wellFormed_imm5_range : (Asm.mk "BCHF" [.imm 32]).wellFormed = false := by decide

theorem test_wellFormed_mask_range : (Asm.mk "MASKFN" [.imm 8, .imm 0, .imm 0]).wellFormed = false := by decide

/-! Decoding: words written out from 30_encoding.md R91 to R93, field by field from bit 31 down. -/

theorem test_decode_field_unit :
    decode (0x00#8 ++ 0#24) = .command .nop ∧
    decode (0x01#8 ++ 0#8 ++ 0x53#8 ++ 0xCA#8) = .command (.gfmul 0x53 0xCA) ∧
    decode (0x02#8 ++ 0#16 ++ 0xFF#8) = .command (.gfexp 255) ∧
    decode (0x03#8 ++ 0#16 ++ 0x8E#8) = .command (.gflog 0x8E) := by decide

theorem test_decode_polynomial_unit :
    decode (0x10#8 ++ 0b10#2 ++ 0b00#2 ++ 0b01#2 ++ 0#18) = .command (.pmul .p2 .p0 .p1) ∧
    decode (0x11#8 ++ 0b11#2 ++ 0b00#2 ++ 0b10#2 ++ 0#18) = .command (.pmod .p3 .p0 .p2) ∧
    decode (0x12#8 ++ 0b10#2 ++ 0#14 ++ 7#8) = .command (.genpoly .p2 7) ∧
    decode (0x18#8 ++ 0b01#2 ++ 0b00#2 ++ 0#12 ++ 7#8) = .command (.rsenc .p1 .p0 7) := by decide

theorem test_decode_bch_unit :
    decode (0x20#8 ++ 0#19 ++ 0b01000#5) = .command (.bchf 8) ∧
    decode (0x21#8 ++ 0#18 ++ 0b000111#6) = .command (.bchv 7) := by decide

theorem test_decode_grid_unit :
    decode (0x30#8 ++ 0#24) = .command .gclear ∧ decode (0x31#8 ++ 0#24) = .command .gfinder ∧
    decode (0x32#8 ++ 0#24) = .command .galign ∧ decode (0x33#8 ++ 0#24) = .command .gtiming ∧
    decode (0x34#8 ++ 0#24) = .command .gformat ∧ decode (0x35#8 ++ 0#24) = .command .gversion ∧
    decode (0x36#8 ++ 0#24) = .command .gmap ∧ decode (0x37#8 ++ 0#24) = .command .gbuild ∧
    decode (0x38#8 ++ 0#16 ++ 2#8) = .command (.apos 2) := by decide

theorem test_decode_mask_unit :
    decode (0x40#8 ++ 0#5 ++ 3#3 ++ 10#8 ++ 4#8) = .command (.maskfn 3 10 4) ∧
    decode (0x41#8 ++ 0#24) = .command .score ∧ decode (0x42#8 ++ 0#24) = .command .best := by decide

/-- The illegal words of 95_test_vectors.md section 2.10. -/
theorem test_decode_illegal :
    decode 0x00000001 = .illegal .reservedBitSet ∧ decode 0x04000000 = .illegal .unknownOpcode ∧
    decode 0xFF000000 = .illegal .unknownOpcode ∧ decode 0x01010000 = .illegal .reservedBitSet ∧
    decode 0x020001FF = .illegal .reservedBitSet ∧ decode 0x20000020 = .illegal .reservedBitSet ∧
    decode 0x21000040 = .illegal .reservedBitSet ∧ decode 0x10010000 = .illegal .reservedBitSet ∧
    decode 0x12100007 = .illegal .reservedBitSet ∧ decode 0x40080000 = .illegal .reservedBitSet ∧
    decode 0x31000001 = .illegal .reservedBitSet := by decide

/-- The host's numbering: the table's word, and one of more bits than a command has. -/
theorem test_decodeTableWord :
    decodeTableWord 32 0x10840000 = some (.pmul .p2 .p0 .p1) ∧ decodeTableWord 32 0x04000000 = none ∧
    decodeTableWord 40 0x0100000000 = none := by decide

/-- Assembler lines of 30_encoding.md R98. -/
theorem test_assembler :
    assembleLine "GFMUL 0x53, 0xCA" = some 0x010053CA ∧ assembleLine "PMOD p3, p0, p2" = some 0x11C80000 ∧
    assembleLine "BCHF 0b01000" = some 0x20000008 ∧ assembleLine "APOS 2" = some 0x38000002 ∧
    assembleLine "BCHV 64" = none := by decide

/-- 30_encoding.md R99: level L with mask 0 is the data 0b01000. -/
theorem test_pseudo_commands :
    Instr.fmtinfo .L 0 = .bchf 8 ∧ Instr.fmtinfo .H 5 = .bchf 21 ∧ Instr.gfsq 3 = .gfmul 3 3 := by decide

/-! Small states. -/

/-- The state a command leaves. -/
def after (i : Instr) (s : State) : State :=
  match exec i s with
  | .next t => t
  | _ => s

/-- A version with a level, a mask and a codeword length. -/
def symbol (v : BitVec 6) (ecl : BitVec 2) (mask : BitVec 3) (cwlen : BitVec 13) : State :=
  { State.reset with version := v, ecl := ecl, mask := mask, cwlen := cwlen }

/-- Two polynomial registers. -/
def polys (a b : List Byte) : State := (State.reset.setPoly .p0 a).setPoly .p1 b

/-- A command pending, and what is still to come. -/
def pendingState (w : Word) (inputs : List HostEvent) : State := { State.reset.accept w with inputs := inputs }

/-! The tables. -/

/-- exp[i + 1] is exp[i] doubled modulo 0x11D, and exp[0] = 1 (10_state.md R30). -/
theorem test_exp_table :
    gexp 0 = 1#8 ∧ ∀ i : Fin 255, (gexp (i.val + 1)).toNat = Ref.double (gexp i.val).toNat := by decide +kernel

/-- The table of 44_grid.md R197 has ⌊v/7⌋ + 2 entries from version 2 on and ends at n − 7. -/
theorem test_apos_table :
    aposTable 1 = [] ∧ ∀ k : Fin 39, (aposTable (k.val + 2)).length = (k.val + 2) / 7 + 2 ∧
      (aposTable (k.val + 2)).getLast? = some (4 * (k.val + 2) + 10) := by decide +kernel

/-! Single commands: 95_test_vectors.md sections 2.1 to 2.10. -/

theorem test_nop : after .nop State.reset = { State.reset with status := { State.reset.status with done := true } } := by
  decide

theorem test_gfmul :
    (after (.gfmul 0x53 0xCA) State.reset).res[0] = 0x8F ∧ (after (.gfmul 0xFF 0xFF) State.reset).res[0] = 0xE2 ∧
    (after (.gfmul 0x00 0x05) State.reset).res[0] = 0 := by decide

theorem test_gfexp :
    (after (.gfexp 8) State.reset).res[0] = 0x1D ∧ (after (.gfexp 254) State.reset).res[0] = 0x8E ∧
    (after (.gfexp 255) State.reset).res[0] = 1 := by decide

theorem test_gflog : (after (.gflog 0x8E) State.reset).res[0] = 254 ∧ (after (.gflog 0x1D) State.reset).res[0] = 8 := by
  decide

theorem test_gflog_zero : (after (.gflog 0) State.reset).status.word = 0x0206 := by decide

theorem test_pmul :
    (after (.pmul .p2 .p0 .p1) (polys [0x53, 0xCA] [0x8E, 0x01, 0x02])).poly .p2 = [0xA7, 0x36, 0x6C, 0x89] ∧
    (after (.pmul .p0 .p0 .p0) (polys [1, 1] [])).poly .p0 = [1, 0, 1] ∧
    (after (.pmul .p1 .p0 .p1) (polys [0, 0, 5] [7])).poly .p1 = [0x1B] := by decide +kernel

theorem test_pmul_long_operand :
    (after (.pmul .p1 .p0 .p0) { State.reset with plen := State.reset.plen.set 0 257 }).status.word = 0x0306 := by decide

theorem test_pmod :
    (after (.pmod .p2 .p0 .p1) (polys [1, 2, 3, 4] [2, 0, 1])).poly .p2 = [0x8D, 0x05] ∧
    (after (.pmod .p3 .p0 .p1) (polys [0x12, 0x34, 0x56, 0, 0, 0] [1, 7, 0x0E, 8])).poly .p3 = [0x81, 0xC3, 0x32] := by
  decide +kernel

theorem test_pmod_zero : (after (.pmod .p2 .p0 .p1) (polys [1, 2] [0, 0])).status.word = 0x0406 := by decide +kernel

theorem test_genpoly :
    (after (.genpoly .p2 7) State.reset).poly .p2 = [0x01, 0x7F, 0x7A, 0x9A, 0xA4, 0x0B, 0x44, 0x75] ∧
    (after (.genpoly .p3 0) State.reset).poly .p3 = [1] := by decide +kernel

/-- HELLO WORLD, version 1, level L; and a result that keeps its leading zero. -/
theorem test_rsenc :
    (after (.rsenc .p1 .p0 7) (polys [0x40, 0xB4, 0x84, 0x54, 0xC4, 0xC4, 0xF2, 0x05, 0x74, 0xF5, 0x24, 0xC4, 0x40, 0xEC,
      0x11, 0xEC, 0x11, 0xEC, 0x11] [])).poly .p1 = [0xC8, 0x46, 0x26, 0x41, 0xE8, 0xF8, 0xF6] ∧
    (after (.rsenc .p1 .p0 2) (polys [0xD3, 0x01] [])).poly .p1 = [0x00, 0xD2] := by decide +kernel

theorem test_bchf :
    (after (.bchf 0) State.reset).res[0] = 0x5412 ∧ (after (.bchf 15) State.reset).res[0] = 0x6976 ∧
    (after (.bchf 31) State.reset).res[0] = 0x2BED ∧ (after (.bchf 21) State.reset).res[0] = 0x0255 := by decide +kernel

theorem test_bchv :
    (after (.bchv 7) State.reset).res[0] = 0x07C94 ∧ (after (.bchv 40) State.reset).res[0] = 0x28C69 ∧
    (after (.bchv 63) State.reset).res[0] = 0x3FB85 := by decide +kernel

theorem test_gclear :
    (after .gclear { State.reset with mem := [(0x4000, 7), (cellAddr 0 0, 1), (cellAddr 176 176, 2)] }).mem = [(0x4000, 7)] :=
  by decide +kernel

/-- A row of cells as a picture: `?` UNSET, `.` LIGHT, `#` DARK. -/
def picture (m : Memory) (r n : Nat) : String :=
  String.ofList ((List.range n).map fun c =>
    match (m.cell r c).toNat with
    | 0 => '?'
    | 1 => '.'
    | _ => '#')

theorem test_gfinder :
    picture (after .gfinder (symbol 1 1 0 0)).mem 0 21 = "#######.?????.#######" ∧
    picture (after .gfinder (symbol 1 1 0 0)).mem 7 21 = "........?????........" ∧
    picture (after .gfinder (symbol 1 1 0 0)).mem 15 21 = "#.....#.?????????????" := by decide +kernel

/-- Version 7's pattern at (22, 22), and its cell (22, 6) from the pattern at (22, 6). -/
theorem test_galign :
    (after .galign (symbol 7 0 0 0)).mem.cell 22 22 = 2 ∧ (after .galign (symbol 7 0 0 0)).mem.cell 20 22 = 2 ∧
    (after .galign (symbol 7 0 0 0)).mem.cell 21 22 = 1 := by decide +kernel

theorem test_gtiming :
    picture (after .gtiming (symbol 1 1 0 0)).mem 6 21 = "????????#.#.#????????" ∧
    (after .gtiming (symbol 1 1 0 0)).mem.cell 9 6 = 1 := by decide +kernel

theorem test_gformat :
    picture (after .gformat (symbol 1 1 0 0)).mem 8 21 = "###.##?##????##...#.." ∧
    (after .gformat (symbol 1 1 0 0)).mem.cell 13 8 = 2 := by decide +kernel

theorem test_gversion :
    (after .gversion (symbol 7 0 0 0)).mem.cell 0 34 = 1 ∧ (after .gversion (symbol 7 0 0 0)).mem.cell 36 0 = 2 ∧
    (after .gversion (symbol 7 0 0 0)).mem.cell 5 36 = 1 ∧ (after .gversion (symbol 6 0 0 0)).mem = [] := by decide +kernel

/-- The order of the scan (44_grid.md R191). -/
theorem test_map_order :
    (mapOrder 21).take 6 = [(20, 20), (20, 19), (19, 20), (19, 19), (18, 20), (18, 19)] ∧ (mapOrder 21).length = 420 := by
  decide +kernel

/-- One cell of the scan: stream bit 0 of the byte 0x80, masked at (44, 44) and (44, 43) by mask 0 (R192, R193). -/
theorem test_map_cell :
    mapCell 0 1 ([(cwAddr 0, 0x80)], 0) (44, 44) = ([(cwAddr 0, 0x80), (cellAddr 44 44, 1)], 1) ∧
    mapCell 0 1 ([(cwAddr 0, 0x80)], 1) (44, 43) = ([(cwAddr 0, 0x80), (cellAddr 44 43, 1)], 2) := by decide +kernel

theorem test_gmap_version_first : (after .gmap (symbol 0 0 0 4097)).status.word = 0x0506 := by decide

theorem test_gbuild_long_stream : (after .gbuild (symbol 1 0 0 4097)).status.word = 0x0606 := by decide

theorem test_apos :
    (after (.apos 1) (symbol 2 0 0 0)).res[0] = 2 ∧ (after (.apos 1) (symbol 2 0 0 0)).res[1] = 18 ∧
    (after (.apos 3) (symbol 7 0 0 0)).res[0] = 3 ∧ (after (.apos 3) (symbol 7 0 0 0)).res[1] = 0 := by decide

theorem test_apos_ends :
    (after (.apos 6) (symbol 40 0 0 0)).res[1] = 170 ∧ (after (.apos 0) (symbol 1 0 0 0)).res[0] = 0 := by decide

/-- MASKFN at row 10, columns 4 to 7, for masks 0 to 7 (section 2.9). -/
theorem test_maskfn :
    ([0, 1, 2, 3, 4, 5, 6, 7].map fun m => [4, 5, 6, 7].map fun c => maskbit m 10 c) =
      [[true, false, true, false], [true, true, true, true], [false, false, true, false], [false, true, false, false],
       [true, true, false, false], [false, false, true, false], [false, true, true, false], [false, false, true, true]] ∧
    (after (.maskfn 2 255 255) State.reset).res[0] = 1 := by decide +kernel

/-- All UNSET scores 3466 = 2166 + 1200 + 0 + 100 (section 2.9). -/
theorem test_score :
    (after .score (symbol 1 0 0 0)).res.toList.take 6 = [3466, 2166, 1200, 0, 100, 0] := by decide +kernel

theorem test_score_illegal_version : (after .score (symbol 41 0 0 0)).status.word = 0x0506 := by decide

/-- Rule (d) at n = 21 (section 2.9). -/
theorem test_rule_d :
    penD .exact 21 200 = 0 ∧ penD .truncated 21 200 = 10 ∧ penD .exact 21 198 = 10 ∧ penD .exact 21 177 = 10 ∧
    penD .truncated 21 177 = 20 ∧ penD .exact 21 441 = 100 := by decide

/-- The first minimum wins: the trial scores of section 2.7, its tie, and its `trialMetaLight` variant. -/
theorem test_winner :
    winnerOf [1104, 1247, 1205, 1201, 1102, 1189, 1164, 1076] = 7 ∧
    winnerOf [824, 824, 1032, 925, 991, 999, 1229, 1090] = 0 ∧
    winnerOf [1222, 1380, 1259, 1149, 1189, 1263, 1291, 1230] = 3 := by decide

theorem test_best_errors :
    (after .best (symbol 0 0 0 4097)).status.word = 0x0506 ∧ (after .best (symbol 1 0 0 4097)).status.word = 0x0606 := by
  decide

/-- The HELLO WORLD symbol (section 2.7). -/
def helloSymbol : List String := [
  "#######..#.##.#######",
  "#.....#.##.#..#.....#",
  "#.###.#.##..#.#.###.#",
  "#.###.#..#.#..#.###.#",
  "#.###.#.#...#.#.###.#",
  "#.....#.#..##.#.....#",
  "#######.#.#.#.#######",
  "........#####........",
  "##.#..##.##...###.##.",
  "#..##.....#...##...#.",
  "..##.####...#..#.##.#",
  "##...#.#####..#.##.##",
  "##.##.###.#.#####.#..",
  "........#.##....#.#..",
  "#######.#.#...######.",
  "#.....#....##..#....#",
  "#.###.#...##.##...##.",
  "#.###.#.##.....######",
  "#.###.#.....#.#.#.#.#",
  "#.....#.#.##.#.......",
  "#######.#...#..#.###."]

/-- The arrays that hold a pictured symbol. -/
def pictured (rows : List String) : Memory :=
  rows.zipIdx.flatMap fun r => r.1.toList.zipIdx.map fun c => (cellAddr r.2 c.2, colour (c.1 == '#'))

/-- Its score, the mask 7 row of section 2.7: 1076 = 69 + 87 + 920 + 0, 226 dark cells. -/
theorem test_score_hello_world :
    (after .score { symbol 1 1 7 26 with mem := pictured helloSymbol }).res.toList.take 6 = [1076, 69, 87, 920, 0, 226] := by
  decide +kernel

/-! Host accesses: section 2.10. -/

/-- The answer to a read of `off` after the accesses `p`. -/
def answer (p : List HostEvent) (off : Nat) : BusReply :=
  match Host.Core.run core (p.length + 1) (State.reset.withProgram (p ++ rd off)) with
  | .next t => t.bus
  | _ => .none

theorem test_host_fields :
    answer (wr 0x0030 0x3FF) 0x0030 = .data 0x1FF ∧ answer (wr 0x0010 63) 0x0020 = .data 0 ∧
    answer (wr 0x0010 7) 0x0020 = .data 45 ∧ answer [] 0x0000 = .data 0x51474601 := by decide

theorem test_host_cells :
    answer (wr 0x10000 3) 0x10000 = .data 0 ∧ answer (wr 0x10000 2) 0x10000 = .data 2 ∧
    answer (wr 0x3C400 2) 0x3C400 = .data 0 ∧ answer [] 0x0024 = .data 0 := by decide +kernel

theorem test_bus_error :
    step { State.reset with inputs := [.hostWrite 2 0x0010 1] } = .next { State.reset with bus := .busError } ∧
    step { State.reset with inputs := [.hostRead 4 0x0012] } = .next { State.reset with bus := .busError } := by
  exact ⟨rfl, rfl⟩

/-- Programs: an error acknowledged; a lost CMD write; an abandoned command (section 2.10). -/
theorem test_status_words :
    answer (cmd (.gflog 0) ++ wr 0x0008 0x4) 0x0008 = .data 0x2 ∧
    answer (wr 0x000C 0 ++ wr 0x000C 0x02000008 ++ poll) 0x0008 = .data 0xA ∧
    answer (wr 0x000C 0 ++ wr 0x0004 0x80000000) 0x0008 = .data 0 ∧
    answer (wr 0x000C 0x31000001 ++ poll) 0x0008 = .data 0x0106 ∧ answer (cmd .gfinder) 0x0008 = .data 0x0506 := by decide

/-- IRQ with IE after a completion, none with EIE alone after one without error. -/
theorem test_irq :
    (after .nop { State.reset with ctrl := ⟨true, false⟩ }).irq = true ∧
    (after .nop { State.reset with ctrl := ⟨false, true⟩ }).irq = false ∧
    (after (.gflog 0) { State.reset with ctrl := ⟨false, true⟩ }).irq = true := by decide

/-! Witnesses: for each statement with hypotheses, a state and operands that meet them together, at the ends of the ranges. -/

/-- STATUS after a domain error. -/
def erred : State := after (.gflog 0) State.reset

theorem witness_DecodeReadsEveryEncodedCommand : (Instr.maskfn 7 255 255).WellFormed ∧ (Instr.rsenc .p3 .p0 0).WellFormed := by
  decide

theorem witness_EveryLegalWordIsOneCommandsEncoding :
    decode 0x0100FFFF = .command (.gfmul 255 255) ∧ decode 0x42000000 = .command .best := by decide

theorem witness_EngineTurnExecutesThePendingCommand :
    let w := pendingState 0x02000008
    (w []).status.busy = true ∧ decode (w []).cmd = .command (.gfexp 8) ∧ (w []).inputs = [] ∧
    (w [.engineTurn, .powerOn]).status.busy = true ∧ decode (w [.engineTurn, .powerOn]).cmd = .command (.gfexp 8) ∧
    (w [.engineTurn, .powerOn]).inputs = .engineTurn :: [.powerOn] ∧ State.reset.status.busy = false ∧
    State.reset.inputs = [] ∧ { State.reset with inputs := [.engineTurn] }.inputs = .engineTurn :: [] := by decide

theorem witness_IllegalWordCompletesWithErrorOnly :
    let w := pendingState 0x00000001
    (w []).status.busy = true ∧ decode (w []).cmd = .illegal .reservedBitSet ∧ (w []).inputs = [] ∧
    (w [.engineTurn]).status.busy = true ∧ decode (w [.engineTurn]).cmd = .illegal .reservedBitSet ∧
    (w [.engineTurn]).inputs = .engineTurn :: [] ∧ decode 0xFF000000 = .illegal .unknownOpcode := by decide

theorem witness_PlacedWordIsExecutedNext : decodeTableWord 32 0x37000000 = some .gbuild := by decide

/-- GFLOG 0, and an illegal word. -/
theorem witness_ErrorChangesStatusOnly :
    (∀ w ∈ [0x03000000#32, 0x00000001#32], ∃ t, engineStep (pendingState w []) = .next t ∧
      (pendingState w []).status.err = false ∧ t.status.err = true) := by
  intro w hw
  simp only [List.mem_cons, List.not_mem_nil, or_false] at hw
  rcases hw with rfl | rfl <;> exact ⟨_, rfl, rfl, rfl⟩

theorem witness_CommandsWriteOnlyEngineWrittenState :
    exec (.gflog 0) State.reset = .next erred ∧ Instr.gflog 0 ≠ .best ∧ 4095 < 4096 := ⟨rfl, by decide, by decide⟩

theorem witness_EveryStepKeepsTheInvariant :
    (pendingState 0x02000008 []).Inv ∧ ∃ t, step (pendingState 0x02000008 []) = .next t :=
  ⟨⟨by decide, by decide, by decide, by decide, by decide⟩, _, rfl⟩

theorem witness_GflogWritesTheUniqueExponent : (0 : Byte) = 0 ∧ (1 : Byte) ≠ 0 ∧ (255 : Byte) ≠ 0 := by decide

theorem witness_FieldLawsHold : (1 : Byte) ≠ 0 ∧ (255 : Byte) ≠ 0 := by decide

/-- The largest legal product, 129 by 128 coefficients; and a register of 256 zeros. -/
theorem witness_PmulWritesTheProduct :
    (let s := polys (List.replicate 129 1) (List.replicate 128 1)
    s.plen[PReg.p0.idx].toNat ≤ 256 ∧ s.plen[PReg.p1.idx].toNat ≤ 256 ∧
      (norm (s.poly .p0)).length + (norm (s.poly .p1)).length - 1 = 256) ∧
    { State.reset with plen := State.reset.plen.set 0 256 }.plen[PReg.p0.idx].toNat = 256 := by decide +kernel

theorem witness_PmodWritesTheRemainder :
    let s := polys [1, 2, 3, 4] [0, 2, 0, 1]
    s.plen[PReg.p0.idx].toNat ≤ 256 ∧ s.plen[PReg.p1.idx].toNat ≤ 256 ∧ norm (s.poly .p1) ≠ [] := by decide

theorem witness_RsencMakesTheCodewordVanishAtTheRoots :
    let s := polys (List.replicate 249 1) []
    s.plen[PReg.p0.idx].toNat ≤ 256 ∧ (norm (s.poly .p0)).length + (7#8).toNat = 256 := by decide +kernel

theorem witness_PolynomialCommandsFrame :
    let i := Instr.genpoly .p1 2
    i ∈ [Instr.pmul .p1 .p0 .p0, .pmod .p1 .p0 .p0, .genpoly .p1 2, .rsenc .p1 .p0 2] ∧
    exec i State.reset = .next (after i State.reset) ∧ PReg.p0 ≠ PReg.p1 ∧ (∀ k < 256, 0x1000 ≠ coefAddr .p1 k) ∧
    (after i State.reset).plen[PReg.p1.idx].toNat ≤ 3 ∧ 3 < 256 := by
  refine ⟨by decide, rfl, by decide, fun k _ => by unfold coefAddr PReg.idx; simp; omega, by decide, by decide⟩

/-- Each clause at its end: 257 coefficients, a product of 257, shifted data of 257, a divisor of zeros. -/
theorem witness_PolynomialCommandsReportTheFirstError :
    { State.reset with plen := State.reset.plen.set 0 257 }.plen[PReg.p0.idx].toNat > 256 ∧
    (let s := polys (List.replicate 129 1) (List.replicate 129 1)
    s.plen[PReg.p0.idx].toNat ≤ 256 ∧ s.plen[PReg.p1.idx].toNat ≤ 256 ∧
      (norm (s.poly .p0)).length + (norm (s.poly .p1)).length = 258) ∧
    (let s := polys (List.replicate 250 1) []
    s.plen[PReg.p0.idx].toNat ≤ 256 ∧ (norm (s.poly .p0)).length + (7#8).toNat = 257) ∧
    (let s := polys [1, 2] [0, 0]
    s.plen[PReg.p0.idx].toNat ≤ 256 ∧ s.plen[PReg.p1.idx].toNat ≤ 256 ∧ norm (s.poly .p1) = []) := by decide +kernel

theorem witness_ResultRegisterCommandsFrame :
    (∀ i ∈ [Instr.nop, .gfmul 3 7, .gfexp 3, .gflog 3, .bchf 0, .bchv 0, .maskfn 0 3 7, .apos 3, .score],
      ∃ t, exec i (symbol 7 0 0 0) = .next t) ∧
    (7 : Fin 8) ≠ 0 ∧ 2 ≤ (2 : Fin 8).val ∧ 6 ≤ (6 : Fin 8).val := by
  refine ⟨fun i hi => ?_, by decide, by decide, by decide⟩
  simp only [List.mem_cons, List.not_mem_nil, or_false] at hi
  rcases hi with rfl | rfl | rfl | rfl | rfl | rfl | rfl | rfl | rfl
  all_goals first
    | exact ⟨_, exec_score (by decide)⟩
    | exact ⟨_, rfl⟩

theorem witness_SymbolCommandsReportTheFirstError :
    ¬ (symbol 0 0 0 0).versionLegal ∧ ¬ (symbol 41 0 0 4097).versionLegal ∧ (symbol 40 0 0 4097).versionLegal ∧
    (symbol 40 0 0 4097).cwlen.toNat > 4096 := by decide

/-- Trial grids whose format, fixed dark and version cells are light: the cells at the ends of their ranges, and two beside
them. -/
theorem witness_BestSelectsTheFirstLeastScore :
    (let s := { symbol 7 0 0 4096 with params := ⟨true, .truncated⟩ }
    s.versionLegal ∧ s.cwlen.toNat ≤ 4096 ∧ s.params.trialMetaLight = true ∧
      ∃ u, exec .gbuild { s with mask := BitVec.ofNat 3 7 } = .next u) ∧
    ([(0, 8), (8, 8), (37, 8), (44, 8), (8, 37), (0, 34), (5, 36), (36, 5)].all fun z => Ref.isMeta 7 z.1 z.2) = true ∧
    ([(6, 8), (36, 8), (8, 36), (6, 34), (0, 37), (9, 9)].any fun z => Ref.isMeta 7 z.1 z.2) = false ∧
    Ref.isMeta 6 0 30 = false := by
  refine ⟨⟨by decide, by decide, rfl, _, exec_gbuild (by decide) (by decide)⟩, by decide, by decide, by decide⟩

/-- The hypotheses of the statements about a legal VERSION, at both ends: GfinderStampsTheThreeFinders,
GalignStampsTheAlignmentPatterns, GtimingStampsTheTracks, GformatPlacesBothCopiesOfTheFormatWord,
GversionPlacesTheVersionWord, ScoreWritesTheFourPenalties, AposReadsTheAlignmentTable. -/
theorem witness_legal_version : (symbol 1 0 0 0).versionLegal ∧ (symbol 40 0 0 0).versionLegal ∧
    20 < (symbol 1 0 0 0).side ∧ 176 < (symbol 40 0 0 0).side := by decide

/-- The same with a legal CWLEN: GmapPlacesTheStreamInScanOrder, GbuildSetsEveryCellOfTheSymbol, GbuildIsThePassesInOrder. -/
theorem witness_legal_codewords : (symbol 1 0 0 4096).versionLegal ∧ (symbol 1 0 0 4096).cwlen.toNat ≤ 4096 ∧
    (symbol 40 0 0 0).versionLegal ∧ (symbol 40 0 0 0).cwlen.toNat ≤ 4096 := by decide

/-- Every clause of the stream: the first and a later free cell, a cell of column 6 that is not free, and one outside. -/
theorem witness_GmapPlacesTheStreamInScanOrder :
    let free := (mapOrder (symbol 1 0 0 4096).side).filter fun z => (symbol 1 0 0 4096).mem.cell z.1 z.2 == unset
    free[0]? = some (20, 20) ∧ (0, 6) ∉ free ∧ (0, 255) ∉ free := by decide +kernel

/-- Version 1 and 40; the first and the last strip, row and column of version 1, and the strip left of column 6, with the
cells 44_grid.md R191 gives for n = 21. -/
theorem witness_MapOrderVisitsEveryCellButColumnSixOnce :
    1 ≤ 1 ∧ 1 ≤ 40 ∧ 40 ≤ 40 ∧ 0 < 2 * 1 + 8 ∧ 9 < 2 * 1 + 8 ∧ 20 < 4 * 1 + 17 ∧ 1 < 2 ∧
    (mapOrder 21)[2 * (21 * 0 + 0) + 1]? = some (20, 19) ∧ (mapOrder 21)[2 * (21 * 1 + 0) + 0]? = some (0, 18) ∧
    (mapOrder 21)[2 * (21 * 7 + 0) + 0]? = some (0, 5) ∧ (mapOrder 21)[2 * (21 * 9 + 20) + 1]? = some (20, 0) := by
  decide +kernel

theorem witness_StructuralPassesFrame :
    (∀ i ∈ [Instr.gfinder, .galign, .gtiming, .gformat, .gversion], ∃ t, exec i (symbol 1 0 0 0) = .next t) ∧
    (∀ r c, r < (symbol 1 0 0 0).side → c < (symbol 1 0 0 0).side → cellAddr 0 21 ≠ cellAddr r c) ∧
    Instr.gfinder ≠ .gformat ∧ { symbol 1 0 0 0 with mem := [(cellAddr 0 0, 1)] }.mem.cell 0 0 ≠ 0 := by
  have h : (symbol 1 0 0 0).versionLegal := by decide
  refine ⟨fun i hi => ?_, fun r c hr hc => ?_, by decide, by decide⟩
  · simp only [List.mem_cons, List.not_mem_nil, or_false] at hi
    rcases hi with rfl | rfl | rfl | rfl | rfl
    exacts [⟨_, exec_gfinder h⟩, ⟨_, exec_galign h⟩, ⟨_, exec_gtiming h⟩, ⟨_, exec_gformat h⟩, ⟨_, exec_gversion h⟩]
  · have : (symbol 1 0 0 0).side = 21 := by decide
    rw [this] at hr hc
    unfold cellAddr
    omega

theorem witness_MappingCommandsFrame :
    (∀ i ∈ [Instr.gmap, .gbuild, .best], ∃ t, exec i (symbol 1 0 0 0) = .next t) ∧ Instr.gmap ≠ .best ∧
    4 ≤ (4 : Fin 8).val ∧ (∀ r c, r < 177 → c < 177 → cellAddr 0 177 ≠ cellAddr r c) := by
  have h : (symbol 1 0 0 0).versionLegal := by decide
  have h' : (symbol 1 0 0 0).cwlen.toNat ≤ 4096 := by decide
  refine ⟨fun i hi => ?_, by decide, by decide, fun r c hr hc => by unfold cellAddr; omega⟩
  simp only [List.mem_cons, List.not_mem_nil, or_false] at hi
  rcases hi with rfl | rfl | rfl
  exacts [⟨_, exec_gmap h h'⟩, ⟨_, exec_gbuild h h'⟩, ⟨_, exec_best h h'⟩]

/-- Two states of one version with other ECL, MASK and CWLEN; a finder's, a timing and an alignment cell. -/
theorem witness_FixedPatternCellsIgnoreMaskAndData :
    (symbol 7 0 0 0).versionLegal ∧ (symbol 7 3 5 4096).version = (symbol 7 0 0 0).version ∧
    (symbol 7 0 0 0).cwlen.toNat ≤ 4096 ∧ (symbol 7 3 5 4096).cwlen.toNat ≤ 4096 ∧
    (∃ t, exec .gbuild (symbol 7 0 0 0) = .next t) ∧ (∃ t, exec .gbuild (symbol 7 3 5 4096) = .next t) ∧
    Ref.finder (symbol 7 0 0 0).side 44 0 ≠ none ∧ Ref.timing (symbol 7 0 0 0).side 6 36 ≠ none ∧
    (38, 38) ∈ centres (aposTable 7) ∧ Ref.finder (symbol 7 0 0 0).side 38 38 = none ∧ Ref.distance 40 40 38 38 ≤ 2 := by
  refine ⟨by decide, by decide, by decide, by decide, ⟨_, exec_gbuild (by decide) (by decide)⟩,
    ⟨_, exec_gbuild (by decide) (by decide)⟩, by decide, by decide, by decide, by decide, by decide⟩

/-- The clauses on the positions: version 1 has none, the second and the last of version 40, and version 32's step. -/
theorem witness_AposReadsTheAlignmentTable :
    (symbol 1 0 0 0).version.toNat = 1 ∧ (symbol 40 0 0 0).version.toNat ≠ 1 ∧ 1 ≤ 1 ∧ 1 ≤ 6 ∧ 6 < 40 / 7 + 2 ∧
    4 * 40 + 10 - (7 - 1 - 1) * Ref.alignmentStep 40 7 = 30 ∧ 4 * 32 + 10 - (6 - 1 - 1) * Ref.alignmentStep 32 6 = 34 := by
  decide

/-- Each mask's condition holds at (0, 0); it fails at (11, 8), and that of mask 7 at (1, 1). -/
theorem witness_MaskfnEvaluatesTheCondition :
    (∀ m : BitVec 3, maskbit m 0 0 = true ∧ (m = 7 ∨ maskbit m 11 8 = false)) ∧ maskbit 7 1 1 = false := by decide

/-- Rule (d) at 21: half of the cells and more, an integer percentage, and neither. -/
theorem witness_RuleDRoundingsDifferByAtMostTen :
    1 ≤ 21 ∧ 441 ≤ 21 ^ 2 ∧ 100 * 221 ≥ 50 * 21 ^ 2 ∧ 21 ^ 2 ∣ 100 * 0 ∧ ¬ (100 * 200 ≥ 50 * 21 ^ 2 ∨ 21 ^ 2 ∣ 100 * 200) := by
  decide

theorem witness_BestBuildsTheWinnersSymbol :
    (symbol 1 0 0 4096).versionLegal ∧ (symbol 1 0 0 4096).cwlen.toNat ≤ 4096 ∧
    ∃ t, exec .best (symbol 1 0 0 4096) = .next t := ⟨by decide, by decide, _, exec_best (by decide) (by decide)⟩

theorem witness_TrialScoresAreTheBuiltSymbolsScores :
    (symbol 40 0 0 0).params.trialMetaLight = false ∧ (symbol 40 0 0 0).versionLegal ∧ (symbol 40 0 0 0).cwlen.toNat ≤ 4096 ∧
    ∃ t, exec .best (symbol 40 0 0 0) = .next t :=
  ⟨by decide, by decide, by decide, _, exec_best (by decide) (by decide)⟩

/-- A state with one event still to come. -/
def offered (e : HostEvent) : State := { State.reset with inputs := [e] }

/-- Refused for its width, for its alignment, for lying outside; a read and a write. -/
theorem witness_RefusedAccessChangesNothing :
    (2 ≠ 4 ∨ 0x10 % 4 ≠ 0 ∨ 0x80000 ≤ 0x10) ∧ (4 ≠ 4 ∨ 0x11 % 4 ≠ 0 ∨ 0x80000 ≤ 0x11) ∧
    (4 ≠ 4 ∨ 0x80000 % 4 ≠ 0 ∨ 0x80000 ≤ 0x80000) ∧ (offered (.hostRead 2 0x10)).inputs = .hostRead 2 0x10 :: [] ∧
    (offered (.hostWrite 4 0x80000 1)).inputs = .hostWrite 4 0x80000 1 :: [] := by decide

theorem witness_HostReadChangesNoEngineState :
    (offered (.hostRead 4 0x7FFFC)).inputs = .hostRead 4 0x7FFFC :: [] ∧
    (offered (.hostRead 4 0x7FFFC)).status.busy = false := by decide

/-- Every range at both ends, each offset in one clause alone: drawn ones by their width, and others. -/
theorem witness_ReadsWhileBusy :
    let s := pendingState 0 [.hostRead 4 0x3C2C0]
    s.status.busy = true ∧ s.inputs = .hostRead 4 0x3C2C0 :: [] ∧ 0x3C2C0 % 4 = 0 ∧ 0x3C2C0 < 0x80000 ∧
    0x3C2C0 = 0x10000 + 4 * (256 * 176 + 176) ∧
    ([(0x40, 32), (0x7C, 32), (0x18, 3), (0x30, 9), (0x3C, 9), (0x1000, 8), (0x1FFC, 8), (0x10000, 2), (0x3C2C0, 2)].all
      fun z => (targetOf z.1).engineWritten == some z.2) = true ∧
    ([0x00, 0x14, 0x1C, 0x20, 0x24, 0x2C, 0x80, 0xFFC, 0x2000, 0x3FFC, 0x4000, 0x7FFC, 0x8000, 0x3C2C4, 0x7FFFC].all
      fun off => (targetOf off).engineWritten == none) = true := by decide

/-- A discarded write at the ends of each range, and ignored ones beside them. -/
theorem witness_WritesWhileBusyAreDiscarded :
    let s := pendingState 0 [.hostWrite 4 0x3C2C0 2]
    s.status.busy = true ∧ s.inputs = .hostWrite 4 0x3C2C0 2 :: [] ∧ 0x3C2C0 % 4 = 0 ∧ 0x3C2C0 < 0x80000 ∧
    0x3C2C0 = 0x10000 + 4 * (256 * 176 + 176) ∧
    ([0x0C, 0x10, 0x1C, 0x30, 0x3C, 0x1000, 0x1FFC, 0x4000, 0x7FFC].all fun off => (targetOf off).guarded) = true ∧
    ([0x00, 0x20, 0x24, 0x40, 0x7C, 0x80, 0xFFC, 0x2000, 0x3FFC, 0x8000, 0x3C2C4, 0x7FFFC].any fun off =>
      (targetOf off).guarded) = false := by decide

theorem witness_CommandIsAcceptedWhenIdle :
    (offered (.hostWrite 4 0x000C 0xFFFFFFFF)).status.busy = false ∧
    (offered (.hostWrite 4 0x000C 0xFFFFFFFF)).inputs = .hostWrite 4 0x000C 0xFFFFFFFF :: [] := by decide

theorem witness_StatusWriteClearsWhereItHasOnes :
    (offered (.hostWrite 4 0x0008 0xE)).inputs = .hostWrite 4 0x0008 0xE :: [] := by decide

theorem witness_ControlWriteResetsOrSetsEnables :
    (offered (.hostWrite 4 0x0004 0x80000003)).inputs = .hostWrite 4 0x0004 0x80000003 :: [] ∧
    (offered .powerOn).inputs = .powerOn :: [] ∧ BitVec.getLsbD 0x80000003#32 31 = true ∧ BitVec.getLsbD 0x00000003#32 31 = false := by decide

/-- Every clause at the top of its range; the read after the write. -/
theorem witness_WrittenElementReadsBackItsField :
    let s := { State.reset with inputs := [.hostWrite 4 0x3C2C0 0xFFFFFFFE, .hostRead 4 0x3C2C0] }
    s.mem.wf = true ∧ s.status.busy = false ∧
    s.inputs = .hostWrite 4 0x3C2C0 0xFFFFFFFE :: .hostRead 4 0x3C2C0 :: [] ∧
    (176 < 177 ∧ 0x3C2C0 = 0x10000 + 4 * (256 * 176 + 176) ∧ (0xFFFFFFFE#32).toNat % 4 ≠ 3) ∧
    (3 < 4 ∧ 0x3C = 0x0030 + 4 * (3 : Fin 4).val) ∧ (255 < 256 ∧ 0x1FFC = 0x1000 + 0x400 * 3 + 4 * 255) ∧
    (4095 < 4096 ∧ 0x7FFC = 0x4000 + 4 * 4095) ∧ (0xFFFFFFFF#32).toNat % 4 = 3 := by decide

/-- Every range at both ends; the last is a hole of the grid's range. -/
theorem witness_UnmappedOffsetsReadZeroAndIgnoreWrites :
    (offered (.hostRead 4 0x24)).inputs = .hostRead 4 0x24 :: [] ∧
    (offered (.hostWrite 4 0x3C2C4 1)).inputs = .hostWrite 4 0x3C2C4 1 :: [] ∧
    ([0x24, 0x2C, 0x80, 0xFFC, 0x2000, 0x3FFC, 0x8000, 0xFFFC, 0x50000, 0x7FFFC, 0x3C2C4, 0x4FFFC].all fun off =>
      off % 4 == 0 && targetOf off == .unmapped) = true ∧
    0x3C2C4 = 0x10000 + 4 * (256 * 176 + 177) ∧ 0x4FFFC = 0x10000 + 4 * (256 * 255 + 255) := by decide

/-- Each register's offset, each array at both ends; a read and a write. -/
theorem witness_IdStatusAndModcntRead :
    ([0x0000, 0x0004, 0x0008, 0x000C, 0x0010, 0x0014, 0x0018, 0x001C, 0x0020, 0x0030, 0x003C, 0x0040, 0x005C, 0x0060, 0x007C,
      0x1000, 0x1FFC, 0x4000, 0x7FFC, 0x10000, 0x3C2C0].all fun off =>
      (offered (.hostRead 4 off)).inputs == .hostRead 4 off :: [] &&
        (offered (.hostWrite 4 off 9)).inputs == .hostWrite 4 off 9 :: []) = true ∧
    (offered (.hostRead 4 0x0040)).status.busy = false ∧ 0x005C = 0x0040 + 4 * (7 : Fin 8).val ∧
    0x007C = 0x0060 + 4 * 7 ∧ 7 < 8 ∧ 0x003C = 0x0030 + 4 * 3 ∧ 0x1FFC = 0x1000 + 0x400 * 3 + 4 * 255 ∧
    0x7FFC = 0x4000 + 4 * 4095 ∧ 0x3C2C0 = 0x10000 + 4 * (256 * 176 + 176) ∧
    255 < { State.reset with plen := State.reset.plen.set 3 256 }.plen[PReg.p3.idx].toNat := by decide

/-- A command's execution; writes that clear DONE, ERR or an enable, the soft reset, and an acceptance. -/
theorem witness_IrqFollowsCompletionAndError :
    exec (.gflog 0) State.reset = .next erred ∧
    (offered (.hostWrite 4 0x0008 2)).inputs = .hostWrite 4 0x0008 2 :: [] ∧
    (offered (.hostWrite 4 0x0004 2)).inputs = .hostWrite 4 0x0004 2 :: [] ∧
    (offered (.hostWrite 4 0x000C 0)).inputs = .hostWrite 4 0x000C 0 :: [] ∧
    (offered (.hostWrite 4 0x000C 0)).status.busy = false := ⟨rfl, by decide⟩

/-- An error alone asserts IRQ after DONE is cleared, until ERR or EIE is cleared (60_exceptions.md R259). -/
theorem test_irq_sources :
    let t := { erred with ctrl := ⟨true, true⟩ }.acknowledge 2
    t.status.done = false ∧ t.irq = true ∧ (t.acknowledge 4).irq = false ∧ (t.writeCtrl 1).irq = false ∧
    (t.writeCtrl 2).irq = true := by decide

end Sys2Proof.Machine
end

/-! PROOF. What a command writes (10_state.md R28, R34): engine-written state and STATUS, the codeword memory never, MASK and
TSCORE0..7 by BEST alone. -/

namespace Sys2Proof.Machine

/-! The codeword memory lies apart from the arrays that commands write (20_memory.md R61). -/

theorem cwAddr_ne_coefAddr (k : Nat) (p : PReg) {i : Nat} (hi : i < 256) : cwAddr k ≠ coefAddr p i := by
  have := coefAddr_lt p hi
  unfold cwAddr
  omega

theorem cwAddr_ne_cellAddr {k : Nat} (hk : k < 4096) (r c : Nat) : cwAddr k ≠ cellAddr r c := by
  unfold cwAddr cellAddr
  omega

theorem Touched.read_cw {n : Nat} {m m' : Memory} (h : Touched n m m') {k : Nat} (hk : k < 4096) :
    m'.read (cwAddr k) = m.read (cwAddr k) :=
  h.outside _ fun r c _ _ => cwAddr_ne_cellAddr hk r c

/-! The forms of completion. -/

/-- A completion keeps every codeword. -/
theorem Completes.read_cw {s t : State} (h : Completes s t) {k : Nat} (hk : k < 4096) :
    t.mem.read (cwAddr k) = s.mem.read (cwAddr k) := by
  cases h with
  | same | res | two => rfl
  | poly p l hl => exact s.read_setPoly_other p hl fun _ hi => cwAddr_ne_coefAddr k p hi
  | mem _ hm => exact hm.read_cw hk
  | mapped _ _ hm => exact hm.read_cw hk
  | scored dark => rw [State.scored_mem]
  | bested scores hv => rw [State.bested_mem]; exact (Touched.build hv _ _).read_cw hk

/-- A completion differs from the state before it in engine-written state alone. -/
theorem Completes.eq_engineWritten {s t : State} (h : Completes s t) :
    t = { s with
      status := t.status, mask := t.mask, res := t.res, tscore := t.tscore, plen := t.plen, mem := t.mem } := by
  obtain ⟨hctrl, -, hcmd, hversion, hecl, hcwlen, hparams, hinputs, hbus, hdraws⟩ := h.same_fields
  rw [← hctrl, ← hcmd, ← hversion, ← hecl, ← hcwlen, ← hparams, ← hinputs, ← hbus, ← hdraws]

/-- What any command writes: engine-written state and STATUS, and no codeword. -/
theorem exec_frame {i : Instr} {s t : State} (h : exec i s = .next t) :
    t = { s with
      status := t.status, mask := t.mask, res := t.res, tscore := t.tscore, plen := t.plen, mem := t.mem } ∧
    ∀ k < 4096, t.mem.read (cwAddr k) = s.mem.read (cwAddr k) := by
  rcases exec_cases i s with ⟨e, he⟩ | ⟨u, hu, he⟩
  · obtain rfl := Host.Outcome.next.inj (he.symm.trans h)
    exact ⟨rfl, fun _ _ => rfl⟩
  · obtain rfl := Host.Outcome.next.inj (he.symm.trans h)
    exact ⟨congrArg State.complete hu.eq_engineWritten, fun _ hk => hu.read_cw hk⟩

/-! MASK and TSCORE0..7. -/

/-- The outcome is a next state with the MASK and the TSCORE0..7 of `s`. -/
def KeepsMaskAndTscore (s : State) (o : Result) : Prop :=
  ∃ t, o = .next t ∧ t.mask = s.mask ∧ t.tscore = s.tscore

theorem KeepsMaskAndTscore.raiseError (s : State) (e : ErrorCode) : KeepsMaskAndTscore s (.next (s.raiseError e)) :=
  ⟨_, rfl, rfl, rfl⟩

theorem KeepsMaskAndTscore.finish {s t : State} (hm : t.mask = s.mask) (ht : t.tscore = s.tscore) :
    KeepsMaskAndTscore s (finish t) :=
  ⟨_, rfl, hm, ht⟩

theorem KeepsMaskAndTscore.finishPoly (s : State) (p : PReg) (l : List Byte) : KeepsMaskAndTscore s (finishPoly s p l) :=
  .finish rfl rfl

theorem KeepsMaskAndTscore.withOperand {s : State} {p : PReg} {k : List Byte → Result}
    (hk : ∀ l, KeepsMaskAndTscore s (k l)) : KeepsMaskAndTscore s (withOperand s p k) :=
  withOperand_elim (raiseError s) fun _ => hk _

theorem KeepsMaskAndTscore.withModuleCount {s : State} {k : Nat → Result} (hk : ∀ n, KeepsMaskAndTscore s (k n)) :
    KeepsMaskAndTscore s (withModuleCount s k) :=
  withModuleCount_elim (raiseError s) fun _ => hk _

theorem KeepsMaskAndTscore.withCodewords {s : State} {k : Result} (hk : KeepsMaskAndTscore s k) :
    KeepsMaskAndTscore s (withCodewords s k) :=
  withCodewords_elim (raiseError s) fun _ => hk

/-- Every command but BEST keeps MASK and TSCORE0..7. -/
theorem exec_keeps_mask_tscore {i : Instr} (hi : i ≠ .best) (s : State) : KeepsMaskAndTscore s (exec i s) := by
  have he := KeepsMaskAndTscore.raiseError s
  have hp := KeepsMaskAndTscore.finishPoly s
  cases i with
  | best => exact absurd rfl hi
  | nop | gfmul | gfexp | genpoly | bchf | bchv | gclear | maskfn => exact .finish (by simp) (by simp)
  | gflog a => rw [exec_gflog]; split; exacts [he _, .finish (by simp) (by simp)]
  | pmul pd ps pt =>
    simp only [exec, execPmul]
    refine .withOperand fun a => .withOperand fun b => ?_
    split
    · exact hp _ _
    · split; exacts [he _, hp _ _]
  | pmod pd ps pt =>
    simp only [exec, execPmod]
    refine .withOperand fun a => .withOperand fun b => ?_
    split; exacts [he _, hp _ _]
  | rsenc pd ps n =>
    simp only [exec, execRsenc]
    refine .withOperand fun d => ?_
    split; exacts [he _, hp _ _]
  | gfinder | galign | gtiming | gformat | gversion | apos | score =>
    simp only [exec, execGfinder, execGalign, execGtiming, execGformat, execGversion, execApos, execScore]
    exact .withModuleCount fun n => .finish (by simp) (by simp)
  | gmap | gbuild =>
    simp only [exec, execGmap, execGbuild]
    exact .withModuleCount fun n => .withCodewords (.finish (by simp) (by simp))

/-- Settles O12: the frame of every command, and MASK and TSCORE0..7 command by command. -/
theorem commandsWriteOnlyEngineWrittenState : Obligations.CommandsWriteOnlyEngineWrittenState := by
  unfold Obligations.CommandsWriteOnlyEngineWrittenState
  intro i s t h
  obtain ⟨hframe, hcw⟩ := exec_frame h
  refine ⟨hframe, hcw, fun hi => ?_⟩
  obtain ⟨u, hu, hkeeps⟩ := exec_keeps_mask_tscore hi s
  obtain rfl := Host.Outcome.next.inj (hu.symm.trans h)
  exact hkeeps

end Sys2Proof.Machine

/-! PROOF. Every step keeps the invariant (10_state.md R23, R35): every update of the arrays and of
STATUS keeps it, and a step is made of those. -/

namespace Sys2Proof.Machine

/-! The invariant speaks of the arrays and STATUS alone, so it passes to any state that agrees on them. -/

theorem State.Inv.congr {s t : State} (h : s.Inv) (hm : t.mem = s.mem) (ht : t.status = s.status) : t.Inv := by
  obtain ⟨hwf, hplaced, herr, hknown, hbusy⟩ := h
  rw [← hm] at hwf hplaced
  rw [← ht] at herr hknown hbusy
  exact ⟨hwf, hplaced, herr, hknown, hbusy⟩

theorem State.Inv.setMem {s : State} (h : s.Inv) {m : Memory} (hw : m.wf = true) (hp : m.placed = true) :
    (s.setMem m).Inv :=
  ⟨hw, hp, h.errorCode, h.knownCode, h.busyClear⟩

/-- One byte written to an element's offset, a cell's being a code. -/
theorem State.Inv.write {s : State} (h : s.Inv) {a : Nat} {v : Byte} (hv : entryLegal (a, v) = true) :
    (s.setMem (s.mem.write a v)).Inv :=
  h.setMem (Memory.wf_write h.canonical _ _) (Memory.all_write h.placed fun _ => hv)

/-! A command's life. -/

theorem State.Inv.raiseError {s : State} (h : s.Inv) (e : ErrorCode) : (s.raiseError e).Inv where
  canonical := h.canonical
  placed := h.placed
  errorCode := by simpa using e.code_range.1
  knownCode := e.code_range.2
  busyClear := by simp

theorem State.Inv.complete {s : State} (h : s.Inv) : s.complete.Inv where
  canonical := h.canonical
  placed := h.placed
  errorCode := h.errorCode
  knownCode := h.knownCode
  busyClear := by simp

theorem State.Inv.accept {s : State} (h : s.Inv) (w : Word) : (s.accept w).Inv where
  canonical := h.canonical
  placed := h.placed
  errorCode := by simp
  knownCode := by simp
  busyClear := by simp

theorem State.Inv.flagHazard {s : State} (h : s.Inv) : s.flagHazard.Inv where
  canonical := h.canonical
  placed := h.placed
  errorCode := h.errorCode
  knownCode := h.knownCode
  busyClear := h.busyClear

/-- Clearing ERR clears ECODE with it, so the two still agree. -/
theorem State.Inv.acknowledge {s : State} (h : s.Inv) (v : Word) : (s.acknowledge v).Inv where
  canonical := h.canonical
  placed := h.placed
  errorCode := by
    have := h.errorCode
    cases hv : v[2] <;> simp [hv, this]
  knownCode := by
    have := h.knownCode
    cases hv : v[2] <;> simp [hv, this]
  busyClear hb := by
    obtain ⟨hdone, herr⟩ := h.busyClear hb
    simp [hdone, herr]

theorem State.powerOnReset_inv (s : State) : s.powerOnReset.Inv where
  canonical := rfl
  placed := rfl
  errorCode := by simp [State.reset]
  knownCode := by simp [State.reset]
  busyClear := by simp [State.reset]

theorem State.Inv.writeCtrl {s : State} (h : s.Inv) (v : Word) : (s.writeCtrl v).Inv := by
  unfold State.writeCtrl
  split
  · exact s.powerOnReset_inv
  · exact h.congr rfl rfl

/-! The engine's turn. -/

theorem Completes.inv {s t : State} (hc : Completes s t) (h : s.Inv) : t.Inv := by
  obtain ⟨hw, hp⟩ := hc.good h.canonical h.placed
  obtain ⟨-, ht, -⟩ := hc.same_fields
  exact (h.setMem hw hp).congr rfl ht

theorem State.Inv.exec {s t : State} (h : s.Inv) {i : Instr} (he : exec i s = .next t) : t.Inv := by
  rcases exec_cases i s with ⟨e, h'⟩ | ⟨u, hu, h'⟩ <;> obtain rfl := Host.Outcome.next.inj (h'.symm.trans he)
  · exact h.raiseError e
  · exact (hu.inv h).complete

theorem State.Inv.engineStep {s t : State} (h : s.Inv) (he : engineStep s = .next t) : t.Inv := by
  cases hb : s.status.busy with
  | false =>
    obtain rfl := Host.Outcome.next.inj ((engineStep_idle hb).symm.trans he)
    exact h
  | true =>
    cases hd : decode s.cmd with
    | command i => exact h.exec ((engineStep_command hb hd).symm.trans he)
    | illegal why =>
      obtain rfl := Host.Outcome.next.inj ((engineStep_illegal hb hd).symm.trans he)
      exact h.raiseError .illegal

/-! The host's accesses. -/

theorem hostReadTarget_mem_status (s : State) (t : Target) :
    (s.hostReadTarget t).mem = s.mem ∧ (s.hostReadTarget t).status = s.status := by
  unfold State.hostReadTarget
  split <;> exact ⟨rfl, rfl⟩

theorem entryLegal_coefRange {a : Nat} (h : a % 4 = 0) (h1 : 0x1000 ≤ a) (h2 : a < 0x2000) (v : Byte) :
    entryLegal (a, v) = true := by
  have hcell : isCellAddr a = false := isCellAddr_false_of_lt (by omega)
  simp [entryLegal, isElementAddr, hcell, h, h1, h2, Nat.ble_eq, Nat.blt_eq]

theorem entryLegal_cw {a : Nat} (h : isCwAddr a = true) (v : Byte) : entryLegal (a, v) = true := by
  obtain ⟨i, hi, rfl⟩ := (isCwAddr_iff a).mp h
  have hcell : isCellAddr (cwAddr i) = false := isCellAddr_false_of_lt (by unfold cwAddr; omega)
  simp [entryLegal, isElementAddr, hcell, h]

/-- The code a host write leaves in a cell, code 3 being ignored. -/
theorem cellCode_le {v : Word} (h : v.setWidth 2 ≠ 3#2) : ((v.setWidth 2).setWidth 8).toNat ≤ 2 := by
  have hlt := (v.setWidth 2).isLt
  have hne : (v.setWidth 2).toNat ≠ 3 := fun e => h (BitVec.eq_of_toNat_eq e)
  rw [BitVec.toNat_setWidth_of_le (by decide)]
  omega

theorem State.Inv.writeTarget {s : State} (h : s.Inv) (v : Word) {off : Nat} (h4 : off % 4 = 0) :
    (s.writeTarget v (targetOf off)).Inv := by
  obtain ⟨hcoef, hcw, hcell⟩ := targetOf_elements off
  cases ht : targetOf off with
  | id | modcnt | res | tscore | unmapped => exact h
  | version | ecl | mask | cwlen | plen => exact h.congr rfl rfl
  | ctrl => exact h.writeCtrl v
  | status => exact h.acknowledge v
  | cmd => exact h.accept v
  | coef a =>
    obtain ⟨rfl, h1, h2⟩ := hcoef a ht
    exact h.write (entryLegal_coefRange h4 h1 h2 _)
  | cw a =>
    obtain ⟨rfl, ha⟩ := hcw a ht
    exact h.write (entryLegal_cw ha _)
  | cell a =>
    obtain ⟨rfl, ha⟩ := hcell a ht
    obtain ⟨r, c, hr, hc, rfl⟩ := (isCellAddr_iff a).mp ha
    show (if v.setWidth 2 = 3#2 then s else _).Inv
    split
    · exact h
    · exact h.write (entryLegal_cell hr hc (cellCode_le ‹_›))

theorem State.Inv.hostRead {s : State} (h : s.Inv) (bytes off : Nat) : (s.hostRead bytes off).Inv := by
  unfold State.hostRead
  split
  · obtain ⟨hm, ht⟩ := hostReadTarget_mem_status s (targetOf off)
    exact h.congr hm ht
  · exact h.congr rfl rfl

theorem State.Inv.hostWrite {s : State} (h : s.Inv) (bytes off : Nat) (v : Word) : (s.hostWrite bytes off v).Inv := by
  unfold State.hostWrite State.hostWriteTarget
  split
  next hl =>
    obtain ⟨-, h4, -⟩ := (accessLegal_iff bytes off).mp hl
    split
    · exact h.flagHazard.congr rfl rfl
    · exact (h.writeTarget v h4).congr rfl rfl
  next => exact h.congr rfl rfl

/-- Settles O13: event by event of the schedule. -/
theorem everyStepKeepsTheInvariant : Obligations.EveryStepKeepsTheInvariant := by
  unfold Obligations.EveryStepKeepsTheInvariant
  intro s t h hstep
  have hrest (rest : List HostEvent) : ({ s with inputs := rest } : State).Inv := h.congr rfl rfl
  cases hi : s.inputs with
  | nil => exact h.engineStep ((step_nil hi).symm.trans hstep)
  | cons event rest =>
    cases event with
    | engineTurn => exact (hrest rest).engineStep ((step_engineTurn hi).symm.trans hstep)
    | hostRead bytes off =>
      obtain rfl := Host.Outcome.next.inj ((step_hostRead hi).symm.trans hstep)
      exact (hrest rest).hostRead bytes off
    | hostWrite bytes off v =>
      obtain rfl := Host.Outcome.next.inj ((step_hostWrite hi).symm.trans hstep)
      exact (hrest rest).hostWrite bytes off v
    | powerOn =>
      obtain rfl := Host.Outcome.next.inj ((step_powerOn hi).symm.trans hstep)
      exact State.powerOnReset_inv _

end Sys2Proof.Machine

/-! PROOF. The frames of the commands that write one polynomial register (10_state.md R33) and of those that write result
registers only (10_state.md R28). -/

namespace Sys2Proof.Machine

/-! How a command ends. -/

/-- The outcome is an error of `s`, or the completion of a state that `P` describes. -/
def EndsIn (s : State) (P : State → Prop) (o : Result) : Prop :=
  (∃ e, o = .next (s.raiseError e)) ∨ ∃ u, P u ∧ o = .next u.complete

theorem EndsIn.raise (s : State) (P : State → Prop) (e : ErrorCode) : EndsIn s P (raise s e) := .inl ⟨e, rfl⟩

theorem EndsIn.finish (s : State) {P : State → Prop} {u : State} (h : P u) : EndsIn s P (finish u) := .inr ⟨u, h, rfl⟩

theorem EndsIn.withOperand {s : State} {P : State → Prop} {p : PReg} {k : List Byte → Result}
    (hk : s.plen[p.idx].toNat ≤ 256 → EndsIn s P (k (norm (s.poly p)))) : EndsIn s P (withOperand s p k) :=
  withOperand_elim (raise s P) hk

theorem EndsIn.withModuleCount {s : State} {P : State → Prop} {k : Nat → Result} (hk : EndsIn s P (k s.side)) :
    EndsIn s P (withModuleCount s k) :=
  withModuleCount_elim (raise s P) fun _ => hk

/-! The polynomial commands. -/

/-- `u` is `s` with a polynomial that fits written to `P[pd]`. -/
def WritesPoly (pd : PReg) (s u : State) : Prop := ∃ l : List Byte, l.length ≤ 256 ∧ u = s.setPoly pd l

theorem endsIn_finishPoly (pd : PReg) (s : State) {l : List Byte} (h : l.length ≤ 256) :
    EndsIn s (WritesPoly pd s) (finishPoly s pd l) :=
  .finish s ⟨l, h, rfl⟩

theorem endsIn_pmul (pd ps pt : PReg) (s : State) : EndsIn s (WritesPoly pd s) (exec (.pmul pd ps pt) s) := by
  simp only [exec, execPmul]
  refine .withOperand fun _ => .withOperand fun _ => ?_
  split
  next => exact endsIn_finishPoly pd s (by simp)
  next hne =>
    obtain ⟨ha, hb⟩ := not_or.mp hne
    split
    next => exact .raise s _ .len
    next hfits =>
      refine endsIn_finishPoly pd s ?_
      rw [polyMul_length (by simpa using ha) (by simpa using hb)]
      exact Nat.le_of_not_gt hfits

theorem endsIn_pmod (pd ps pt : PReg) (s : State) : EndsIn s (WritesPoly pd s) (exec (.pmod pd ps pt) s) := by
  simp only [exec, execPmod]
  refine .withOperand fun _ => .withOperand fun hlen => ?_
  split
  next => exact .raise s _ .div
  next hb =>
    have hmod := polyMod_length (norm_norm (s.poly ps)) (norm_norm (s.poly pt)) (by simpa using hb)
    have hnorm := norm_length_le (s.poly pt)
    rw [State.poly_length] at hnorm
    exact endsIn_finishPoly pd s (by omega)

theorem endsIn_genpoly (pd : PReg) (n : Byte) (s : State) : EndsIn s (WritesPoly pd s) (exec (.genpoly pd n) s) :=
  endsIn_finishPoly pd s (by rw [genPoly_length]; exact n.isLt)

theorem endsIn_rsenc (pd ps : PReg) (n : Byte) (s : State) : EndsIn s (WritesPoly pd s) (exec (.rsenc pd ps n) s) := by
  simp only [exec, execRsenc]
  refine .withOperand fun _ => ?_
  split
  next => exact .raise s _ .len
  next => exact endsIn_finishPoly pd s (by rw [ecCodewords_length (norm_norm _)]; omega)

/-- Settles O24: each of the four commands ends with an error or writes P[pd]. -/
theorem polynomialCommandsFrame : Obligations.PolynomialCommandsFrame := by
  unfold Obligations.PolynomialCommandsFrame
  intro pd ps pt n s t i hi h
  have hends : EndsIn s (WritesPoly pd s) (exec i s) := by
    simp only [List.mem_cons, List.not_mem_nil, or_false] at hi
    rcases hi with rfl | rfl | rfl | rfl
    exacts [endsIn_pmul pd ps pt s, endsIn_pmod pd ps pt s, endsIn_genpoly pd n s, endsIn_rsenc pd ps n s]
  rcases hends with ⟨e, he⟩ | ⟨_, ⟨l, hl, rfl⟩, he⟩ <;> obtain rfl := Host.Outcome.next.inj (he.symm.trans h)
  · exact ⟨rfl, fun _ _ => rfl, fun _ _ => rfl, .inl ⟨e, rfl⟩⟩
  · refine ⟨rfl, fun p hp => s.plen_setPoly_other l hp, fun a ha => s.read_setPoly_other pd hl ha, .inr fun k hk hk' => ?_⟩
    exact s.read_setPoly_beyond pd ((s.plen_setPoly pd hl).symm.trans_le hk) hk'

/-! The commands that write only result registers. -/

/-- `u` is `s` but for the first `n` result registers. -/
def WritesRes (n : Nat) (s u : State) : Prop :=
  ∃ r : Vector Word 8, u = { s with res := r } ∧ ∀ k : Fin 8, n ≤ k.val → r[k] = s.res[k]

theorem WritesRes.refl (n : Nat) (s : State) : WritesRes n s s := ⟨s.res, rfl, fun _ _ => rfl⟩

theorem WritesRes.setRes {n : Nat} {s u : State} (h : WritesRes n s u) {j : Fin 8} (hj : j.val < n) (v : Nat) :
    WritesRes n s (u.setRes j v) := by
  obtain ⟨r, rfl, hr⟩ := h
  refine ⟨r.set j (BitVec.ofNat 32 v), rfl, fun k hk => ?_⟩
  have hne : j.val ≠ k.val := by omega
  simpa [hne] using hr k hk

theorem WritesRes.scored (s : State) (dark : Nat → Nat → Bool) : WritesRes 6 s (s.scored dark) :=
  ((((((refl 6 s).setRes (by decide) _).setRes (by decide) _).setRes (by decide) _).setRes (by decide) _).setRes
    (by decide) _).setRes (by decide) _

theorem endsIn_setRes_zero (s : State) (v : Nat) : EndsIn s (WritesRes 1 s) (finish (s.setRes 0 v)) :=
  .finish s ((WritesRes.refl 1 s).setRes Nat.zero_lt_one v)

theorem endsIn_gflog (a : Byte) (s : State) : EndsIn s (WritesRes 1 s) (exec (.gflog a) s) := by
  rw [exec_gflog]
  split
  · exact .raise s _ .log0
  · exact endsIn_setRes_zero s _

theorem endsIn_apos (k : Byte) (s : State) : EndsIn s (WritesRes 2 s) (exec (.apos k) s) := by
  simp only [exec, execApos]
  exact .withModuleCount (.finish s (((WritesRes.refl 2 s).setRes (by decide) _).setRes (by decide) _))

theorem endsIn_score (s : State) : EndsIn s (WritesRes 6 s) (exec .score s) := by
  simp only [exec, execScore]
  exact .withModuleCount (.finish s (.scored s _))

/-- How many result registers, from RES0 on, a command that writes nothing else may write. -/
def resultsWritten : Instr → Nat
  | .nop => 0
  | .apos _ => 2
  | .score => 6
  | _ => 1

theorem resultsWritten_le_six (i : Instr) : resultsWritten i ≤ 6 := by unfold resultsWritten; split <;> decide

section ResultCommands

variable {a b : Byte} {d : BitVec 5} {v : BitVec 6} {m : BitVec 3} {i : Instr}
  (hi : i ∈ [Instr.nop, .gfmul a b, .gfexp a, .gflog a, .bchf d, .bchv v, .maskfn m a b, .apos a, .score])
include hi

theorem endsIn_resultCommand (s : State) : EndsIn s (WritesRes (resultsWritten i) s) (exec i s) := by
  simp only [List.mem_cons, List.not_mem_nil, or_false] at hi
  rcases hi with rfl | rfl | rfl | rfl | rfl | rfl | rfl | rfl | rfl
  exacts [.finish s (.refl 0 s), endsIn_setRes_zero s _, endsIn_setRes_zero s _, endsIn_gflog a s,
    endsIn_setRes_zero s _, endsIn_setRes_zero s _, endsIn_setRes_zero s _, endsIn_apos a s, endsIn_score s]

theorem resultsWritten_le_one (hapos : i ≠ .apos a) (hscore : i ≠ .score) : resultsWritten i ≤ 1 := by
  simp only [List.mem_cons, List.not_mem_nil, or_false, hapos, hscore] at hi
  rcases hi with rfl | rfl | rfl | rfl | rfl | rfl | rfl <;> simp [resultsWritten]

end ResultCommands

/-- Settles O28: each command of the list writes the first `resultsWritten` result registers at most. -/
theorem resultRegisterCommandsFrame : Obligations.ResultRegisterCommandsFrame := by
  unfold Obligations.ResultRegisterCommandsFrame
  intro a b d v m s t i hi h
  have hframe : t = { s with status := t.status, res := t.res } ∧
      ∀ k : Fin 8, resultsWritten i ≤ k.val → t.res[k] = s.res[k] := by
    rcases endsIn_resultCommand hi s with ⟨e, he⟩ | ⟨_, ⟨r, rfl, hr⟩, he⟩ <;>
      obtain rfl := Host.Outcome.next.inj (he.symm.trans h)
    · exact ⟨rfl, fun _ _ => rfl⟩
    · exact ⟨rfl, hr⟩
  obtain ⟨ht, hres⟩ := hframe
  refine ⟨ht, fun x => by rw [ht], ?_, fun k hk hapos hscore => ?_, ?_, fun k hk => ?_⟩
  · rintro rfl
    exact Vector.ext fun k hk => hres ⟨k, hk⟩ (Nat.zero_le k)
  · exact hres k ((resultsWritten_le_one hi hapos hscore).trans (Nat.one_le_iff_ne_zero.mpr (Fin.val_ne_of_ne hk)))
  · rintro k hk rfl
    exact hres k hk
  · exact hres k ((resultsWritten_le_six i).trans hk)

end Sys2Proof.Machine

/-! PROOF. APOS and its table (10_state.md R32, 44_grid.md R197). -/

namespace Sys2Proof.Machine

/-- The number of alignment positions of version `v`. -/
def alignmentCount (v : Nat) : Nat := if v = 1 then 0 else v / 7 + 2

/-- What R32 says of the row of version `v`: its length, its order, its first position and the steps back from its last. -/
abbrev AlignmentRow (v : Nat) (pos : List Nat) : Prop :=
  pos.length = alignmentCount v ∧ pos.Pairwise (· < ·) ∧ (v ≠ 1 → pos[0]? = some 6) ∧
    ∀ j < alignmentCount v, 1 ≤ j →
      pos[j]? = some (4 * v + 10 - (alignmentCount v - 1 - j) * Ref.alignmentStep v (alignmentCount v))

/-- The forty rows of the table, each checked. -/
theorem aposTable_row : ∀ v < 41, 1 ≤ v → AlignmentRow v (aposTable v) := by decide

/-- Settles O43: the command's equation, and the row of the table. -/
theorem aposReadsTheAlignmentTable : Obligations.AposReadsTheAlignmentTable := by
  unfold Obligations.AposReadsTheAlignmentTable
  intro k s hv
  obtain ⟨hlength, hsorted, hfirst, hsteps⟩ := aposTable_row s.version.toNat (Nat.lt_succ_of_le hv.2) hv.1
  refine ⟨?_, hlength, hsorted, hfirst, fun j hj hjc => hsteps j hjc hj⟩
  rw [exec_apos hv, hlength]
  rfl

end Sys2Proof.Machine

/-! PROOF. The host's writes to STATUS and CTRL (10_state.md R22, R23), the resets (70_reset_and_hazards.md R280, R281) and the
IRQ line (10_state.md R37). -/

namespace Sys2Proof.Machine

/-! Writes that BUSY does not discard (70_reset_and_hazards.md R285). -/

section Writes

variable {s : State} {v : Word} {rest : List HostEvent}

theorem step_write_unguarded {off : Nat} (hi : s.inputs = .hostWrite 4 off v :: rest) (h : off % 4 = 0)
    (h' : off < 0x80000) {t : Target} (ht : targetOf off = t) (hg : t.guarded = false) :
    step s = .next ((State.writeTarget { s with inputs := rest } v t).reply .accepted) := by
  rw [step_hostWrite hi, hostWrite_legal _ _ h h', ht, hostWriteTarget_performed (.inr hg)]

theorem step_write_ctrl (hi : s.inputs = .hostWrite 4 0x0004 v :: rest) :
    step s = .next ((State.writeCtrl { s with inputs := rest } v).reply .accepted) :=
  step_write_unguarded hi (by decide) (by decide) (t := .ctrl) rfl rfl

theorem step_write_status (hi : s.inputs = .hostWrite 4 0x0008 v :: rest) :
    step s = .next ((State.acknowledge { s with inputs := rest } v).reply .accepted) :=
  step_write_unguarded hi (by decide) (by decide) (t := .status) rfl rfl

end Writes

theorem writeCtrl_reset (s : State) {v : Word} (h : v.getLsbD 31 = true) : s.writeCtrl v = s.powerOnReset := if_pos h

theorem writeCtrl_enables (s : State) {v : Word} (h : v.getLsbD 31 = false) :
    s.writeCtrl v = { s with ctrl := { ie := v.getLsbD 0, eie := v.getLsbD 1 } } :=
  if_neg (Bool.not_eq_true _ ▸ h)

/-- Settles O55: BUSY does not guard STATUS, and the write is an acknowledgement. -/
theorem statusWriteClearsWhereItHasOnes : Obligations.StatusWriteClearsWhereItHasOnes := by
  unfold Obligations.StatusWriteClearsWhereItHasOnes
  intro s v rest hi
  refine ⟨_, step_write_status hi, rfl, ?_, ?_, ?_, rfl⟩
  · cases h : v.getLsbD 1 <;> simp [h, ← BitVec.getLsbD_eq_getElem]
  · cases h : v.getLsbD 2 <;> simp [h, ← BitVec.getLsbD_eq_getElem]
  · cases h : v.getLsbD 3 <;> simp [h, ← BitVec.getLsbD_eq_getElem]

/-! Resets. -/

theorem reset_ctrl_word : State.reset.ctrl.word = 0 := by decide

theorem reset_status_word : State.reset.status.word = 0 := by decide

/-- Settles O56: both resets are `powerOnReset`, whose fields are the reset state's. -/
theorem controlWriteResetsOrSetsEnables : Obligations.ControlWriteResetsOrSetsEnables := by
  unfold Obligations.ControlWriteResetsOrSetsEnables
  intro s v rest isReset
  have hreset (r : BusReply) : isReset ((State.powerOnReset { s with inputs := rest }).reply r) := by
    refine ⟨reset_ctrl_word, reset_status_word, rfl, rfl, rfl, rfl, rfl, fun k => ?_, fun p => ?_, fun _ => rfl, rfl, rfl,
      rfl, rfl⟩
    · simp [State.reset]
    · simp [State.reset]
  refine ⟨fun hi => ⟨_, step_powerOn hi, hreset s.bus⟩, fun hi hv => ⟨_, step_write_ctrl hi, ?_⟩, fun hi hv => ?_⟩
  · rw [writeCtrl_reset _ hv]
    exact hreset .accepted
  · rw [step_write_ctrl hi, writeCtrl_enables _ hv]
    rfl

/-! The IRQ line. -/

theorem irq_iff (s : State) :
    s.irq = true ↔ (s.ctrl.ie = true ∧ s.status.done = true) ∨ (s.ctrl.eie = true ∧ s.status.err = true) := by
  simp [State.irq]

@[simp] theorem irq_reply (s : State) (r : BusReply) : (s.reply r).irq = s.irq := rfl

/-- A command leaves CTRL alone and ends with DONE = 1. -/
theorem exec_ctrl_done {i : Instr} {s t : State} (h : exec i s = .next t) :
    t.ctrl = s.ctrl ∧ t.status.done = true := by
  rcases exec_cases i s with ⟨e, he⟩ | ⟨u, hu, he⟩ <;> obtain rfl := Host.Outcome.next.inj (he.symm.trans h)
  · exact ⟨rfl, rfl⟩
  · exact ⟨hu.same_fields.1, rfl⟩

theorem irq_acknowledge (s : State) (v : Word) :
    (s.acknowledge v).irq = true ↔ (s.ctrl.ie = true ∧ s.status.done = true ∧ v.getLsbD 1 = false) ∨
      (s.ctrl.eie = true ∧ s.status.err = true ∧ v.getLsbD 2 = false) := by
  simp [irq_iff, BitVec.getLsbD_eq_getElem]

theorem irq_writeCtrl (s : State) (v : Word) :
    (s.writeCtrl v).irq = true ↔ v.getLsbD 31 = false ∧ ((v.getLsbD 0 = true ∧ s.status.done = true) ∨
      (v.getLsbD 1 = true ∧ s.status.err = true)) := by
  cases h : v.getLsbD 31 with
  | true => simp [writeCtrl_reset s h, irq_iff, State.reset]
  | false => simp [writeCtrl_enables s h, irq_iff]

/-- Settles O60: the line's equation, and what each event leaves of DONE, ERR and the enables. -/
theorem irqFollowsCompletionAndError : Obligations.IrqFollowsCompletionAndError := by
  unfold Obligations.IrqFollowsCompletionAndError
  intro s
  refine ⟨irq_iff s, fun i t h => ?_, fun v rest hi => ⟨_, step_write_status hi, ?_⟩,
    fun v rest hi => ⟨_, step_write_ctrl hi, ?_⟩, fun w rest hb hi => ?_⟩
  · obtain ⟨hctrl, hdone⟩ := exec_ctrl_done h
    simp [irq_iff, hctrl, hdone]
  · exact irq_acknowledge { s with inputs := rest } v
  · exact irq_writeCtrl { s with inputs := rest } v
  · refine ⟨_, step_write_idle hb hi (by decide) (by decide) (t := .cmd) rfl, ?_⟩
    simp [State.irq, State.writeTarget]

end Sys2Proof.Machine

/-! PROOF. What the registers and the elements read as, and that a written field reads back (10_state.md R21 to R28, R33 to R35,
20_memory.md R64, R68). -/

namespace Sys2Proof.Machine

/-! The words of the fields. -/

theorem readTarget_cell_toNat (s : State) (off : Nat) :
    (s.readTarget (.cell off)).toNat = (s.mem.read off).toNat % 4 := by
  simp only [State.readTarget]
  rw [BitVec.toNat_setWidth_of_le (by decide), BitVec.toNat_setWidth]

/-- The number a polynomial register has in the map. -/
theorem snd_eq_idx {z : PReg × Nat} (h : z ∈ [(PReg.p0, 0), (PReg.p1, 1), (PReg.p2, 2), (PReg.p3, 3)]) :
    z.2 = z.1.idx.val := by
  simp only [List.mem_cons, List.not_mem_nil, or_false] at h
  rcases h with rfl | rfl | rfl | rfl <;> rfl

theorem poly_getElem? (s : State) (p : PReg) {i : Nat} (h : i < s.plen[p.idx].toNat) :
    (s.poly p)[i]? = some (s.mem.read (coefAddr p i)) := by
  simp only [State.poly, List.getElem?_map, List.getElem?_range h, Option.map_some]

/-- Settles O59: each offset by the target the map gives it. -/
theorem idStatusAndModcntRead : Obligations.IdStatusAndModcntRead := by
  unfold Obligations.IdStatusAndModcntRead
  intro s off rest answers
  refine ⟨fun hi => ?_, fun v hi hoff => ?_⟩
  · have hplain {t : Target} (h4 : off % 4 = 0) (hlt : off < 0x80000) (ht : targetOf off = t)
        (he : s.status.busy = false ∨ t.engineWritten = none) {n : Nat} (hn : (s.readTarget t).toNat = n) : answers n :=
      step_read_plain hi h4 hlt ht he hn
    refine ⟨?_, ?_, ?_, ?_, ?_, ?_, ?_, ?_, ?_, fun hb => ⟨?_, fun k => ⟨?_, ?_⟩, fun z hz => ⟨?_, ?_⟩, ?_⟩⟩
    · rintro rfl; exact hplain (by decide) (by decide) (t := .id) rfl (.inr rfl) rfl
    · rintro rfl; exact hplain (by decide) (by decide) (t := .ctrl) rfl (.inr rfl) (Ctrl.word_toNat _)
    · rintro rfl; exact hplain (by decide) (by decide) (t := .status) rfl (.inr rfl) (Status.word_toNat _)
    · rintro rfl; exact hplain (by decide) (by decide) (t := .cmd) rfl (.inr rfl) rfl
    · rintro rfl
      exact hplain (by decide) (by decide) (t := .version) rfl (.inr rfl) (BitVec.toNat_setWidth_of_le (by decide))
    · rintro rfl; exact hplain (by decide) (by decide) (t := .ecl) rfl (.inr rfl) (BitVec.toNat_setWidth_of_le (by decide))
    · rintro rfl; exact hplain (by decide) (by decide) (t := .cwlen) rfl (.inr rfl) (BitVec.toNat_setWidth_of_le (by decide))
    · rintro rfl; exact hplain (by decide) (by decide) (t := .modcnt) rfl (.inr rfl) (modcnt_toNat s)
    · rintro i hlt rfl
      exact hplain (by omega) (by omega) (targetOf_cw hlt) (.inr rfl) (BitVec.toNat_setWidth_of_le (by decide))
    · rintro rfl; exact hplain (by decide) (by decide) (t := .mask) rfl (.inl hb) (BitVec.toNat_setWidth_of_le (by decide))
    · rintro rfl; exact hplain (by omega) (by omega) (targetOf_res k.isLt) (.inl hb) rfl
    · rintro rfl; exact hplain (by omega) (by omega) (targetOf_tscore k.isLt) (.inl hb) rfl
    · have hlt := z.1.idx.isLt
      rw [snd_eq_idx hz]
      rintro rfl
      exact ⟨hplain (by omega) (by omega) (targetOf_plen hlt) (.inl hb) (BitVec.toNat_setWidth_of_le (by decide)),
        s.poly_length z.1⟩
    · rw [snd_eq_idx hz]
      rintro i hlt rfl
      obtain ⟨h1, h2⟩ := coefAddr_lt z.1 hlt
      exact ⟨hplain (by omega) (by omega) (targetOf_coef h1 h2) (.inl hb) (BitVec.toNat_setWidth_of_le (by decide)),
        poly_getElem? s z.1⟩
    · rintro r c hr hc rfl
      exact hplain (by omega) (by omega) (targetOf_cell hr hc) (.inl hb) (readTarget_cell_toNat s _)
  · have hignored {t : Target} (h4 : off % 4 = 0) (hlt : off < 0x80000) (ht : targetOf off = t)
        (hg : t.guarded = false) (hw : State.writeTarget { s with inputs := rest } v t = { s with inputs := rest }) :
        step s = .next { s with inputs := rest, bus := .accepted } := by
      rw [step_write_unguarded hi h4 hlt ht hg, hw]
      rfl
    rcases hoff with rfl | rfl | ⟨k, hk, rfl | rfl⟩
    · exact hignored (by decide) (by decide) (t := .id) rfl rfl rfl
    · exact hignored (by decide) (by decide) (t := .modcnt) rfl rfl rfl
    · exact hignored (by omega) (by omega) (targetOf_res hk) rfl rfl
    · exact hignored (by omega) (by omega) (targetOf_tscore hk) rfl rfl

/-! Written fields. -/

/-- The width of a target's field when it is the host's to write. -/
def Target.fieldWidth : Target → Option Nat
  | .version => some 6
  | .ecl => some 2
  | .mask => some 3
  | .cwlen => some 13
  | .plen _ => some 9
  | .coef _ | .cw _ => some 8
  | .cell _ => some 2
  | _ => none

/-- The word is one the target takes: a cell ignores code 3 (10_state.md R35). -/
def Target.takes (v : Word) : Target → Prop
  | .cell _ => v.toNat % 4 ≠ 3
  | _ => True

theorem setWidth_two_eq_three (v : Word) : v.setWidth 2 = 3#2 ↔ v.toNat % 4 = 3 := by
  rw [← BitVec.toNat_inj, BitVec.toNat_setWidth]
  rfl

theorem cellByte_toNat (v : Word) : ((v.setWidth 2).setWidth 8 : Byte).toNat = v.toNat % 4 := by
  rw [BitVec.toNat_setWidth_of_le (by decide), BitVec.toNat_setWidth]

theorem writeTarget_cell_three {v : Word} (h : v.toNat % 4 = 3) (s : State) (off : Nat) :
    s.writeTarget v (.cell off) = s :=
  if_pos ((setWidth_two_eq_three v).mpr h)

theorem writeTarget_cell {v : Word} (h : v.toNat % 4 ≠ 3) (s : State) (off : Nat) :
    s.writeTarget v (.cell off) = s.setMem (s.mem.write off ((v.setWidth 2).setWidth 8)) :=
  if_neg (mt (setWidth_two_eq_three v).mp h)

/-- A write to a field leaves STATUS and the schedule alone. -/
theorem writeTarget_status_inputs {s : State} {v : Word} {t : Target} {w : Nat} (h : t.fieldWidth = some w) :
    (s.writeTarget v t).status = s.status ∧ (s.writeTarget v t).inputs = s.inputs := by
  cases t with
  | id | ctrl | status | cmd | modcnt | res | tscore | unmapped => simp [Target.fieldWidth] at h
  | version | ecl | mask | cwlen | plen | coef | cw => exact ⟨rfl, rfl⟩
  | cell off => simp only [State.writeTarget]; split <;> exact ⟨rfl, rfl⟩

theorem readTarget_writeTarget {s : State} (hw : s.mem.wf = true) {v : Word} {t : Target} {w : Nat}
    (h : t.fieldWidth = some w) (hv : t.takes v) : ((s.writeTarget v t).readTarget t).toNat = v.toNat % 2 ^ w := by
  cases t with
  | id | ctrl | status | cmd | modcnt | res | tscore | unmapped => simp [Target.fieldWidth] at h
  | version | ecl | mask | cwlen =>
    obtain rfl := Option.some.inj h
    simp only [State.writeTarget, State.readTarget, State.setMask]
    rw [BitVec.toNat_setWidth_of_le (by decide), BitVec.toNat_setWidth]
  | plen p =>
    obtain rfl := Option.some.inj h
    simp only [State.writeTarget, State.readTarget, Fin.getElem_fin, Vector.getElem_set_self]
    rw [BitVec.toNat_setWidth_of_le (by decide), BitVec.toNat_setWidth]
  | coef off | cw off =>
    obtain rfl := Option.some.inj h
    simp only [State.writeTarget, State.readTarget, State.setMem]
    rw [Memory.read_write hw, if_pos rfl, BitVec.toNat_setWidth_of_le (by decide), BitVec.toNat_setWidth]
  | cell off =>
    obtain rfl := Option.some.inj h
    rw [readTarget_cell_toNat, writeTarget_cell hv, State.setMem_mem, Memory.read_write hw, if_pos rfl, cellByte_toNat]
    exact Nat.mod_mod _ _

@[simp] theorem readTarget_reply (s : State) (r : BusReply) (t : Target) : (s.reply r).readTarget t = s.readTarget t := by
  cases t <;> rfl

/-- A word written to a field of the idle engine and read at once. -/
theorem run_write_read {s : State} {off : Nat} {v : Word} {rest : List HostEvent} (hw : s.mem.wf = true)
    (hb : s.status.busy = false) (hi : s.inputs = .hostWrite 4 off v :: .hostRead 4 off :: rest) (h4 : off % 4 = 0)
    (hlt : off < 0x80000) {w : Nat} (hf : (targetOf off).fieldWidth = some w) (hv : (targetOf off).takes v) :
    ∃ t, Host.Core.run core 2 s = .next t ∧ t.inputs = rest ∧ t.bus = .data (BitVec.ofNat 32 (v.toNat % 2 ^ w)) := by
  obtain ⟨hstatus, hinputs⟩ :=
    writeTarget_status_inputs (s := { s with inputs := .hostRead 4 off :: rest }) (v := v) hf
  have hidle := (congrArg Status.busy hstatus).trans hb
  have hread := readTarget_writeTarget (s := { s with inputs := .hostRead 4 off :: rest }) hw hf hv
  rw [← readTarget_reply _ .accepted] at hread
  have hstep := step_read_plain (s := (State.writeTarget _ v (targetOf off)).reply .accepted) hinputs h4 hlt rfl
    (.inl hidle) hread
  exact ⟨_, (run_next 1 (step_write_idle hb hi h4 hlt rfl)).trans (run_next 0 hstep), rfl, rfl⟩

/-- The offsets of the fields a host may write, with their widths (20_memory.md R61). -/
theorem field_of_offset {off w : Nat} {v : Word}
    (h : (off = 0x0010 ∧ w = 6) ∨ (off = 0x0014 ∧ w = 2) ∨ (off = 0x0018 ∧ w = 3) ∨ (off = 0x001C ∧ w = 13) ∨
      (∃ p < 4, off = 0x0030 + 4 * p ∧ w = 9) ∨
      (∃ p i, p < 4 ∧ i < 256 ∧ off = 0x1000 + 0x400 * p + 4 * i ∧ w = 8) ∨
      (∃ i < 4096, off = 0x4000 + 4 * i ∧ w = 8) ∨
      (∃ r c, r < 177 ∧ c < 177 ∧ off = 0x10000 + 4 * (256 * r + c) ∧ w = 2 ∧ v.toNat % 4 ≠ 3)) :
    off % 4 = 0 ∧ off < 0x80000 ∧ (targetOf off).fieldWidth = some w ∧ (targetOf off).takes v := by
  rcases h with ⟨rfl, rfl⟩ | ⟨rfl, rfl⟩ | ⟨rfl, rfl⟩ | ⟨rfl, rfl⟩ | ⟨p, hp, rfl, rfl⟩ | ⟨p, i, hp, hi, rfl, rfl⟩ |
    ⟨i, hi, rfl, rfl⟩ | ⟨r, c, hr, hc, rfl, rfl, hv⟩
  · exact ⟨rfl, by decide, rfl, trivial⟩
  · exact ⟨rfl, by decide, rfl, trivial⟩
  · exact ⟨rfl, by decide, rfl, trivial⟩
  · exact ⟨rfl, by decide, rfl, trivial⟩
  · rw [targetOf_plen hp]
    exact ⟨by omega, by omega, rfl, trivial⟩
  · rw [targetOf_coef (by omega) (by omega)]
    exact ⟨by omega, by omega, rfl, trivial⟩
  · rw [← cwAddr, targetOf_cw hi]
    exact ⟨by unfold cwAddr; omega, by unfold cwAddr; omega, rfl, trivial⟩
  · rw [← cellAddr, targetOf_cell hr hc]
    exact ⟨by unfold cellAddr; omega, by unfold cellAddr; omega, rfl, hv⟩

/-- A byte written to an element of the idle engine. -/
theorem step_write_byte {s : State} {off : Nat} {v : Word} {rest : List HostEvent} (hw : s.mem.wf = true)
    (hb : s.status.busy = false) (hi : s.inputs = .hostWrite 4 off v :: rest) (h4 : off % 4 = 0) (hlt : off < 0x80000)
    {b : Byte} (ht : ∀ u : State, u.writeTarget v (targetOf off) = u.setMem (u.mem.write off b)) {n : Nat}
    (hn : b.toNat = n) :
    ∃ m : Memory, step s = .next { s with mem := m, inputs := rest, bus := .accepted } ∧ m.wf = true ∧
      (m.read off).toNat = n ∧ ∀ a ≠ off, m.read a = s.mem.read a := by
  refine ⟨s.mem.write off b, ?_, Memory.wf_write hw off b, ?_, fun a ha => Memory.read_write_other s.mem b ha⟩
  · rw [step_write_idle hb hi h4 hlt rfl, ht]
    rfl
  · rw [Memory.read_write hw, if_pos rfl, hn]

/-- Settles O57: each write by its target's, and the read after it by `run_write_read`. -/
theorem writtenElementReadsBackItsField : Obligations.WrittenElementReadsBackItsField := by
  unfold Obligations.WrittenElementReadsBackItsField
  intro s off v rest hw hb hi leaves stores
  have hleaves {t : Target} {u : State} (h4 : off % 4 = 0) (hlt : off < 0x80000) (ht : targetOf off = t)
      (hu : (State.writeTarget { s with inputs := rest } v t).reply .accepted =
        { u with inputs := rest, bus := .accepted }) :
      leaves u := by
    show step s = _
    rw [step_write_idle hb hi h4 hlt ht, hu]
  simp only [BitVec.ofNat_toNat]
  refine ⟨?_, ?_, ?_, ?_, fun p => ?_, ?_, ?_, ?_, ?_⟩
  · rintro rfl; exact hleaves (by decide) (by decide) (t := .version) rfl rfl
  · rintro rfl; exact hleaves (by decide) (by decide) (t := .ecl) rfl rfl
  · rintro rfl; exact hleaves (by decide) (by decide) (t := .mask) rfl rfl
  · rintro rfl; exact hleaves (by decide) (by decide) (t := .cwlen) rfl rfl
  · rintro rfl; exact hleaves (by omega) (by omega) (targetOf_plen p.isLt) rfl
  · rintro p i hp hi' rfl
    refine step_write_byte hw hb hi (by omega) (by omega) (fun u => ?_) (BitVec.toNat_setWidth 8 v)
    rw [targetOf_coef (by omega) (by omega)]
    rfl
  · rintro i hi' rfl
    refine step_write_byte hw hb hi (by omega) (by omega) (fun u => ?_) (BitVec.toNat_setWidth 8 v)
    rw [← cwAddr, targetOf_cw hi']
    rfl
  · rintro r c hr hc rfl
    split
    next hv =>
      exact hleaves (by omega) (by omega) (targetOf_cell hr hc) (by rw [writeTarget_cell_three hv]; rfl)
    next hv =>
      refine step_write_byte hw hb hi (by omega) (by omega) (fun u => ?_) (cellByte_toNat v)
      rw [← cellAddr, targetOf_cell hr hc, writeTarget_cell hv]
  · rintro width rest' rfl hfield
    obtain ⟨h4, hlt, hf, htakes⟩ := field_of_offset hfield
    exact run_write_read hw hb hi h4 hlt hf htakes

end Sys2Proof.Machine

/-! PROOF. What a host access leaves alone: a refused access (20_memory.md R62, 60_exceptions.md R256), a read (20_memory.md R68)
and an access to an offset that holds nothing (20_memory.md R63). -/

namespace Sys2Proof.Machine

/-! Offsets that hold nothing. -/

/-- Settles O58: the map gives such an offset no target, an unmapped read is not drawn, and BUSY does not guard an unmapped
write. -/
theorem unmappedOffsetsReadZeroAndIgnoreWrites : Obligations.UnmappedOffsetsReadZeroAndIgnoreWrites := by
  unfold Obligations.UnmappedOffsetsReadZeroAndIgnoreWrites
  intro s off v rest h4 hoff
  have htarget : targetOf off = .unmapped := targetOf_unmapped hoff
  have hlt : off < 0x80000 := by
    rcases hoff with h | h | h | h | h | ⟨r, c, hr, hc, -, rfl⟩ <;> omega
  refine ⟨fun hi => ?_, fun hi => ?_⟩
  · exact step_read_plain hi h4 hlt htarget (.inr rfl) rfl
  · rw [step_write_unguarded hi h4 hlt htarget rfl]
    rfl

/-! Refused accesses. -/

/-- Settles O50: the refusal comes before the map and before BUSY. -/
theorem refusedAccessChangesNothing : Obligations.RefusedAccessChangesNothing := by
  unfold Obligations.RefusedAccessChangesNothing
  rintro s bytes off v rest hrefused (hi | hi)
  · rw [step_hostRead hi, hostRead_refused _ hrefused]
    rfl
  · rw [step_hostWrite hi, hostWrite_refused _ v hrefused]
    rfl

/-! Reads. -/

/-- The state differs from `s` in the bus's answer and the count of drawn values alone, and in the count only under
BUSY = 1. -/
def ReadChanges (s t : State) : Prop :=
  t = { s with bus := t.bus, draws := t.draws } ∧ (s.status.busy = false → t.draws = s.draws)

theorem ReadChanges.reply (s : State) (r : BusReply) : ReadChanges s (s.reply r) := ⟨rfl, fun _ => rfl⟩

theorem ReadChanges.hostReadTarget (s : State) (t : Target) : ReadChanges s (s.hostReadTarget t) := by
  cases hb : s.status.busy with
  | false => rw [hostReadTarget_plain (.inl hb)]; exact .reply s _
  | true =>
    cases he : t.engineWritten with
    | none => rw [hostReadTarget_plain (.inr he)]; exact .reply s _
    | some w =>
      rw [hostReadTarget_drawn hb he]
      exact ⟨rfl, fun hidle => absurd (hb.symm.trans hidle) (by decide)⟩

theorem ReadChanges.hostRead (s : State) (bytes off : Nat) : ReadChanges s (s.hostRead bytes off) := by
  unfold State.hostRead
  split
  · exact .hostReadTarget s _
  · exact .reply s _

/-- Settles O51: the step is the read, and a read changes what `ReadChanges` says. -/
theorem hostReadChangesNoEngineState : Obligations.HostReadChangesNoEngineState := by
  unfold Obligations.HostReadChangesNoEngineState
  intro s bytes off rest hi
  exact ⟨_, step_hostRead hi, ReadChanges.hostRead { s with inputs := rest } bytes off⟩

end Sys2Proof.Machine

/-! PROOF. The decoder against the encoder (30_encoding.md R90 to R96): every opcode is decoded by its one row, a legal
word is cut into its fields without loss, and the assembler reads back what is written for a command (R98). -/

namespace Sys2Proof

/-! Slices of a word. -/

/-- Two adjacent slices, side by side, are one slice. -/
theorem append_eq_slice {w : Word} {s n m : Nat} {x : BitVec n} {y : BitVec m} (hx : x = w.extractLsb' (s + m) n)
    (hy : y = w.extractLsb' s m) : x ++ y = w.extractLsb' s (n + m) := by
  rw [hx, hy, BitVec.extractLsb'_append_extractLsb'_eq_extractLsb' rfl]

/-- The legality test sees a slice that the format fixes as it is. -/
theorem Format.slice_and_mask (f : Format) (w : Word) {s n : Nat} (h : f.mask.extractLsb' s n = BitVec.allOnes n) :
    (w &&& f.mask).extractLsb' s n = w.extractLsb' s n := by
  rw [BitVec.extractLsb'_and, h, BitVec.and_allOnes]

/-- Every format fixes the opcode, so a word that passes the test of a row has its opcode. -/
theorem opcOf_of_legal {f : Format} {w : Word} {b : Byte} (h : w &&& f.mask = b ++ 0#24) : opcOf w = b := by
  rw [opcOf, ← f.slice_and_mask w (by cases f <;> rfl), h, BitVec.extractLsb'_append_eq_left]

/-- A legal word is 0 in every slice below the opcode that its format fixes. -/
theorem zero_eq_slice_of_legal {f : Format} {w : Word} {b : Byte} (h : w &&& f.mask = b ++ 0#24) {s n : Nat}
    (hs : s + n ≤ 24) (hf : f.mask.extractLsb' s n = BitVec.allOnes n) : 0#n = w.extractLsb' s n := by
  rw [← f.slice_and_mask w hf, h, BitVec.extractLsb'_append_eq_of_add_le hs, BitVec.extractLsb'_zero]

/-! A row's command, with the operands of a word. -/

theorem regOf_bits (p : PReg) : regOf p.bits = p := by cases p <;> rfl

theorem bits_regOf : ∀ b : BitVec 2, (regOf b).bits = b := by decide

/-- The command of `i`'s row whose operands are the fields of `w` (30_encoding.md R92, R93). -/
def Instr.withFields (w : Word) : Instr → Instr
  | .gfmul _ _ => .gfmul (fieldA w) (fieldB w)
  | .gfexp _ => .gfexp (fieldB w)
  | .gflog _ => .gflog (fieldB w)
  | .pmul _ _ _ => .pmul (fieldRD w) (fieldRS w) (fieldRT w)
  | .pmod _ _ _ => .pmod (fieldRD w) (fieldRS w) (fieldRT w)
  | .genpoly _ _ => .genpoly (fieldRD w) (fieldB w)
  | .rsenc _ _ _ => .rsenc (fieldRD w) (fieldRS w) (fieldB w)
  | .bchf _ => .bchf (fieldImm5 w)
  | .bchv _ => .bchv (fieldImm6 w)
  | .apos _ => .apos (fieldB w)
  | .maskfn _ _ _ => .maskfn (fieldM w) (fieldA w) (fieldB w)
  | i => i

theorem Instr.withFields_opc (w : Word) (i : Instr) : (i.withFields w).opc = i.opc := by cases i <;> rfl

/-- A slice below the opcode of a command's word is one of its operand bits. -/
theorem slice_encode (i : Instr) {s n : Nat} (h : s + n ≤ 24) :
    (encode i).extractLsb' s n = i.operandBits.extractLsb' s n := BitVec.extractLsb'_append_eq_of_add_le h

/-- The fields of a command's word are its operands. -/
theorem Instr.withFields_encode (i : Instr) : i.withFields (encode i) = i := by
  cases i with
  | nop | gclear | gfinder | galign | gtiming | gformat | gversion | gmap | gbuild | score | best => rfl
  | _ =>
    simp (disch := decide) only [Instr.withFields, fieldA, fieldB, fieldRD, fieldRS, fieldRT, fieldImm5, fieldImm6,
      fieldM, slice_encode, Instr.operandBits, BitVec.extractLsb'_append_eq_of_le,
      BitVec.extractLsb'_append_eq_of_add_le, Nat.reduceSub, BitVec.extractLsb'_eq_self, regOf_bits]

/-- Three register fields above 18 reserved bits (format R3). -/
theorem operandBits_r3 {w : Word} (h : 0#18 = w.extractLsb' 0 18) :
    (fieldRD w).bits ++ (fieldRS w).bits ++ (fieldRT w).bits ++ 0#18 = w.extractLsb' 0 24 :=
  append_eq_slice (append_eq_slice (append_eq_slice (bits_regOf _) (bits_regOf _)) (bits_regOf _)) h

/-- The fields and the reserved zeros of a legal word are all of its bits below the opcode. -/
theorem operandBits_withFields {i : Instr} {w : Word} (h : w &&& i.format.mask = i.opc ++ 0#24) :
    (i.withFields w).operandBits = w.extractLsb' 0 24 := by
  have zero (f : Format) (hi : i.format = f) {s n : Nat} (hs : s + n ≤ 24)
      (hf : f.mask.extractLsb' s n = BitVec.allOnes n) : 0#n = w.extractLsb' s n :=
    zero_eq_slice_of_legal (hi ▸ h) hs hf
  cases i with
  | gfmul => exact append_eq_slice (append_eq_slice (zero .ab rfl (by decide) (by decide)) rfl) rfl
  | gfexp | gflog | apos => exact append_eq_slice (zero .i8 rfl (by decide) (by decide)) rfl
  | pmul | pmod => exact operandBits_r3 (zero .r3 rfl (by decide) (by decide))
  | genpoly =>
    exact append_eq_slice (append_eq_slice (bits_regOf _) (zero .rn rfl (by decide) (by decide))) rfl
  | rsenc =>
    exact append_eq_slice (append_eq_slice (append_eq_slice (bits_regOf _) (bits_regOf _))
      (zero .r2n rfl (by decide) (by decide))) rfl
  | bchf => exact append_eq_slice (zero .i5 rfl (by decide) (by decide)) rfl
  | bchv => exact append_eq_slice (zero .i6 rfl (by decide) (by decide)) rfl
  | maskfn =>
    exact append_eq_slice (append_eq_slice (append_eq_slice (zero .m rfl (by decide) (by decide)) rfl) rfl) rfl
  | nop | gclear | gfinder | galign | gtiming | gformat | gversion | gmap | gbuild | score | best =>
    exact zero .n rfl (by decide) (by decide)

/-- A legal word is the word of its row's command with its fields. -/
theorem encode_withFields {i : Instr} {w : Word} (h : w &&& i.format.mask = i.opc ++ 0#24) :
    encode (i.withFields w) = w := by
  rw [encode, i.withFields_opc, operandBits_withFields h, ← opcOf_of_legal h]
  exact (append_eq_slice rfl rfl).trans BitVec.extractLsb'_eq_self

/-- Every command's word passes its row's test (30_encoding.md R94). -/
theorem legal_encode : ∀ i : Instr, encode i &&& i.format.mask = i.opc ++ 0#24
  | .nop => Laws.Legal.nop
  | .gfmul a b => Laws.Legal.gfmul a b
  | .gfexp i => Laws.Legal.gfexp i
  | .gflog a => Laws.Legal.gflog a
  | .pmul pd ps pt => Laws.Legal.pmul pd ps pt
  | .pmod pd ps pt => Laws.Legal.pmod pd ps pt
  | .genpoly pd n => Laws.Legal.genpoly pd n
  | .rsenc pd ps n => Laws.Legal.rsenc pd ps n
  | .bchf d => Laws.Legal.bchf d
  | .bchv v => Laws.Legal.bchv v
  | .gclear => Laws.Legal.gclear
  | .gfinder => Laws.Legal.gfinder
  | .galign => Laws.Legal.galign
  | .gtiming => Laws.Legal.gtiming
  | .gformat => Laws.Legal.gformat
  | .gversion => Laws.Legal.gversion
  | .gmap => Laws.Legal.gmap
  | .gbuild => Laws.Legal.gbuild
  | .apos k => Laws.Legal.apos k
  | .maskfn m row col => Laws.Legal.maskfn m row col
  | .score => Laws.Legal.score
  | .best => Laws.Legal.best

/-! The decoder. -/

/-- An opcode's word is put to the test of the opcode's row. -/
theorem decode_of_opc {w : Word} {i : Instr} (h : opcOf w = i.opc) :
    decode w = legalAs i.format w (i.withFields w) := by
  unfold decode
  rw [h]
  cases i <;> rfl

/-- A word decodes as a row's command whose opcode it has, or has an unknown opcode. -/
theorem decode_cases (w : Word) :
    (∃ f i, decode w = legalAs f w i ∧ opcOf w = i.opc) ∨ decode w = .illegal .unknownOpcode := by
  unfold decode
  split
  case h_23 => exact .inr rfl
  all_goals exact .inl ⟨_, _, rfl, BitVec.eq_of_toNat_eq ‹_›⟩

theorem legalAs_eq_command_iff {f : Format} {w : Word} {i j : Instr} :
    legalAs f w i = .command j ↔ w &&& f.mask = matchOf w ∧ i = j := by
  unfold legalAs
  split
  · simp only [*, true_and, Decoded.command.injEq]
  · simp only [*, false_and, reduceCtorEq]

theorem decode_of_legal {w : Word} {i : Instr} (h : w &&& i.format.mask = i.opc ++ 0#24) :
    decode w = .command (i.withFields w) := by
  have hopc := opcOf_of_legal h
  rw [decode_of_opc hopc, legalAs_eq_command_iff, matchOf, hopc]
  exact ⟨h, rfl⟩

/-- The commands that words decode to: a legal word's row's, with the word's fields. -/
theorem decode_eq_command_iff {w : Word} {i : Instr} :
    decode w = .command i ↔ ∃ j : Instr, w &&& j.format.mask = j.opc ++ 0#24 ∧ j.withFields w = i := by
  constructor
  · intro h
    obtain ⟨-, j, -, hj⟩ | hu := decode_cases w
    · rw [decode_of_opc hj, legalAs_eq_command_iff, matchOf, hj] at h
      exact ⟨j, h⟩
    · rw [hu] at h
      cases h
  · rintro ⟨j, hj, rfl⟩
    exact decode_of_legal hj

/-- A word is illegal or a command. -/
theorem illegal_iff_not_command (d : Decoded) : (∃ why, d = .illegal why) ↔ ∀ i, d ≠ .command i := by
  cases d <;> simp

/-! The statements. -/

/-- Settles O1: a command's word passes its row's test, and its fields are the command's operands. -/
theorem decodeReadsEveryEncodedCommand : Obligations.DecodeReadsEveryEncodedCommand := by
  unfold Obligations.DecodeReadsEveryEncodedCommand
  intro i _
  exact decode_eq_command_iff.mpr ⟨i, legal_encode i, i.withFields_encode⟩

/-- Settles O2: the word is legal, and a legal word is its fields and zeros. -/
theorem everyLegalWordIsOneCommandsEncoding : Obligations.EveryLegalWordIsOneCommandsEncoding := by
  unfold Obligations.EveryLegalWordIsOneCommandsEncoding
  intro w i h
  obtain ⟨j, hj, rfl⟩ := decode_eq_command_iff.mp h
  exact encode_withFields hj

/-- Settles O3: the words that decode to a command are those that pass a row's test. -/
theorem wordIsIllegalExactlyWhenItMatchesNoRow : Obligations.WordIsIllegalExactlyWhenItMatchesNoRow := by
  unfold Obligations.WordIsIllegalExactlyWhenItMatchesNoRow
  intro w
  rw [illegal_iff_not_command]
  constructor
  · intro hnone i hlegal
    exact hnone _ (decode_of_legal hlegal)
  · intro hrows i hi
    obtain ⟨j, hj, -⟩ := decode_eq_command_iff.mp hi
    exact hrows j hj

/-- Settles O4: each word is evaluated. -/
theorem specExampleWordsDecode : Obligations.SpecExampleWordsDecode := by
  unfold Obligations.SpecExampleWordsDecode
  decide

/-! The assembler. -/

theorem PReg.operand_fits (p : PReg) : p.operand.fits .reg = true := by cases p <;> rfl

theorem Operand.imm_fits {n : Nat} (b : BitVec n) : (Operand.imm b.toNat).fits (.imm n) = true :=
  decide_eq_true b.isLt

theorem operandsFit_cons {o : Operand} {k : OperandKind} {os : List Operand} {ks : List OperandKind}
    (ho : o.fits k = true) (hos : operandsFit os ks = true) : operandsFit (o :: os) (k :: ks) = true := by
  rw [operandsFit, ho, hos, Bool.and_self]

/-- Every operand has the width of its field, so every command is well formed. -/
theorem Instr.wellFormed_toAsm (i : Instr) : i.WellFormed := by
  cases i with
  | nop | gclear | gfinder | galign | gtiming | gformat | gversion | gmap | gbuild | score | best => rfl
  | gfexp | gflog | apos | bchf | bchv => exact operandsFit_cons (Operand.imm_fits _) rfl
  | gfmul => exact operandsFit_cons (Operand.imm_fits _) (operandsFit_cons (Operand.imm_fits _) rfl)
  | pmul | pmod =>
    exact operandsFit_cons (PReg.operand_fits _)
      (operandsFit_cons (PReg.operand_fits _) (operandsFit_cons (PReg.operand_fits _) rfl))
  | genpoly => exact operandsFit_cons (PReg.operand_fits _) (operandsFit_cons (Operand.imm_fits _) rfl)
  | rsenc =>
    exact operandsFit_cons (PReg.operand_fits _)
      (operandsFit_cons (PReg.operand_fits _) (operandsFit_cons (Operand.imm_fits _) rfl))
  | maskfn =>
    exact operandsFit_cons (Operand.imm_fits _)
      (operandsFit_cons (Operand.imm_fits _) (operandsFit_cons (Operand.imm_fits _) rfl))

end Sys2Proof

namespace Sys2Proof.Machine

theorem pregOf_idx (p : PReg) : pregOf p.idx = p := by cases p <;> rfl

/-- Each mnemonic is its own row's, and each number written for an operand is read as that operand. -/
theorem assemble_toAsm (i : Instr) : assemble i.toAsm = some i := by
  rw [assemble, if_pos i.wellFormed_toAsm]
  cases i <;> refine congrArg some ?_ <;> simp only [pregOf_idx, BitVec.ofNat_toNat, BitVec.setWidth_eq]

/-- Settles O5: every command is well formed as written, and assembling reads its operands back. -/
theorem writtenCommandAssemblesToItself : Obligations.WrittenCommandAssemblesToItself := by
  unfold Obligations.WrittenCommandAssemblesToItself
  exact fun i => ⟨i.wellFormed_toAsm, assemble_toAsm i⟩

/-! The engine's turn on an illegal word. -/

/-- Settles O7: the turn is the engine's step, which raises E_ILLEGAL. -/
theorem illegalWordCompletesWithErrorOnly : Obligations.IllegalWordCompletesWithErrorOnly := by
  unfold Obligations.IllegalWordCompletesWithErrorOnly
  intro s why hbusy hd
  refine ⟨fun hi => ?_, fun rest hi => ?_⟩
  · rw [step_nil hi, engineStep_illegal hbusy hd]
    rfl
  · rw [step_engineTurn hi, engineStep_illegal (s := { s with inputs := rest }) hbusy hd]
    rfl

end Sys2Proof.Machine

/-! PROOF. The field unit (40_gf_field.md). Multiplication by α is additive on bytes, and ⊗ by αⁱ is `i` multiplications
by α; so the machine's products, which it reads off its tables, are the products of bit polynomials, and ⊗ distributes
over ⊕. -/

namespace Sys2Proof.Machine

/-! Multiplication by α (10_state.md R30). -/

/-- What the bit shifted out leaves in the byte: x⁸ is 0x1D modulo the field polynomial. -/
def reduced (carry : Bool) : Byte := if carry then 0x1D#8 else 0#8

theorem reduced_xor : ∀ x y : Bool, reduced (x ^^ y) = reduced x ^^^ reduced y := by decide

/-- `Ref.double` on bytes. -/
def mulAlpha (a : Byte) : Byte := a <<< 1 ^^^ reduced (a.getLsbD 7)

theorem double_toNat : ∀ a : Byte, Ref.double a.toNat = (mulAlpha a).toNat := by decide +kernel

@[simp] theorem mulAlpha_zero : mulAlpha 0#8 = 0#8 := by decide

theorem mulAlpha_xor (a b : Byte) : mulAlpha (a ^^^ b) = mulAlpha a ^^^ mulAlpha b := by
  unfold mulAlpha
  rw [BitVec.shiftLeft_xor_distrib, BitVec.getLsbD_xor, reduced_xor]
  ac_rfl

theorem iterate_mulAlpha_zero (n : Nat) : mulAlpha^[n] 0#8 = 0#8 := Function.iterate_fixed mulAlpha_zero n

theorem iterate_mulAlpha_xor (n : Nat) (a b : Byte) :
    mulAlpha^[n] (a ^^^ b) = mulAlpha^[n] a ^^^ mulAlpha^[n] b := by
  induction n with
  | zero => rfl
  | succ n ih => simp only [Function.iterate_succ_apply', ih, mulAlpha_xor]

/-! The powers of α. -/

theorem alphaPow_eq_iterate (n : Nat) : Ref.alphaPow n = (mulAlpha^[n] 1#8).toNat := by
  induction n with
  | zero => rfl
  | succ n ih => rw [Ref.alphaPow, ih, double_toNat, Function.iterate_succ_apply']

/-- Each entry of `exp` is the one before it times α. -/
theorem gexp_succ : ∀ n < 255, gexp (n + 1) = mulAlpha (gexp n) := by decide +kernel

theorem gexp_eq_iterate {n : Nat} (h : n ≤ 255) : gexp n = mulAlpha^[n] 1#8 := by
  induction n with
  | zero => rfl
  | succ n ih => rw [gexp_succ n h, ih (Nat.le_of_lt h), Function.iterate_succ_apply']

/-- The powers of α repeat after 255, where `exp` holds 1 again. -/
theorem isPeriodicPt_mulAlpha : Function.IsPeriodicPt mulAlpha 255 1#8 := (gexp_eq_iterate le_rfl).symm

theorem gexp_mod_eq_iterate (n : Nat) : gexp (n % 255) = mulAlpha^[n] 1#8 := by
  rw [gexp_eq_iterate (Nat.mod_lt n (by decide)).le, isPeriodicPt_mulAlpha.iterate_mod_apply]

theorem iterate_glog {a : Byte} (h : a ≠ 0#8) : mulAlpha^[glog a] 1#8 = a := by
  rw [← gexp_eq_iterate (glog_lt h).le, gexp_glog h]

/-! The product. -/

/-- Multiplying by αⁱ is multiplying by α, i times. -/
theorem gmul_eq_iterate {a : Byte} (h : a ≠ 0#8) (b : Byte) : gmul a b = mulAlpha^[glog a] b := by
  by_cases hb : b = 0#8
  · rw [hb, gmul_zero, iterate_mulAlpha_zero]
  · rw [gmul_of_ne_zero h hb, gexp_mod_eq_iterate, Function.iterate_add_apply, iterate_glog hb]

/-- `Ref.times` on bytes. -/
def bytesTimes (a b : Byte) : Byte :=
  [7, 6, 5, 4, 3, 2, 1, 0].foldl (fun acc k => mulAlpha acc ^^^ if b.toNat.testBit k then a else 0#8) 0#8

theorem times_toNat (a b : Byte) : Ref.times a.toNat b.toNat = (bytesTimes a b).toNat := by
  refine List.foldl_hom BitVec.toNat (init := 0#8) fun acc k => ?_
  rw [BitVec.toNat_xor, double_toNat, apply_ite BitVec.toNat, BitVec.toNat_zero]

theorem zero_bytesTimes (b : Byte) : bytesTimes 0#8 b = 0#8 :=
  List.foldl_fixed' (fun k => by rw [mulAlpha_zero, ite_self, BitVec.xor_zero]) _

theorem one_bytesTimes : ∀ b : Byte, bytesTimes 1#8 b = b := by decide +kernel

/-- Each pass of the product is additive, so α comes out of all of them. -/
theorem bytesTimes_mulAlpha (a b : Byte) : bytesTimes (mulAlpha a) b = mulAlpha (bytesTimes a b) := by
  refine List.foldl_hom mulAlpha (init := 0#8) fun acc k => ?_
  rw [mulAlpha_xor, apply_ite mulAlpha, mulAlpha_zero]

theorem bytesTimes_iterate_mulAlpha (n : Nat) (a b : Byte) :
    bytesTimes (mulAlpha^[n] a) b = mulAlpha^[n] (bytesTimes a b) :=
  Function.Semiconj.iterate_right (f := (bytesTimes · b)) (bytesTimes_mulAlpha · b) n a

/-- The product read off the tables is the product of bit polynomials: both multiply by α as often as log says. -/
theorem toNat_gmul (a b : Byte) : (gmul a b).toNat = Ref.times a.toNat b.toNat := by
  rw [times_toNat]
  by_cases ha : a = 0#8
  · rw [ha, zero_gmul, zero_bytesTimes]
  · calc (gmul a b).toNat
      _ = (mulAlpha^[glog a] (bytesTimes 1#8 b)).toNat := by rw [gmul_eq_iterate ha, one_bytesTimes]
      _ = (bytesTimes a b).toNat := by rw [← bytesTimes_iterate_mulAlpha, iterate_glog ha]

/-- Settles O16: the command's equation, and the product of bit polynomials. -/
theorem gfmulWritesThePolynomialProduct : Obligations.GfmulWritesThePolynomialProduct := by
  unfold Obligations.GfmulWritesThePolynomialProduct
  intro a b s
  rw [exec_gfmul, toNat_gmul]
  rfl

/-- Settles O17: the command's equation, and the period of the powers of α. -/
theorem gfexpWritesThePowerOfAlpha : Obligations.GfexpWritesThePowerOfAlpha := by
  unfold Obligations.GfexpWritesThePowerOfAlpha
  intro i s
  rw [exec_gfexp, gexp_mod_eq_iterate, ← alphaPow_eq_iterate]
  rfl

/-! The logarithm (10_state.md R31). -/

theorem alphaPow_glog {a : Byte} (h : a ≠ 0#8) : Ref.alphaPow (glog a) = a.toNat := by
  rw [alphaPow_eq_iterate, iterate_glog h]

theorem eq_glog_of_alphaPow {a : Byte} {n : Nat} (h : n < 255) (ha : Ref.alphaPow n = a.toNat) : n = glog a := by
  rw [alphaPow_eq_iterate, ← gexp_eq_iterate h.le] at ha
  rw [← BitVec.eq_of_toNat_eq ha, glog_gexp h]

/-- Settles O18: the exponent is the table's, and exponents below 255 are told apart by their powers. -/
theorem gflogWritesTheUniqueExponent : Obligations.GflogWritesTheUniqueExponent := by
  unfold Obligations.GflogWritesTheUniqueExponent
  intro a s
  rw [exec_gflog]
  refine ⟨fun ha => if_pos ha, fun ha => ?_⟩
  exact ⟨glog a, Nat.le_of_lt_succ (glog_lt ha), alphaPow_glog ha,
    fun j hj hja => eq_glog_of_alphaPow (Nat.lt_succ_of_le hj) hja, if_neg ha⟩

/-! The laws of the field (40_gf_field.md R126). -/

theorem gmul_comm (a b : Byte) : gmul a b = gmul b a := by simp only [gmul, or_comm, Nat.add_comm]

theorem one_gmul (a : Byte) : gmul 1#8 a = a := gmul_eq_iterate (by decide) a

theorem glog_gmul {a b : Byte} (ha : a ≠ 0#8) (hb : b ≠ 0#8) : glog (gmul a b) = (glog a + glog b) % 255 := by
  rw [gmul_of_ne_zero ha hb, glog_gexp (Nat.mod_lt _ (by decide))]

/-- A product with 0 is 0 on either side; of other bytes, both sides add the three logarithms. -/
theorem gmul_assoc (a b c : Byte) : gmul (gmul a b) c = gmul a (gmul b c) := by
  by_cases ha : a = 0#8
  · simp only [ha, zero_gmul]
  by_cases hb : b = 0#8
  · simp only [hb, zero_gmul, gmul_zero]
  by_cases hc : c = 0#8
  · simp only [hc, gmul_zero]
  rw [gmul_of_ne_zero (gmul_ne_zero ha hb) hc, gmul_of_ne_zero ha (gmul_ne_zero hb hc), glog_gmul ha hb,
    glog_gmul hb hc, Nat.mod_add_mod, Nat.add_mod_mod, Nat.add_assoc]

theorem gmul_xor (a b c : Byte) : gmul a (b ^^^ c) = gmul a b ^^^ gmul a c := by
  by_cases ha : a = 0#8
  · simp only [ha, zero_gmul, BitVec.xor_self]
  · simp only [gmul_eq_iterate ha, iterate_mulAlpha_xor]

theorem gmul_inverse {a : Byte} (h : a ≠ 0#8) : gmul a (gexp ((255 - glog a) % 255)) = 1#8 := by
  have hlt : (255 - glog a) % 255 < 255 := Nat.mod_lt _ (by decide)
  rw [gmul_of_ne_zero h (gexp_ne_zero hlt), glog_gexp hlt, Nat.add_mod_mod, Nat.add_sub_cancel' (glog_lt h).le]
  rfl

/-- Settles O19: the laws above, and division as the inverse of the product. -/
theorem fieldLawsHold : Obligations.FieldLawsHold := by
  unfold Obligations.FieldLawsHold
  intro a b c
  exact ⟨gmul_comm a b, gmul_assoc a b c, one_gmul a, zero_gmul a, gmul_xor a b c, gmul_inverse,
    fun ha hb => (gmul_comm _ _).trans (gmul_gdiv ha hb)⟩

/-! The commands without domain errors (60_exceptions.md R251). -/

/-- Settles O15: by each command's equation; what it completes has the STATUS of the state before. -/
theorem commandsWithoutDomainErrorsComplete : Obligations.CommandsWithoutDomainErrorsComplete := by
  unfold Obligations.CommandsWithoutDomainErrorsComplete
  intro s a b d v m p
  refine ⟨exec_nop s, fun i hi => ?_⟩
  simp only [List.mem_cons, List.not_mem_nil, or_false] at hi
  rcases hi with rfl | rfl | rfl | rfl | rfl | rfl | rfl | rfl
  exacts [⟨_, exec_nop s, rfl⟩, ⟨_, exec_gfmul s a b, rfl⟩, ⟨_, exec_gfexp s a, rfl⟩, ⟨_, exec_bchf s d, rfl⟩,
    ⟨_, exec_bchv s v, rfl⟩, ⟨_, exec_maskfn s m a b, rfl⟩, ⟨_, exec_genpoly s p a, rfl⟩, ⟨_, exec_gclear s, rfl⟩]

end Sys2Proof.Machine

/-! PROOF. The polynomial unit (41_polynomial.md). A coefficient, a value at a point and a coefficient of a product all weigh
the coefficients of a list by their degrees; so what the list operations do to a weighed sum is proved once, and each
statement about PMUL, PMOD and GENPOLY reads it off for its own weights. -/

namespace Sys2Proof.Machine

/-! Sums weighed by degree. -/

/-- The sum of the coefficients, the one of xⁿ multiplied by `w n`. -/
def weigh (w : Nat → Byte) : List Byte → Byte
  | [] => 0#8
  | c :: l => gmul c (w l.length) ^^^ weigh w l

theorem xor_gmul (a b c : Byte) : gmul (a ^^^ b) c = gmul a c ^^^ gmul b c := by
  rw [gmul_comm, gmul_xor, gmul_comm c a, gmul_comm c b]

theorem gmul_one (a : Byte) : gmul a 1#8 = a := (gmul_comm a _).trans (one_gmul a)

theorem gmul_left_comm (a b c : Byte) : gmul a (gmul b c) = gmul b (gmul a c) := by
  rw [← gmul_assoc, gmul_comm a b, gmul_assoc]

theorem weigh_zero (l : List Byte) : weigh (fun _ => 0#8) l = 0#8 := by
  induction l with
  | nil => rfl
  | cons c l ih => rw [weigh, ih, gmul_zero, BitVec.xor_self]

theorem weigh_xor (v w : Nat → Byte) (l : List Byte) : weigh (fun n => v n ^^^ w n) l = weigh v l ^^^ weigh w l := by
  induction l with
  | nil => exact BitVec.xor_self.symm
  | cons c l ih => simp only [weigh, ih, gmul_xor]; ac_rfl

theorem weigh_gmul (a : Byte) (w : Nat → Byte) (l : List Byte) : weigh (fun n => gmul a (w n)) l = gmul a (weigh w l) := by
  induction l with
  | nil => exact (gmul_zero a).symm
  | cons c l ih => rw [weigh, weigh, ih, gmul_xor, gmul_left_comm]

theorem weigh_map_gmul (w : Nat → Byte) (a : Byte) (l : List Byte) : weigh w (l.map (gmul a)) = gmul a (weigh w l) := by
  induction l with
  | nil => exact (gmul_zero a).symm
  | cons c l ih => rw [List.map_cons, weigh, weigh, ih, List.length_map, gmul_xor, gmul_assoc]

theorem weigh_zero_cons (w : Nat → Byte) (l : List Byte) : weigh w (0#8 :: l) = weigh w l := by
  rw [weigh, zero_gmul, BitVec.zero_xor]

theorem weigh_zeros_append (w : Nat → Byte) (n : Nat) (l : List Byte) : weigh w (zeros n ++ l) = weigh w l := by
  induction n with
  | zero => rfl
  | succ n ih => exact (weigh_zero_cons w _).trans ih

theorem weigh_zeros (w : Nat → Byte) (n : Nat) : weigh w (zeros n) = 0#8 := by
  rw [← List.append_nil (zeros n), weigh_zeros_append]; rfl

theorem weigh_norm (w : Nat → Byte) (l : List Byte) : weigh w (norm l) = weigh w l := by
  induction l with
  | nil => rfl
  | cons c l ih =>
    by_cases hc : c = 0#8
    · rw [hc, norm_zero_cons, ih, weigh_zero_cons]
    · rw [norm_cons hc]

/-! Sums and products of polynomials. -/

/-- `xorOnto` lines up the leading coefficients, so the shorter list counts from as high as the longer one reaches. -/
theorem weigh_xorOnto (w : Nat → Byte) {xs ys : List Byte} (h : xs.length ≤ ys.length) :
    weigh w (xorOnto xs ys) = weigh (fun n => w (n + (ys.length - xs.length))) xs ^^^ weigh w ys := by
  induction xs generalizing ys with
  | nil => cases ys <;> exact BitVec.zero_xor.symm
  | cons x xs ih =>
    cases ys with
    | nil => simp at h
    | cons y ys =>
      have hle : xs.length ≤ ys.length := Nat.le_of_succ_le_succ h
      simp only [xorOnto, weigh, ih hle, xorOnto_length, xor_gmul, List.length_cons, Nat.add_sub_add_right,
        Nat.add_sub_cancel' hle]
      ac_rfl

/-- The sum of two polynomials of any lengths, the shorter one filled up with zeros. -/
def polyAdd (a b : List Byte) : List Byte :=
  xorOnto (zeros (b.length - a.length) ++ a) (zeros (a.length - b.length) ++ b)

theorem weigh_polyAdd (w : Nat → Byte) (a b : List Byte) : weigh w (polyAdd a b) = weigh w a ^^^ weigh w b := by
  have hlen : (zeros (a.length - b.length) ++ b).length = (zeros (b.length - a.length) ++ a).length := by
    simp only [zeros, List.length_append, List.length_replicate]; omega
  rw [polyAdd, weigh_xorOnto w hlen.ge, hlen, Nat.sub_self, weigh_zeros_append, weigh_zeros_append]
  rfl

/-- The weighed sum of a product: the product of two coefficients has the sum of their degrees. -/
def weighProduct (w : Nat → Byte) (a b : List Byte) : Byte := weigh (fun i => weigh (fun j => w (i + j)) b) a

theorem weighProduct_norm (w : Nat → Byte) (a b : List Byte) : weighProduct w (norm a) (norm b) = weighProduct w a b := by
  simp only [weighProduct, weigh_norm]

theorem weighProduct_nil_left (w : Nat → Byte) (b : List Byte) : weighProduct w [] b = 0#8 := rfl

theorem weighProduct_nil_right (w : Nat → Byte) (a : List Byte) : weighProduct w a [] = 0#8 := weigh_zero a

/-- The recursion of `polyMul` adds one coefficient of `a` times `b`, at that coefficient's degree. -/
theorem weigh_polyMul (w : Nat → Byte) (a : List Byte) {b : List Byte} (hb : b ≠ []) :
    weigh w (polyMul a b) = weighProduct w a b := by
  induction a with
  | nil => exact weigh_zeros w _
  | cons x a ih =>
    have hpos := List.length_pos_iff.mpr hb
    have hlen : (0#8 :: polyMul a b).length = a.length + b.length := by
      cases a with
      | nil => simp only [polyMul, zeros, List.length_cons, List.length_replicate, List.length_nil]; omega
      | cons y a => rw [List.length_cons, polyMul_length (List.cons_ne_nil y a) hb, List.length_cons]; omega
    rw [polyMul, weigh_xorOnto w (by rw [hlen, List.length_map]; omega), hlen, List.length_map, Nat.add_sub_cancel,
      weigh_map_gmul, weigh_zero_cons, ih]
    simp only [weighProduct, weigh, Nat.add_comm]

theorem weighProduct_polyAdd (w : Nat → Byte) (a a' b : List Byte) :
    weighProduct w (polyAdd a a') b = weighProduct w a b ^^^ weighProduct w a' b :=
  weigh_polyAdd _ a a'

/-- `f · x^d` times `b`. -/
theorem weighProduct_monomial (w : Nat → Byte) (f : Byte) (d : Nat) (b : List Byte) :
    weighProduct w (f :: zeros d) b = gmul f (weigh (fun n => w (n + d)) b) := by
  rw [weighProduct, weigh, weigh_zeros, BitVec.xor_zero, zeros, List.length_replicate]
  simp only [Nat.add_comm]

/-! Division. -/

/-- A pass adds to `r` a multiple of the divisor by one term, the first of the quotient. -/
theorem weigh_divisionPass (w : Nat → Byte) {r b : List Byte} (h : b.length ≤ r.length) :
    weigh w (divisionPass r b) =
      weighProduct w (gdiv (r.headD 0#8) (b.headD 0#8) :: zeros (r.length - b.length)) b ^^^ weigh w r := by
  simp only [divisionPass, gmul_comm _ (gdiv _ _)]
  rw [weigh_norm, weigh_xorOnto w (by rwa [List.length_map]), weigh_map_gmul, List.length_map, weighProduct_monomial]

/-- The dividend is a multiple of the divisor and what the passes leave: each pass adds one term to the quotient. -/
theorem polyModLoop_quotient (fuel : Nat) (r b : List Byte) :
    ∃ q, ∀ w, weigh w r = weighProduct w q b ^^^ weigh w (polyModLoop fuel r b) := by
  induction fuel generalizing r with
  | zero => exact ⟨[], fun w => BitVec.zero_xor.symm⟩
  | succ fuel ih =>
    by_cases hlt : r.length < b.length
    · exact ⟨[], fun w => by rw [polyModLoop, if_pos hlt, weighProduct_nil_left, BitVec.zero_xor]⟩
    · obtain ⟨q, hq⟩ := ih (divisionPass r b)
      refine ⟨polyAdd (gdiv (r.headD 0#8) (b.headD 0#8) :: zeros (r.length - b.length)) q, fun w => ?_⟩
      rw [polyModLoop, if_neg hlt, weighProduct_polyAdd, BitVec.xor_assoc, ← hq,
        weigh_divisionPass w (Nat.le_of_not_lt hlt), ← BitVec.xor_assoc, BitVec.xor_self, BitVec.zero_xor]

/-! Coefficients. -/

/-- The weights that pick the coefficient of xᵏ. -/
def atDegree (k n : Nat) : Byte := if n = k then 1#8 else 0#8

theorem coeff_of_length_le {l : List Byte} {k : Nat} (h : l.length ≤ k) : Ref.coeff l k = 0#8 :=
  List.getD_eq_default _ _ (by rwa [List.length_reverse])

theorem coeff_cons (c : Byte) (l : List Byte) (k : Nat) :
    Ref.coeff (c :: l) k = gmul c (atDegree k l.length) ^^^ Ref.coeff l k := by
  unfold atDegree
  split
  next heq =>
    rw [gmul_one, coeff_of_length_le heq.le, BitVec.xor_zero, Ref.coeff, List.reverse_cons, List.getD_append_right _ _ _ _
      (by rw [List.length_reverse, heq]), List.length_reverse, heq, Nat.sub_self]
    rfl
  next hne =>
    rw [gmul_zero, BitVec.zero_xor]
    rcases Nat.lt_or_gt_of_ne hne with hgt | hlt
    · rw [coeff_of_length_le hgt, coeff_of_length_le hgt.le]
    · rw [Ref.coeff, List.reverse_cons, List.getD_append _ _ _ _ (by rwa [List.length_reverse])]
      rfl

theorem coeff_eq_weigh (l : List Byte) (k : Nat) : Ref.coeff l k = weigh (atDegree k) l := by
  induction l with
  | nil => rfl
  | cons c l ih => rw [coeff_cons, ih, weigh]

theorem coeff_norm (l : List Byte) (k : Nat) : Ref.coeff (norm l) k = Ref.coeff l k := by
  simp only [coeff_eq_weigh, weigh_norm]

/-- The coefficients below degree `n`, times their weights, summed from degree 0 on. -/
theorem foldl_coeff_eq_weigh (a : List Byte) (g : Nat → Byte) (n : Nat) :
    (List.range n).foldl (fun acc i => acc ^^^ gmul (Ref.coeff a i) (g i)) 0#8 =
      weigh (fun i => if i < n then g i else 0#8) a := by
  induction n with
  | zero => exact (weigh_zero a).symm
  | succ n ih =>
    have hsplit : (fun i => if i < n + 1 then g i else 0#8) =
        fun i => (if i < n then g i else 0#8) ^^^ gmul (g n) (atDegree n i) := by
      funext i
      rcases Nat.lt_trichotomy i n with hlt | rfl | hgt
      · simp [atDegree, hlt, hlt.ne, Nat.lt_succ_of_lt hlt]
      · simp [atDegree, gmul_one]
      · simp [atDegree, hgt.ne', hgt.not_gt, Nat.not_lt.mpr hgt]
    rw [List.range_succ, List.foldl_append, ih, hsplit, weigh_xor, weigh_gmul, ← coeff_eq_weigh, gmul_comm (g n)]
    rfl

/-- Coefficient `k` of a product, as the statements write it. -/
theorem conv_eq_weighProduct (a b : List Byte) (k : Nat) : Ref.conv a b k = weighProduct (atDegree k) a b := by
  have hweights : (fun i => weigh (fun j => atDegree k (i + j)) b) =
      fun i => if i < k + 1 then Ref.coeff b (k - i) else 0#8 := by
    funext i
    split
    next hle =>
      rw [coeff_eq_weigh]
      congr 1
      funext j
      exact if_congr (by omega) rfl rfl
    next hgt =>
      rw [← weigh_zero b]
      congr 1
      funext j
      exact if_neg (by omega)
  rw [Ref.conv, foldl_coeff_eq_weigh, weighProduct, hweights]

theorem conv_norm (a b : List Byte) (k : Nat) : Ref.conv (norm a) (norm b) k = Ref.conv a b k := by
  simp only [conv_eq_weighProduct, weighProduct_norm]

theorem coeff_polyMul (a : List Byte) {b : List Byte} (hb : b ≠ []) (k : Nat) :
    Ref.coeff (polyMul a b) k = Ref.conv a b k := by
  rw [coeff_eq_weigh, weigh_polyMul _ a hb, conv_eq_weighProduct]

/-- A polynomial without coefficients makes every coefficient of the product 0. -/
theorem conv_of_eq_nil {a b : List Byte} (h : a = [] ∨ b = []) (k : Nat) : Ref.conv a b k = 0#8 := by
  rw [conv_eq_weighProduct]
  rcases h with rfl | rfl
  · exact weighProduct_nil_left _ b
  · exact weighProduct_nil_right _ a

/-- The field has no zero divisors, so a product of normal forms is one. -/
theorem norm_polyMul {a b : List Byte} (ha : norm a = a) (hb : norm b = b) (ha0 : a ≠ []) (hb0 : b ≠ []) :
    norm (polyMul a b) = polyMul a b := by
  obtain ⟨x, a, rfl⟩ := List.exists_cons_of_ne_nil ha0
  obtain ⟨y, b, rfl⟩ := List.exists_cons_of_ne_nil hb0
  obtain ⟨l, hl⟩ := polyMul_cons x y a b
  rw [hl, norm_cons (gmul_ne_zero (norm_head ha) (norm_head hb))]

theorem polyMod_norm {a : List Byte} (ha : norm a = a) (b : List Byte) : norm (polyMod a b) = polyMod a b :=
  polyModLoop_norm _ ha

/-- The quotient by its coefficients, as R144 writes the division. -/
theorem exists_quotient_polyMod (a b : List Byte) :
    ∃ q, ∀ k, Ref.coeff a k = Ref.conv q b k ^^^ Ref.coeff (polyMod a b) k := by
  obtain ⟨q, hq⟩ := polyModLoop_quotient (a.length + 1) a b
  exact ⟨q, fun k => by rw [coeff_eq_weigh, hq, conv_eq_weighProduct, coeff_eq_weigh, polyMod]⟩

/-! The statements. -/

theorem State.poly_complete_setPoly (s : State) (p : PReg) {l : List Byte} (h : l.length ≤ 256) :
    (s.setPoly p l).complete.poly p = l :=
  s.poly_setPoly p h

/-- Settles O20: the product of the two normal forms, or no coefficients when one of them has none. -/
theorem pmulWritesTheProduct : Obligations.PmulWritesTheProduct := by
  unfold Obligations.PmulWritesTheProduct
  intro pd ps pt s hps hpt hfits
  simp only [exec_pmul hps hpt, List.length_eq_zero_iff, ← conv_norm (s.poly ps)]
  split
  next hnil =>
    refine ⟨_, rfl, rfl, ?_⟩
    rw [s.poly_complete_setPoly pd (Nat.zero_le _)]
    exact ⟨fun k => (conv_of_eq_nil hnil k).symm, rfl⟩
  next hne =>
    obtain ⟨ha, hb⟩ := not_or.mp hne
    rw [if_neg hfits.not_gt]
    refine ⟨_, rfl, rfl, ?_⟩
    rw [s.poly_complete_setPoly pd ((polyMul_length ha hb).trans_le hfits)]
    exact ⟨coeff_polyMul _ hb, norm_polyMul (norm_norm _) (norm_norm _) ha hb⟩

/-- Settles O21: the quotient of the two normal forms, and the remainder the passes leave. -/
theorem pmodWritesTheRemainder : Obligations.PmodWritesTheRemainder := by
  unfold Obligations.PmodWritesTheRemainder
  intro pd ps pt s hps hpt hb
  obtain ⟨q, hq⟩ := exists_quotient_polyMod (norm (s.poly ps)) (norm (s.poly pt))
  have hlt := polyMod_length (norm_norm (s.poly ps)) (norm_norm (s.poly pt)) hb
  have hle : (norm (s.poly pt)).length ≤ 256 := (norm_length_le _).trans ((s.poly_length pt).trans_le hpt)
  rw [exec_pmod hps hpt, if_neg (List.length_eq_zero_iff.not.mpr hb)]
  refine ⟨_, q, rfl, rfl, ?_⟩
  rw [s.poly_complete_setPoly pd (hlt.le.trans hle)]
  exact ⟨fun k => by rw [← coeff_norm, hq, ← conv_norm, norm_norm, conv_norm], hlt, polyMod_norm (norm_norm _) _⟩

/-! Values. -/

/-- `xⁿ`. -/
def power (x : Byte) (n : Nat) : Byte := (gmul x)^[n] 1#8

theorem power_succ (x : Byte) (n : Nat) : power x (n + 1) = gmul x (power x n) := Function.iterate_succ_apply' _ n _

theorem power_add (x : Byte) (m n : Nat) : power x (m + n) = gmul (power x m) (power x n) := by
  induction m with
  | zero => rw [Nat.zero_add]; exact (one_gmul _).symm
  | succ m ih => rw [Nat.succ_add, power_succ, power_succ, ih, gmul_assoc]

/-- Horner's rule from any value on. -/
theorem foldl_horner (x : Byte) (l : List Byte) (acc : Byte) :
    l.foldl (fun acc c => gmul acc x ^^^ c) acc = gmul acc (power x l.length) ^^^ weigh (power x) l := by
  induction l generalizing acc with
  | nil => exact ((congrArg (· ^^^ 0#8) (gmul_one acc)).trans BitVec.xor_zero).symm
  | cons c l ih =>
    rw [List.foldl_cons, ih, weigh, List.length_cons, power_succ, xor_gmul, gmul_assoc, BitVec.xor_assoc]

theorem evalAt_eq_weigh (l : List Byte) (x : Byte) : Ref.evalAt l x = weigh (power x) l := by
  rw [Ref.evalAt, foldl_horner, zero_gmul, BitVec.zero_xor]

/-- The value of a product is the product of the values. -/
theorem evalAt_polyMul (a : List Byte) {b : List Byte} (hb : b ≠ []) (x : Byte) :
    Ref.evalAt (polyMul a b) x = gmul (Ref.evalAt a x) (Ref.evalAt b x) := by
  simp only [evalAt_eq_weigh, weigh_polyMul _ a hb, weighProduct, power_add, weigh_gmul]
  simp only [gmul_comm _ (weigh (power x) b), weigh_gmul]

/-- Each factor `x ⊕ αⁱ` of the generator brings the root αⁱ. -/
theorem evalAt_genPoly {i n : Nat} (h : i < n) : Ref.evalAt (genPoly n) (gexp i) = 0#8 := by
  induction n with
  | zero => exact absurd h (Nat.not_lt_zero i)
  | succ n ih =>
    rw [genPoly, evalAt_polyMul _ (List.cons_ne_nil _ _)]
    rcases Nat.lt_succ_iff_lt_or_eq.mp h with hlt | rfl
    · rw [ih hlt, zero_gmul]
    · have hroot : Ref.evalAt [1#8, gexp i] (gexp i) = 0#8 := by
        simp only [Ref.evalAt, List.foldl_cons, List.foldl_nil, zero_gmul, BitVec.zero_xor, one_gmul, BitVec.xor_self]
      rw [hroot, gmul_zero]

theorem ofNat_alphaPow {i : Nat} (h : i ≤ 255) : BitVec.ofNat 8 (Ref.alphaPow i) = gexp i := by
  rw [alphaPow_eq_iterate, ← gexp_eq_iterate h, BitVec.ofNat_toNat, BitVec.setWidth_eq]

/-- Settles O22: the generator is the product of its n factors. -/
theorem genpolyWritesTheMonicPolynomialWithTheRoots : Obligations.GenpolyWritesTheMonicPolynomialWithTheRoots := by
  unfold Obligations.GenpolyWritesTheMonicPolynomialWithTheRoots
  intro pd n s
  have hlen := genPoly_length n.toNat
  obtain ⟨l, hl⟩ := genPoly_monic n.toNat
  refine ⟨_, exec_genpoly s pd n, rfl, ?_⟩
  rw [s.poly_complete_setPoly pd (hlen.trans_le n.isLt)]
  refine ⟨hlen, by rw [hl]; rfl, fun i hi => ?_⟩
  rw [ofNat_alphaPow (hi.le.trans (Nat.le_of_lt_succ n.isLt))]
  exact evalAt_genPoly hi

end Sys2Proof.Machine

/-! PROOF. The Reed-Solomon unit (42_reed_solomon.md). At a root of the generator a dividend and its remainder have the same
value, and the data followed by the EC codewords is the shifted data plus that remainder; the two values cancel. -/

namespace Sys2Proof.Machine

/-- What stands before `b` counts from degree len(b) up. -/
theorem weigh_append (w : Nat → Byte) (a b : List Byte) :
    weigh w (a ++ b) = weigh (fun n => w (n + b.length)) a ^^^ weigh w b := by
  induction a with
  | nil => exact BitVec.zero_xor.symm
  | cons c a ih => rw [List.cons_append, weigh, weigh, ih, List.length_append, BitVec.xor_assoc]

theorem zeros_length (n : Nat) : (zeros n).length = n := List.length_replicate

/-- The data may be replaced by its normal form, whatever follows it: leading zeros weigh nothing. -/
theorem evalAt_norm_append (a b : List Byte) (x : Byte) : Ref.evalAt (norm a ++ b) x = Ref.evalAt (a ++ b) x := by
  simp only [evalAt_eq_weigh, weigh_append, weigh_norm]

/-- A word is its first part, shifted past the second, plus the second. -/
theorem evalAt_append (a b : List Byte) (x : Byte) :
    Ref.evalAt (a ++ b) x = Ref.evalAt (a ++ zeros b.length) x ^^^ Ref.evalAt b x := by
  simp only [evalAt_eq_weigh, weigh_append, weigh_zeros, zeros_length, BitVec.xor_zero]

/-- At a root of the divisor the quotient's multiple of it vanishes (41_polynomial.md R144). -/
theorem evalAt_polyMod (a : List Byte) {b : List Byte} (hb : b ≠ []) {x : Byte} (hx : Ref.evalAt b x = 0#8) :
    Ref.evalAt (polyMod a b) x = Ref.evalAt a x := by
  obtain ⟨q, hq⟩ := polyModLoop_quotient (a.length + 1) a b
  have hmultiple : weighProduct (power x) q b = 0#8 := by
    rw [← weigh_polyMul _ q hb, ← evalAt_eq_weigh, evalAt_polyMul q hb, hx, gmul_zero]
  rw [evalAt_eq_weigh, evalAt_eq_weigh, hq, hmultiple, BitVec.zero_xor, polyMod]

theorem evalAt_ecCodewords (d : List Byte) {i n : Nat} (h : i < n) :
    Ref.evalAt (ecCodewords d n) (gexp i) = Ref.evalAt (d ++ zeros n) (gexp i) := by
  have hne : genPoly n ≠ [] := List.ne_nil_of_length_eq_add_one (genPoly_length n)
  rw [← evalAt_polyMod (d ++ zeros n) hne (evalAt_genPoly h), ecCodewords, evalAt_eq_weigh, weigh_zeros_append,
    ← evalAt_eq_weigh]

/-- Data in normal form followed by its EC codewords vanishes at the generator's roots (42_reed_solomon.md R162). -/
theorem evalAt_append_ecCodewords {d : List Byte} (hd : norm d = d) {i n : Nat} (h : i < n) :
    Ref.evalAt (d ++ ecCodewords d n) (gexp i) = 0#8 := by
  rw [evalAt_append, ecCodewords_length hd, evalAt_ecCodewords d h, BitVec.xor_self]

/-- Settles O23: leading zeros of the data change no value, and at a root the shifted data and the EC codewords cancel. -/
theorem rsencMakesTheCodewordVanishAtTheRoots : Obligations.RsencMakesTheCodewordVanishAtTheRoots := by
  unfold Obligations.RsencMakesTheCodewordVanishAtTheRoots
  intro pd ps n s hps hfits
  have hd := norm_norm (s.poly ps)
  have hlen := ecCodewords_length hd n.toNat
  have hle := hlen.trans_le n.isLt.le
  rw [exec_rsenc hps, if_neg hfits.not_gt]
  refine ⟨_, rfl, rfl, (s.plen_setPoly pd hle).trans hlen, fun i hi => ?_⟩
  rw [s.poly_complete_setPoly pd hle, ofNat_alphaPow (hi.le.trans (Nat.le_of_lt_succ n.isLt)), ← evalAt_norm_append]
  exact evalAt_append_ecCodewords hd hi

end Sys2Proof.Machine

/-! PROOF. The BCH unit (43_bch.md). Each pass of rem2 adds a shifted generator to the word, which is a multiple of it,
and takes away the word's top bit; so what the passes leave is the remainder, and the data followed by it is a multiple of
the generator (R176). -/

namespace Sys2Proof.Machine

/-! Products of bit polynomials, by the terms of the first factor. -/

/-- The terms of the product whose degree in `a` is below `n`. -/
def bitMulBelow (n a b : Nat) : Nat :=
  (List.range n).foldl (fun acc k => if a.testBit k then acc ^^^ (b <<< k) else acc) 0

theorem bitMul_eq_bitMulBelow (a b : Nat) : Ref.bitMul a b = bitMulBelow 32 a b := rfl

theorem bitMulBelow_succ (n a b : Nat) :
    bitMulBelow (n + 1) a b = if a.testBit n then bitMulBelow n a b ^^^ (b <<< n) else bitMulBelow n a b := by
  rw [bitMulBelow, List.range_succ, List.foldl_append]
  rfl

theorem zero_bitMulBelow (n b : Nat) : bitMulBelow n 0 b = 0 := by
  induction n with
  | zero => rfl
  | succ n ih => rw [bitMulBelow_succ, Nat.zero_testBit, if_neg Bool.false_ne_true, ih]

/-- Changing the coefficient of xᵏ in `a` changes the product by `b · xᵏ`. -/
theorem xor_two_pow_bitMulBelow (n a k b : Nat) :
    bitMulBelow n (a ^^^ 2 ^ k) b = if k < n then bitMulBelow n a b ^^^ (b <<< k) else bitMulBelow n a b := by
  induction n with
  | zero => rfl
  | succ n ih =>
    rw [bitMulBelow_succ, bitMulBelow_succ, ih, Nat.testBit_xor, Nat.testBit_two_pow]
    rcases Nat.lt_trichotomy k n with hlt | rfl | hgt
    · cases a.testBit n
      · simp [hlt, hlt.ne, Nat.lt_succ_of_lt hlt]
      · simp [hlt, hlt.ne, Nat.lt_succ_of_lt hlt, Nat.xor_right_comm]
    · cases a.testBit k <;> simp
    · simp [hgt.ne', hgt.not_gt, Nat.not_lt.mpr (Nat.succ_le_of_lt hgt)]

theorem zero_bitMul (b : Nat) : Ref.bitMul 0 b = 0 := zero_bitMulBelow 32 b

theorem xor_two_pow_bitMul (a b : Nat) {k : Nat} (h : k < 32) :
    Ref.bitMul (a ^^^ 2 ^ k) b = Ref.bitMul a b ^^^ (b <<< k) := by
  rw [bitMul_eq_bitMulBelow, xor_two_pow_bitMulBelow, if_pos h, bitMul_eq_bitMulBelow]

/-! The bit length. -/

theorem bitlen_zero : bitlen 0 = 0 := rfl

theorem bitlen_of_ne_zero {x : Nat} (h : x ≠ 0) : bitlen x = x.log2 + 1 := if_neg h

theorem bitlen_pos {x : Nat} (h : x ≠ 0) : 0 < bitlen x := (Nat.succ_pos _).trans_eq (bitlen_of_ne_zero h).symm

theorem ne_zero_of_bitlen {x n : Nat} (h : bitlen x = n + 1) : x ≠ 0 := by
  rintro rfl
  cases h

theorem bitlen_le_iff {x n : Nat} : bitlen x ≤ n ↔ x < 2 ^ n := by
  by_cases h : x = 0
  · simp [h, bitlen_zero]
  · rw [bitlen_of_ne_zero h, Nat.succ_le_iff, Nat.log2_lt h]

/-- Shifted down to its top bit, a word is 1. -/
theorem shiftRight_of_bitlen {x n : Nat} (h : bitlen x = n + 1) : x >>> n = 1 := by
  have hle : 2 ^ n ≤ x := Nat.not_lt.mp (bitlen_le_iff.not.mp (by omega))
  have hlt : x < 2 ^ (n + 1) := bitlen_le_iff.mp h.le
  rw [Nat.shiftRight_eq_div_pow, Nat.div_eq_iff (Nat.two_pow_pos n)]
  omega

/-- A pass of rem2 brings the generator's top bit under the word's, and the two cancel (43_bch.md R173). -/
theorem bitlen_pass_lt {x g : Nat} (hg : g ≠ 0) (h : bitlen g ≤ bitlen x) :
    bitlen (x ^^^ g <<< (bitlen x - bitlen g)) < bitlen x := by
  obtain ⟨m, hm⟩ := Nat.exists_eq_add_one.mpr (bitlen_pos hg)
  obtain ⟨n, hn⟩ := Nat.exists_eq_add_of_le h
  have hx : bitlen x = (n + m) + 1 := by omega
  have htop : (x ^^^ g <<< n) >>> (n + m) = 0 := by
    rw [Nat.shiftRight_xor_distrib, shiftRight_of_bitlen hx, Nat.shiftRight_add, Nat.shiftLeft_shiftRight,
      shiftRight_of_bitlen hm, Nat.xor_self]
  rw [Nat.shiftRight_eq_div_pow, Nat.div_eq_zero_iff_lt (Nat.two_pow_pos _)] at htop
  rw [hn, Nat.add_sub_cancel_left, ← hn, hx]
  exact Nat.lt_succ_of_le (bitlen_le_iff.mpr htop)

/-! The remainder. -/

/-- The loop's test for a zero word is one of lengths: the generator has a bit. -/
theorem rem2Loop_succ (fuel x : Nat) {g : Nat} (hg : g ≠ 0) :
    rem2Loop (fuel + 1) x g =
      if bitlen g ≤ bitlen x then rem2Loop fuel (x ^^^ g <<< (bitlen x - bitlen g)) g else x := by
  have hnonzero (h : bitlen g ≤ bitlen x) : x ≠ 0 := by
    rintro rfl
    exact ((bitlen_pos hg).trans_le h).ne' bitlen_zero
  exact if_congr (and_iff_right_of_imp hnonzero) rfl rfl

/-- With a pass for each bit of the word, the loop ends below the generator. -/
theorem bitlen_rem2Loop_lt {fuel x g : Nat} (hg : g ≠ 0) (h : bitlen x ≤ fuel) :
    bitlen (rem2Loop fuel x g) < bitlen g := by
  induction fuel generalizing x with
  | zero => exact h.trans_lt (bitlen_pos hg)
  | succ fuel ih =>
    rw [rem2Loop_succ fuel x hg]
    split
    next hle => exact ih (Nat.le_of_lt_succ ((bitlen_pass_lt hg hle).trans_le h))
    next hgt => exact Nat.lt_of_not_le hgt

/-- The passes add a multiple of the generator: each adds one term to the quotient. -/
theorem rem2Loop_quotient (fuel : Nat) {x g : Nat} (hg : g ≠ 0) (hx : bitlen x ≤ 32) :
    ∃ q, Ref.bitMul q g = x ^^^ rem2Loop fuel x g := by
  induction fuel generalizing x with
  | zero => exact ⟨0, (zero_bitMul g).trans (Nat.xor_self x).symm⟩
  | succ fuel ih =>
    rw [rem2Loop_succ fuel x hg]
    split
    next hle =>
      obtain ⟨q, hq⟩ := ih ((bitlen_pass_lt hg hle).le.trans hx)
      have hk : bitlen x - bitlen g < 32 := by have := bitlen_pos hg; omega
      refine ⟨q ^^^ 2 ^ (bitlen x - bitlen g), ?_⟩
      rw [xor_two_pow_bitMul q g hk, hq, Nat.xor_right_comm, Nat.xor_xor_cancel_right]
    next => exact ⟨0, (zero_bitMul g).trans (Nat.xor_self x).symm⟩

theorem rem2_lt (x : Nat) {g n : Nat} (hg : bitlen g = n + 1) : rem2 x g < 2 ^ n :=
  bitlen_le_iff.mp (Nat.le_of_lt_succ ((bitlen_rem2Loop_lt (ne_zero_of_bitlen hg) le_rfl).trans_eq hg))

/-! Codewords. -/

/-- Data followed by its remainder modulo a generator of degree `n`. -/
def codeword (n g d : Nat) : Nat := d <<< n ||| rem2 (d <<< n) g

theorem bchFormat_eq (d : Nat) : bchFormat d = codeword 10 bchG15 d ^^^ bchG15Mask := rfl

theorem bchVersion_eq (v : Nat) : bchVersion v = codeword 12 bchG18 v := rfl

section

variable {n g : Nat} (hg : bitlen g = n + 1)
include hg

theorem codeword_shiftRight (d : Nat) : codeword n g d >>> n = d := by
  rw [codeword, Nat.shiftRight_or_distrib, Nat.shiftLeft_shiftRight, Nat.shiftRight_eq_zero _ _ (rem2_lt _ hg),
    Nat.or_zero]

theorem codeword_lt {d k : Nat} (hd : d < 2 ^ k) : codeword n g d < 2 ^ (k + n) :=
  Nat.or_lt_two_pow (Nat.shiftLeft_lt hd) ((rem2_lt _ hg).trans_le (Nat.pow_le_pow_right two_pos (Nat.le_add_left n k)))

/-- The remainder lies below the shifted data, so writing it there adds it. -/
theorem codeword_eq_xor (d : Nat) : codeword n g d = d <<< n ^^^ rem2 (d <<< n) g := by
  refine Nat.eq_of_testBit_eq fun i => ?_
  rw [codeword, Nat.testBit_or, Nat.testBit_xor, Nat.testBit_shiftLeft]
  rcases Nat.lt_or_ge i n with hlt | hge
  · simp [hlt.not_ge]
  · have hhigh := Nat.testBit_lt_two_pow ((rem2_lt (d <<< n) hg).trans_le (Nat.pow_le_pow_right two_pos hge))
    rw [hhigh, Bool.or_false, Bool.xor_false]

/-- Every codeword is a multiple of its generator (43_bch.md R176). -/
theorem codeword_multiple {d k : Nat} (hd : d < 2 ^ k) (hk : k + n ≤ 32) : ∃ q, Ref.bitMul q g = codeword n g d := by
  rw [codeword_eq_xor hg]
  exact rem2Loop_quotient _ (ne_zero_of_bitlen hg) ((bitlen_le_iff.mpr (Nat.shiftLeft_lt hd)).trans hk)

end

/-! The statements. -/

theorem bitlen_bchG15 : bitlen bchG15 = 10 + 1 := by decide

theorem bitlen_bchG18 : bitlen bchG18 = 12 + 1 := by decide

/-- The mask is taken off by adding it once more (43_bch.md R171). -/
theorem bchFormat_unmasked (d : Nat) : bchFormat d ^^^ bchG15Mask = codeword 10 bchG15 d := by
  rw [bchFormat_eq, Nat.xor_xor_cancel_right]

theorem bchFormat_lt {d : Nat} (hd : d < 2 ^ 5) : bchFormat d < 2 ^ 15 :=
  Nat.xor_lt_two_pow (codeword_lt bitlen_bchG15 hd) (by decide)

/-- Settles O26: the unmasked word is the codeword of the data. -/
theorem bchfWritesTheFormatCodeword : Obligations.BchfWritesTheFormatCodeword := by
  unfold Obligations.BchfWritesTheFormatCodeword
  intro d s
  obtain ⟨q, hq⟩ := codeword_multiple bitlen_bchG15 d.isLt (by decide)
  have hunmasked : bchFormat d.toNat ^^^ 0x5412 = codeword 10 bchG15 d.toNat := bchFormat_unmasked d.toNat
  refine ⟨bchFormat d.toNat, q, exec_bchf s d, bchFormat_lt d.isLt, ?_⟩
  rw [hunmasked]
  exact ⟨codeword_shiftRight bitlen_bchG15 d.toNat, hq⟩

/-- Settles O27: the word is the codeword of the version. -/
theorem bchvWritesTheVersionCodeword : Obligations.BchvWritesTheVersionCodeword := by
  unfold Obligations.BchvWritesTheVersionCodeword
  intro v s
  obtain ⟨q, hq⟩ := codeword_multiple bitlen_bchG18 v.isLt (by decide)
  refine ⟨bchVersion v.toNat, q, exec_bchv s v, ?_⟩
  rw [bchVersion_eq]
  exact ⟨codeword_lt bitlen_bchG18 v.isLt, codeword_shiftRight bitlen_bchG18 v.toNat, hq⟩

end Sys2Proof.Machine

/-! PROOF. The grid's commands as wholes (44_grid.md): GCLEAR, the errors of the commands that need a symbol, their
frames, and GBUILD as its seven passes. -/

namespace Sys2Proof.Machine

/-- Settles O29: the clearing reaches the cells of the array and no other byte. -/
theorem gclearUnsetsEveryCell : Obligations.GclearUnsetsEveryCell := by
  unfold Obligations.GclearUnsetsEveryCell
  exact fun s => ⟨_, exec_gclear s, rfl, fun r c hr hc => cell_clearPass s.mem hr hc, (Touched.clearPass s.mem).outside⟩

/-! Errors. -/

/-- The commands that need a symbol check VERSION first (44_grid.md R181). -/
theorem exec_symbolCommand {i : Instr} {k : Byte} (s : State)
    (hi : i ∈ [Instr.gfinder, .galign, .gtiming, .gformat, .gversion, .gmap, .gbuild, .apos k, .score, .best]) :
    ∃ f : Nat → Result, exec i s = withModuleCount s f := by
  simp only [List.mem_cons, List.not_mem_nil, or_false] at hi
  rcases hi with rfl | rfl | rfl | rfl | rfl | rfl | rfl | rfl | rfl | rfl <;>
    simp only [exec, execGfinder, execGalign, execGtiming, execGformat, execGversion, execGmap, execGbuild, execApos,
      execScore, execBest] <;>
    exact ⟨_, rfl⟩

/-- The commands that map codewords check CWLEN next (44_grid.md R193). -/
theorem exec_mappingCommand {i : Instr} (s : State) (hi : i ∈ [Instr.gmap, .gbuild, .best]) :
    ∃ f : Nat → Result, exec i s = withModuleCount s fun n => withCodewords s (f n) := by
  simp only [List.mem_cons, List.not_mem_nil, or_false] at hi
  rcases hi with rfl | rfl | rfl <;> simp only [exec, execGmap, execGbuild, execBest] <;> exact ⟨_, rfl⟩

theorem exec_symbolCommand_illegal {i : Instr} {k : Byte} {s : State}
    (hi : i ∈ [Instr.gfinder, .galign, .gtiming, .gformat, .gversion, .gmap, .gbuild, .apos k, .score, .best])
    (hv : ¬ s.versionLegal) : exec i s = .next (s.raiseError .version) := by
  obtain ⟨f, hf⟩ := exec_symbolCommand s hi
  rw [hf, withModuleCount_illegal hv]

theorem exec_mappingCommand_long {i : Instr} {s : State} (hi : i ∈ [Instr.gmap, .gbuild, .best]) (hv : s.versionLegal)
    (hc : s.cwlen.toNat > 4096) : exec i s = .next (s.raiseError .cwlen) := by
  obtain ⟨f, hf⟩ := exec_mappingCommand s hi
  rw [hf, withModuleCount_legal hv, withCodewords_long hc]

/-- Settles O30: VERSION is checked before CWLEN. -/
theorem symbolCommandsReportTheFirstError : Obligations.SymbolCommandsReportTheFirstError := by
  unfold Obligations.SymbolCommandsReportTheFirstError
  exact fun s k i => ⟨fun hv hi => exec_symbolCommand_illegal hi hv, fun hv hc hi => exec_mappingCommand_long hi hv hc⟩

/-! Frames. -/

theorem side_ge {s : State} (h : s.versionLegal) : 21 ≤ s.side := by
  have := h.1
  unfold State.side
  omega

/-- A structural command under a legal VERSION writes cells of the symbol, and all but GFORMAT only UNSET ones. -/
theorem exec_structural {i : Instr} {s : State} (hi : i ∈ [Instr.gfinder, .galign, .gtiming, .gformat, .gversion])
    (hv : s.versionLegal) : ∃ m, exec i s = .next (s.setMem m).complete ∧ Touched s.side s.mem m ∧
      (i ≠ .gformat → Painted s.side s.mem m) := by
  have hn := side_le hv
  have painted {m : Memory} (he : exec i s = .next (s.setMem m).complete) (h : Painted s.side s.mem m) :
      ∃ m, exec i s = .next (s.setMem m).complete ∧ Touched s.side s.mem m ∧
        (i ≠ .gformat → Painted s.side s.mem m) :=
    ⟨m, he, h.toTouched, fun _ => h⟩
  simp only [List.mem_cons, List.not_mem_nil, or_false] at hi
  rcases hi with rfl | rfl | rfl | rfl | rfl
  · exact painted (exec_gfinder hv) (.finderPass hn _)
  · exact painted (exec_galign hv) (.alignPass hn _ _)
  · exact painted (exec_gtiming hv) (.timingPass hn _)
  · exact ⟨_, exec_gformat hv, .formatPass (side_ge hv) hn _ _ _, fun h => absurd rfl h⟩
  · exact painted (exec_gversion hv) (.versionPassOf hn _ _ _)

/-- Settles O38: an error leaves the arrays alone, and a pass touches or paints the symbol. -/
theorem structuralPassesFrame : Obligations.StructuralPassesFrame := by
  unfold Obligations.StructuralPassesFrame
  intro s t i hi h
  by_cases hv : s.versionLegal
  · obtain ⟨m, he, htouched, hpainted⟩ := exec_structural hi hv
    obtain rfl := Host.Outcome.next.inj (he.symm.trans h)
    exact ⟨rfl, htouched.outside, fun hne r c => (hpainted hne).kept _⟩
  · have he := exec_symbolCommand_illegal (i := i) (k := 0) (by simp only [List.mem_cons] at hi ⊢; tauto) hv
    obtain rfl := Host.Outcome.next.inj (he.symm.trans h)
    exact ⟨rfl, fun _ _ => rfl, fun _ _ _ _ => rfl⟩

/-- What GMAP, GBUILD and BEST may change. -/
structure MappingFrame (s t : State) : Prop where
  fields : t = { s with status := t.status, mem := t.mem, res := t.res, mask := t.mask, tscore := t.tscore }
  res : ∀ k : Fin 8, 4 ≤ k.val → t.res[k] = s.res[k]
  outside : ∀ a, (∀ r c, r < 177 → c < 177 → a ≠ cellAddr r c) → t.mem.read a = s.mem.read a

/-- What BEST alone of the three writes. -/
structure KeepsBestResults (s t : State) : Prop where
  mask : t.mask = s.mask
  tscore : t.tscore = s.tscore
  res2 : t.res[2] = s.res[2]
  res3 : t.res[3] = s.res[3]

theorem MappingFrame.raiseError (s : State) (e : ErrorCode) : MappingFrame s (s.raiseError e) :=
  ⟨rfl, fun _ _ => rfl, fun _ _ => rfl⟩

theorem KeepsBestResults.raiseError (s : State) (e : ErrorCode) : KeepsBestResults s (s.raiseError e) :=
  ⟨rfl, rfl, rfl, rfl⟩

theorem State.res_setMapped_other (s : State) {j k k' : Fin 8} (w : Nat) (h : k.val ≠ j.val) (h' : k'.val ≠ j.val) :
    (s.setMapped k k' w).res[j] = s.res[j] := by
  simp [h, h']

theorem res_mapped {s : State} (m : Memory) (w : Nat) {k : Fin 8} (hk : 2 ≤ k.val) :
    ((s.setMem m).setMapped 0 1 w).complete.res[k] = s.res[k] :=
  (s.setMem m).res_setMapped_other w (by show 0 ≠ k.val; omega) (by show 1 ≠ k.val; omega)

theorem MappingFrame.mapped {s : State} {m : Memory} (hm : Touched 177 s.mem m) (w : Nat) :
    MappingFrame s ((s.setMem m).setMapped 0 1 w).complete :=
  ⟨rfl, fun _ hk => res_mapped m w (by omega), hm.outside⟩

theorem KeepsBestResults.mapped (s : State) (m : Memory) (w : Nat) :
    KeepsBestResults s ((s.setMem m).setMapped 0 1 w).complete :=
  ⟨rfl, rfl, res_mapped m w (k := 2) (by decide), res_mapped m w (k := 3) (by decide)⟩

theorem State.bested_plen (s : State) (scores : List Nat) : (s.bested scores).plen = s.plen := by simp [State.bested]

theorem State.res_bested_other (s : State) (scores : List Nat) {k : Fin 8} (hk : 4 ≤ k.val) :
    (s.bested scores).res[k] = s.res[k] := by
  have hne (j : Fin 8) (hj : j.val < 4) : j.val ≠ k.val := by omega
  have h0 : 0 ≠ k.val := hne 0 (by decide)
  have h1 : 1 ≠ k.val := hne 1 (by decide)
  rw [State.bested, State.res_setMapped_other _ _ (hne 2 (by decide)) (hne 3 (by decide))]
  simp [h0, h1]

theorem MappingFrame.bested {s : State} (hv : s.versionLegal) (scores : List Nat) :
    MappingFrame s (s.bested scores).complete where
  fields := by
    have h := congrArg State.complete (Completes.bested scores hv).eq_engineWritten
    rwa [State.bested_plen] at h
  res _ hk := s.res_bested_other scores hk
  outside := by
    rw [State.complete_mem, State.bested_mem]
    exact (Touched.build hv _ _).outside

/-- A mapping command ends with an error, which changes STATUS alone, or completes. -/
theorem exec_mapping_frame {i : Instr} {s t : State} (hi : i ∈ [Instr.gmap, .gbuild, .best]) (h : exec i s = .next t) :
    MappingFrame s t ∧ (i ≠ .best → KeepsBestResults s t) ∧ (i = .gmap → Touched s.side s.mem t.mem) := by
  have failed {e : ErrorCode} (he : exec i s = .next (s.raiseError e)) :
      MappingFrame s t ∧ (i ≠ .best → KeepsBestResults s t) ∧ (i = .gmap → Touched s.side s.mem t.mem) := by
    obtain rfl := Host.Outcome.next.inj (he.symm.trans h)
    exact ⟨.raiseError s e, fun _ => .raiseError s e, fun _ => .refl _ _⟩
  by_cases hv : s.versionLegal
  · by_cases hc : s.cwlen.toNat ≤ 4096
    · simp only [List.mem_cons, List.not_mem_nil, or_false] at hi
      rcases hi with rfl | rfl | rfl
      · obtain rfl := Host.Outcome.next.inj ((exec_gmap hv hc).symm.trans h)
        have htouched := (Painted.mapPass (side_le hv) s.mask s.cwlen.toNat s.mem).toTouched
        exact ⟨.mapped (htouched.mono (side_le hv)) _, fun _ => .mapped _ _ _, fun _ => htouched⟩
      · obtain rfl := Host.Outcome.next.inj ((exec_gbuild hv hc).symm.trans h)
        exact ⟨.mapped (.build hv _ _) _, fun _ => .mapped _ _ _, nofun⟩
      · obtain rfl := Host.Outcome.next.inj ((exec_best hv hc).symm.trans h)
        exact ⟨.bested hv _, fun hne => absurd rfl hne, nofun⟩
    · exact failed (exec_mappingCommand_long hi hv (by omega))
  · exact failed (exec_symbolCommand_illegal (k := 0) (by simp only [List.mem_cons] at hi ⊢; tauto) hv)

/-- Settles O39: the frames of the errors and of the completions. -/
theorem mappingCommandsFrame : Obligations.MappingCommandsFrame := by
  unfold Obligations.MappingCommandsFrame
  intro s t i hi h
  obtain ⟨⟨hfields, hres, houtside⟩, hkept, hsymbol⟩ := exec_mapping_frame hi h
  refine ⟨hfields, fun hne => ?_, hres, houtside, fun hgmap => (hsymbol hgmap).outside⟩
  obtain ⟨hmask, htscore, hres2, hres3⟩ := hkept hne
  exact ⟨hmask, htscore, hres2, hres3⟩

/-! GBUILD. -/

/-- A build is the map pass over the arrays that the other passes leave (44_grid.md R195). -/
theorem build_eq (s : State) (n : Nat) (mask : BitVec 3) (light : Bool) :
    build s n mask light = mapPass n mask s.cwlen.toNat (versionPassOf n s.version.toNat light
      (formatPass n (bchFormat (formatData s.ecl mask)) light
        (timingPass n (alignPass n s.version.toNat (finderPass n (clearPass s.mem)))))) := rfl

section PassAfterPass

/-! Each pass after another command that wrote the arrays alone: it finds the registers of `s`. -/

variable {s : State} (hv : s.versionLegal) (m : Memory)
include hv

theorem exec_gfinder_setMem :
    exec .gfinder (s.setMem m).complete = .next (s.setMem (finderPass s.side m)).complete :=
  exec_gfinder (s := (s.setMem m).complete) hv

theorem exec_galign_setMem :
    exec .galign (s.setMem m).complete = .next (s.setMem (alignPass s.side s.version.toNat m)).complete :=
  exec_galign (s := (s.setMem m).complete) hv

theorem exec_gtiming_setMem :
    exec .gtiming (s.setMem m).complete = .next (s.setMem (timingPass s.side m)).complete :=
  exec_gtiming (s := (s.setMem m).complete) hv

theorem exec_gformat_setMem :
    exec .gformat (s.setMem m).complete =
      .next (s.setMem (formatPass s.side (bchFormat (formatData s.ecl s.mask)) false m)).complete :=
  exec_gformat (s := (s.setMem m).complete) hv

theorem exec_gversion_setMem :
    exec .gversion (s.setMem m).complete = .next (s.setMem (versionPassOf s.side s.version.toNat false m)).complete :=
  exec_gversion (s := (s.setMem m).complete) hv

theorem exec_gmap_setMem (hc : s.cwlen.toNat ≤ 4096) :
    exec .gmap (s.setMem m).complete =
      .next ((s.setMem (mapPass s.side s.mask s.cwlen.toNat m).1).setMapped 0 1
        (mapPass s.side s.mask s.cwlen.toNat m).2).complete :=
  exec_gmap (s := (s.setMem m).complete) hv hc

end PassAfterPass

/-- Settles O41: the passes one after another, and GBUILD's equation. -/
theorem gbuildIsThePassesInOrder : Obligations.GbuildIsThePassesInOrder := by
  unfold Obligations.GbuildIsThePassesInOrder
  intro s hv hc
  refine ⟨_, _, _, _, _, _, _, exec_gclear s, exec_gfinder_setMem hv _, exec_galign_setMem hv _,
    exec_gtiming_setMem hv _, exec_gformat_setMem hv _, exec_gversion_setMem hv _, exec_gmap_setMem hv _ hc, ?_⟩
  rw [exec_gbuild hv hc, build_eq]

end Sys2Proof.Machine

/-! PROOF. What each structural pass leaves in a cell of the symbol: its pattern's colour where the cell was UNSET, and
the format word whatever the cell held (44_grid.md R182 to R190). -/

namespace Sys2Proof.Machine

/-! Stamps. -/

/-- Of two stamps the first that has a colour for the cell wins. -/
theorem Ref.stamped_stamped (old : Byte) (a b : Option Bool) :
    Ref.stamped (Ref.stamped old a) b = Ref.stamped old (a.or b) := by
  by_cases h : old = unset
  · subst h
    cases a with
    | none => rfl
    | some dark =>
      rw [Option.some_or, Ref.stamped_unset rfl, Ref.stamped_set (Memory.colour_ne_unset dark)]
  · rw [Ref.stamped_set h, Ref.stamped_set h, Ref.stamped_set h]

theorem Ref.stamped_eq_unset {new : Option Bool} : Ref.stamped unset new = unset ↔ new = none := by
  cases new with
  | none => simp [Ref.stamped_none]
  | some dark => simp [Ref.stamped_unset, Memory.colour_ne_unset]

/-- The colour `f z` that `z` has for a cell when the cell is one of its own. -/
def stampOf {α : Type} (p : α → Bool) (f : α → Bool) (z : α) : Option Bool := if p z then some (f z) else none

theorem map_find?_cons {α : Type} (p f : α → Bool) (z : α) (l : List α) :
    ((z :: l).find? p).map f = (stampOf p f z).or ((l.find? p).map f) := by
  cases h : p z <;> simp [stampOf, h]

/-! Square patterns. -/

/-- The model's lists of naturals used as integers. -/
theorem mem_castList {l : List Nat} {x : Int} : x ∈ (do let a ← l; pure (a : Int)) ↔ ∃ a ∈ l, (a : Int) = x := by
  simp [eq_comm]

theorem mem_squareFrom {lo : Int} {len : Nat} {d : Int × Int} :
    d ∈ squareFrom lo len ↔ (lo ≤ d.1 ∧ d.1 < lo + len) ∧ lo ≤ d.2 ∧ d.2 < lo + len := by
  simp only [squareFrom, List.mem_flatMap, List.mem_map, mem_castList, List.mem_range]
  constructor
  · rintro ⟨_, ⟨r, hr, rfl⟩, _, ⟨c, hc, rfl⟩, rfl⟩
    dsimp only
    omega
  · intro h
    exact ⟨d.1 - lo, ⟨(d.1 - lo).toNat, by omega, by omega⟩, d.2 - lo, ⟨(d.2 - lo).toNat, by omega, by omega⟩,
      Prod.ext (by dsimp only; omega) (by dsimp only; omega)⟩

/-- Requests one for each of a list: `g` is the colour that any of them has for the cell. -/
theorem cell_requests {α : Type} {n : Nat} (hn : n ≤ 177) (m : Memory) (l : List α) (pos : α → Int × Int)
    (dark : α → Bool) {r c : Nat} (hr : r < n) (hc : c < n) {g : Option Bool}
    (h : ∀ a ∈ l, pos a = (↑r, ↑c) → g = some (dark a))
    (h' : ∀ d, g = some d → ∃ a ∈ l, pos a = (↑r, ↑c) ∧ dark a = d) :
    (l.foldl (fun m a => setu n m (pos a).1 (pos a).2 (dark a)) m).cell r c = Ref.stamped (m.cell r c) g := by
  rw [← List.foldl_map (f := fun a => (pos a, dark a)) (g := fun m q => setu n m q.1.1 q.1.2 q.2)]
  refine (cell_paint hn m _ hr hc).trans (congrArg _ (find_paint (fun d hd => ?_) fun d hd => ?_))
  · obtain ⟨a, ha, heq⟩ := List.mem_map.mp hd
    obtain ⟨hpos, rfl⟩ := Prod.mk.inj heq
    exact h a ha hpos
  · obtain ⟨a, ha, hpos, hdark⟩ := h' d hd
    exact List.mem_map.mpr ⟨a, ha, Prod.ext hpos hdark⟩

/-- A square pattern around `z`: its colour by the offset from `z`. -/
theorem cell_square {n : Nat} (hn : n ≤ 177) (m : Memory) (z : Nat × Nat) (lo : Int) (len : Nat)
    (dark : Int → Int → Bool) {r c : Nat} (hr : r < n) (hc : c < n) :
    ((squareFrom lo len).foldl (fun m d => setu n m (z.1 + d.1) (z.2 + d.2) (dark d.1 d.2)) m).cell r c =
      Ref.stamped (m.cell r c) (stampOf (fun d => decide (d ∈ squareFrom lo len)) (fun d => dark d.1 d.2)
        (r - z.1, c - z.2)) := by
  refine cell_requests hn m _ (fun d : Int × Int => (z.1 + d.1, z.2 + d.2)) (fun d => dark d.1 d.2) hr hc
    (fun d hd hpos => ?_) fun e he => ?_
  · obtain ⟨h1, h2⟩ := Prod.mk.inj hpos
    obtain rfl : d = ((r : Int) - z.1, (c : Int) - z.2) := Prod.ext (by dsimp only; omega) (by dsimp only; omega)
    simp [stampOf, hd]
  · simp only [stampOf, decide_eq_true_eq, Option.ite_none_right_eq_some, Option.some.injEq] at he
    exact ⟨_, he.1, by simp, he.2⟩

/-! Finders (44_grid.md R182, R183). -/

theorem Ref.distance_le_iff {r c x y k : Nat} :
    Ref.distance r c x y ≤ k ↔ (r ≤ x + k ∧ x ≤ r + k) ∧ c ≤ y + k ∧ y ≤ c + k := by
  unfold Ref.distance absDiff
  omega

/-- The colour a finder centred at `z` has for the cell. -/
def finderStamp (r c : Nat) : Nat × Nat → Option Bool :=
  stampOf (fun z => decide (Ref.distance r c z.1 z.2 ≤ 4)) fun z =>
    Ref.distance r c z.1 z.2 != 2 && Ref.distance r c z.1 z.2 != 4

theorem Ref.finder_eq (n r c : Nat) :
    Ref.finder n r c = (finderStamp r c (3, 3)).or ((finderStamp r c (n - 4, 3)).or (finderStamp r c (3, n - 4))) := by
  rw [Ref.finder, map_find?_cons, map_find?_cons, map_find?_cons, List.find?_nil, Option.map_none, Option.or_none]
  rfl

/-- The rings by distance from the centre, which is three below and right of the origin. -/
theorem finderDark_eq {a b x y : Nat} (h : Ref.distance a b (x + 3) (y + 3) ≤ 4) : finderDark (a - x) (b - y) =
    (Ref.distance a b (x + 3) (y + 3) != 2 && Ref.distance a b (x + 3) (y + 3) != 4) := by
  rw [Bool.eq_iff_iff]
  simp only [finderDark, Ref.distance, absDiff, Bool.or_eq_true, Bool.and_eq_true, decide_eq_true_eq, beq_iff_eq,
    bne_iff_ne] at *
  omega

theorem cell_finderAt {n : Nat} (hn : n ≤ 177) (m : Memory) (z : Nat × Nat) {r c : Nat} (hr : r < n) (hc : c < n) :
    (finderAt n m z).cell r c = Ref.stamped (m.cell r c) (finderStamp r c (z.1 + 3, z.2 + 3)) := by
  rw [finderAt, cell_square hn m z (-1) 9 finderDark hr hc]
  simp only [mem_squareFrom, finderStamp, stampOf, decide_eq_true_eq]
  refine congrArg _ (ite_congr (propext ?_) (fun h => by rw [finderDark_eq h]) fun _ => rfl)
  rw [Ref.distance_le_iff]
  omega

theorem cell_finderPass {n : Nat} (h : 7 ≤ n) (hn : n ≤ 177) (m : Memory) {r c : Nat} (hr : r < n) (hc : c < n) :
    (finderPass n m).cell r c = Ref.stamped (m.cell r c) (Ref.finder n r c) := by
  have h4 : n - 7 + 3 = n - 4 := by omega
  simp only [finderPass, List.foldl_cons, List.foldl_nil, cell_finderAt hn _ _ hr hc, Ref.stamped_stamped,
    Ref.finder_eq, h4, Option.or_assoc]

/-- Settles O31: three stamps, one after another. -/
theorem gfinderStampsTheThreeFinders : Obligations.GfinderStampsTheThreeFinders := by
  unfold Obligations.GfinderStampsTheThreeFinders
  exact fun s hv => ⟨_, exec_gfinder hv, rfl, fun r c hr hc =>
    cell_finderPass (by have := side_ge hv; omega) (side_le hv) s.mem hr hc⟩

/-! Alignment patterns (44_grid.md R184). -/

/-- The colour an alignment pattern centred at `z` has for the cell, stamped where `free`. -/
def alignStamp (free : Nat × Nat → Bool) (r c : Nat) : Nat × Nat → Option Bool :=
  stampOf (fun z => decide (Ref.distance r c z.1 z.2 ≤ 2) && free z) fun z => Ref.distance r c z.1 z.2 != 1

theorem alignDark_eq {a b x y : Nat} (h : Ref.distance a b x y ≤ 2) :
    alignDark (a - x) (b - y) = (Ref.distance a b x y != 1) := by
  rw [Bool.eq_iff_iff]
  simp only [alignDark, Ref.distance, absDiff, Bool.or_eq_true, Bool.and_eq_true, beq_iff_eq, bne_iff_ne] at *
  omega

theorem cell_alignAt {n : Nat} (hn : n ≤ 177) (m : Memory) (z : Nat × Nat) {r c : Nat} (hr : r < n) (hc : c < n) :
    (alignAt n m z).cell r c = Ref.stamped (m.cell r c) (alignStamp (fun z => m.cell z.1 z.2 == unset) r c z) := by
  rw [alignAt]
  split
  next h => simp [alignStamp, stampOf, h, Ref.stamped_none]
  next h =>
    rw [cell_square hn m z (-2) 5 alignDark hr hc]
    simp only [mem_squareFrom, alignStamp, stampOf, decide_eq_true_eq, Bool.and_eq_true, beq_iff_eq]
    refine congrArg _ (ite_congr (propext ?_) (fun h => by rw [alignDark_eq h.1]) fun _ => rfl)
    rw [Ref.distance_le_iff, and_iff_left (not_not.mp h)]
    omega

/-- Alignment patterns stamped one after another, none near another's centre: each finds its centre as it was. -/
theorem cell_foldl_alignAt {n : Nat} (hn : n ≤ 177) (l : List (Nat × Nat)) (m : Memory)
    (hl : ∀ z ∈ l, z.1 < n ∧ z.2 < n) (hfar : l.Pairwise fun z z' => 2 < Ref.distance z'.1 z'.2 z.1 z.2)
    {r c : Nat} (hr : r < n) (hc : c < n) :
    (l.foldl (alignAt n) m).cell r c = Ref.stamped (m.cell r c)
      ((l.find? fun z => decide (Ref.distance r c z.1 z.2 ≤ 2) && m.cell z.1 z.2 == unset).map fun z =>
        Ref.distance r c z.1 z.2 != 1) := by
  induction l generalizing m with
  | nil => exact (Ref.stamped_none _).symm
  | cons z l ih =>
    obtain ⟨hz, hfar⟩ := List.pairwise_cons.mp hfar
    have hcentre : ∀ y ∈ l, (alignAt n m z).cell y.1 y.2 = m.cell y.1 y.2 := fun y hy => by
      obtain ⟨hy1, hy2⟩ := hl y (List.mem_cons_of_mem z hy)
      rw [cell_alignAt hn m z hy1 hy2, alignStamp, stampOf, if_neg, Ref.stamped_none]
      simp [Nat.not_le.mpr (hz y hy)]
    rw [List.foldl_cons, ih _ (fun y hy => hl y (List.mem_cons_of_mem z hy)) hfar, cell_alignAt hn m z hr hc,
      Ref.stamped_stamped, map_find?_cons]
    congr 3
    exact List.find?_congr fun y hy => by rw [hcentre y hy]

/-- The positions of a version lie in its symbol, and two of them are more than two apart (10_state.md R32). -/
theorem aposTable_spaced : ∀ v < 41, ∀ a ∈ aposTable v,
    a < 4 * v + 17 ∧ ∀ b ∈ aposTable v, a ≠ b → 2 < absDiff a b := by
  decide

theorem mem_centres {pos : List Nat} {z : Nat × Nat} : z ∈ centres pos ↔ z.1 ∈ pos ∧ z.2 ∈ pos := List.pair_mem_product

theorem cell_alignPass {v : Nat} (hv : 1 ≤ v) (hv' : v ≤ 40) (m : Memory) {r c : Nat} (hr : r < 4 * v + 17)
    (hc : c < 4 * v + 17) :
    (alignPass (4 * v + 17) v m).cell r c = Ref.stamped (m.cell r c) (Ref.alignment v m r c) := by
  have hspaced := aposTable_spaced v (Nat.lt_succ_of_le hv')
  have hnodup : (aposTable v).Nodup := (aposTable_row v (Nat.lt_succ_of_le hv') hv).2.1.imp Nat.ne_of_lt
  refine cell_foldl_alignAt (by omega) _ m (fun z hz => ?_) ?_ hr hc
  · obtain ⟨h1, h2⟩ := mem_centres.mp hz
    exact ⟨(hspaced _ h1).1, (hspaced _ h2).1⟩
  · refine (hnodup.product hnodup).pairwise_of_forall_ne fun z hz y hy hne => ?_
    obtain ⟨hz1, hz2⟩ := mem_centres.mp hz
    obtain ⟨hy1, hy2⟩ := mem_centres.mp hy
    rw [Ref.distance, lt_max_iff]
    by_cases h : y.1 = z.1
    · exact .inr ((hspaced _ hy2).2 _ hz2 fun h' => hne (Prod.ext h.symm h'.symm))
    · exact .inl ((hspaced _ hy1).2 _ hz1 h)

/-- Settles O32: no pattern reaches another's centre. -/
theorem galignStampsTheAlignmentPatterns : Obligations.GalignStampsTheAlignmentPatterns := by
  unfold Obligations.GalignStampsTheAlignmentPatterns
  exact fun s hv => ⟨_, exec_galign hv, rfl, fun r c hr hc => cell_alignPass hv.1 hv.2 s.mem hr hc⟩

/-! Timing tracks (44_grid.md R185). -/

theorem mem_timingIndices {n i : Nat} : i ∈ timingIndices n ↔ 8 ≤ i ∧ i + 9 ≤ n := by
  simp only [timingIndices, List.mem_map, List.mem_range]
  constructor
  · rintro ⟨j, hj, rfl⟩
    omega
  · intro h
    exact ⟨i - 8, by omega, by omega⟩

/-- A track along which index `k` is the one that asks for the cell, if it lies on the track. -/
theorem cell_track {n : Nat} (hn : n ≤ 177) (m : Memory) (pos : Int → Int × Int) {r c : Nat} (hr : r < n) (hc : c < n)
    {k : Nat} {onTrack : Prop} [Decidable onTrack] (hpos : ∀ i, pos i = (↑r, ↑c) ↔ i = k ∧ onTrack) :
    ((do let a ← timingIndices n; pure (a : Int)).foldl (fun m i => setu n m (pos i).1 (pos i).2 (i % 2 == 0))
        m).cell r c =
      Ref.stamped (m.cell r c) (if onTrack ∧ 8 ≤ k ∧ k ≤ n - 9 then some (k % 2 == 0) else none) := by
  have hcast : ((k : Int) % 2 == 0) = (k % 2 == 0) := by
    rw [Bool.eq_iff_iff, beq_iff_eq, beq_iff_eq]
    omega
  refine cell_requests hn m _ pos _ hr hc (fun i hi h => ?_) fun d hd => ?_
  · obtain ⟨rfl, hon⟩ := (hpos i).mp h
    obtain ⟨j, hj, hjk⟩ := mem_castList.mp hi
    obtain rfl : j = k := Int.ofNat.inj hjk
    rw [mem_timingIndices] at hj
    rw [if_pos ⟨hon, by omega, by omega⟩, hcast]
  · obtain ⟨⟨hon, hlow, hhigh⟩, rfl⟩ := Option.ite_none_right_eq_some.mp hd |>.imp_right Option.some.inj
    exact ⟨k, mem_castList.mpr ⟨k, mem_timingIndices.mpr (by omega), rfl⟩, (hpos k).mpr ⟨rfl, hon⟩, hcast⟩

theorem cell_timingPass {n : Nat} (hn : n ≤ 177) (m : Memory) {r c : Nat} (hr : r < n) (hc : c < n) :
    (timingPass n m).cell r c = Ref.stamped (m.cell r c) (Ref.timing n r c) := by
  rw [timingPass,
    cell_track hn _ (fun i => (6, i)) hr hc (k := c) (onTrack := r = 6) (by simp only [Prod.mk.injEq]; omega),
    cell_track hn _ (fun i => (i, 6)) hr hc (k := r) (onTrack := c = 6) (by simp only [Prod.mk.injEq]; omega),
    Ref.stamped_stamped, Ref.timing]
  by_cases h : c = 6 ∧ 8 ≤ r ∧ r ≤ n - 9 <;> simp [h]

/-- Settles O33: the column, then the row. -/
theorem gtimingStampsTheTracks : Obligations.GtimingStampsTheTracks := by
  unfold Obligations.GtimingStampsTheTracks
  exact fun s hv => ⟨_, exec_gtiming hv, rfl, fun r c hr hc => cell_timingPass (side_le hv) s.mem hr hc⟩

/-! The version word (44_grid.md R189, R190). -/

/-- The requests of the version pass: both cells of each bit. -/
def versionRequests (n u : Nat) (light : Bool) : List ((Int × Int) × Bool) :=
  (List.range 18).flatMap fun i =>
    [(((i / 3 : Nat), (n - 11 + i % 3 : Nat)), u.testBit i && !light),
      (((n - 11 + i % 3 : Nat), (i / 3 : Nat)), u.testBit i && !light)]

theorem versionPass_eq_paint (n u : Nat) (light : Bool) (m : Memory) :
    versionPass n u light m = paint n m (versionRequests n u light) := by
  rw [paint, versionRequests, List.foldl_flatMap]
  rfl

/-- The bit of the version word that has the cell. -/
def versionIndex (n r c : Nat) : Option Nat :=
  if r ≤ 5 ∧ n - 11 ≤ c ∧ c ≤ n - 9 then some (3 * r + (c - (n - 11)))
  else if c ≤ 5 ∧ n - 11 ≤ r ∧ r ≤ n - 9 then some (3 * c + (r - (n - 11)))
  else none

theorem versionIndex_eq_some {n : Nat} (h : 17 ≤ n) {r c i : Nat} : versionIndex n r c = some i ↔
    i < 18 ∧ ((r = i / 3 ∧ c = n - 11 + i % 3) ∨ (r = n - 11 + i % 3 ∧ c = i / 3)) := by
  unfold versionIndex
  split_ifs
  · rw [Option.some.injEq]; omega
  · rw [Option.some.injEq]; omega
  · exact iff_of_false (by simp) (by omega)

theorem mem_versionRequests {n u : Nat} {light : Bool} (h : 17 ≤ n) {r c : Nat} {d : Bool} :
    ((↑r, ↑c), d) ∈ versionRequests n u light ↔ (versionIndex n r c).map (fun i => u.testBit i && !light) = some d := by
  simp only [versionRequests, List.mem_flatMap, List.mem_range, List.mem_cons, List.not_mem_nil, or_false,
    Prod.mk.injEq, Option.map_eq_some_iff, versionIndex_eq_some h, Int.natCast_inj]
  grind

theorem cell_versionPass {n : Nat} (h : 17 ≤ n) (hn : n ≤ 177) (u : Nat) (light : Bool) (m : Memory) {r c : Nat}
    (hr : r < n) (hc : c < n) :
    (versionPass n u light m).cell r c =
      Ref.stamped (m.cell r c) ((versionIndex n r c).map fun i => u.testBit i && !light) := by
  rw [versionPass_eq_paint, cell_paint hn m _ hr hc,
    find_paint (fun d hd => (mem_versionRequests h).mp hd) fun d hd => (mem_versionRequests h).mpr hd]

theorem cell_versionPassOf {n : Nat} (h : 17 ≤ n) (hn : n ≤ 177) (v : Nat) (light : Bool) (m : Memory) {r c : Nat}
    (hr : r < n) (hc : c < n) :
    (versionPassOf n v light m).cell r c = Ref.stamped (m.cell r c)
      (if v < 7 then none else (versionIndex n r c).map fun i => (bchVersion v).testBit i && !light) := by
  unfold versionPassOf
  split
  · rw [Ref.stamped_none]
  · exact cell_versionPass h hn _ light m hr hc

/-- Settles O35: below version 7 the pass does nothing, and from 7 on each cell has the bit of its index. -/
theorem gversionPlacesTheVersionWord : Obligations.GversionPlacesTheVersionWord := by
  unfold Obligations.GversionPlacesTheVersionWord
  refine fun s hv => ⟨_, exec_gversion hv, rfl, fun r c hr hc => ?_⟩
  rw [State.complete_mem, State.setMem_mem, cell_versionPassOf (by have := side_ge hv; omega) (side_le hv) _ _ _ hr hc,
    versionIndex]
  congr 1
  split_ifs <;> simp

/-! The format word (44_grid.md R186 to R188). -/

/-- A list of overwrites, in order. -/
def overwrite (m : Memory) (l : List ((Nat × Nat) × Bool)) : Memory := l.foldl (fun m q => setf m q.1.1 q.1.2 q.2) m

theorem cell_setf (m : Memory) {r c r' c' : Nat} (hc : c < 256) (hc' : c' < 256) (d : Bool) :
    (setf m r' c' d).cell r c = if (r', c') = (r, c) then colour d else m.cell r c := by
  refine (Memory.read_write_colour m _ _ d).trans (if_congr ?_ rfl rfl)
  rw [cellAddr_inj hc hc', Prod.mk.injEq, eq_comm, @eq_comm _ c]

/-- A cell after a list of overwrites that agree on it: `g` is the colour that any of them, or the cell
before, has for it. -/
theorem cell_overwrite (m : Memory) (l : List ((Nat × Nat) × Bool)) (hl : ∀ q ∈ l, q.1.2 < 256) {r c : Nat}
    (hc : c < 256) {g : Option Bool} (h : ∀ d, ((r, c), d) ∈ l → g = some d)
    (h' : ∀ d, g = some d → ((r, c), d) ∈ l ∨ m.cell r c = colour d) :
    (overwrite m l).cell r c = (g.map colour).getD (m.cell r c) := by
  induction l generalizing m with
  | nil =>
    cases g with
    | none => rfl
    | some d => exact (h' d rfl).resolve_left List.not_mem_nil
  | cons q l ih =>
    obtain ⟨z, d⟩ := q
    have hz : z.2 < 256 := hl (z, d) List.mem_cons_self
    have ih := ih (setf m z.1 z.2 d) (fun q hq => hl q (List.mem_cons_of_mem _ hq))
      (fun d hd => h d (List.mem_cons_of_mem _ hd))
    rw [cell_setf m hc hz] at ih
    show (overwrite (setf m z.1 z.2 d) l).cell r c = _
    by_cases hzrc : z = (r, c)
    · subst hzrc
      have hg : g = some d := h d List.mem_cons_self
      subst hg
      simpa using ih
    · rw [if_neg hzrc] at ih
      refine ih fun d' hd => (h' d' hd).imp_left fun hmem => ?_
      refine (List.mem_cons.mp hmem).resolve_left fun heq => hzrc ?_
      exact (congrArg Prod.fst heq).symm

/-- The overwrites of the format pass: both cells of each bit, and the fixed dark cell. -/
def formatWrites (n f : Nat) (light : Bool) : List ((Nat × Nat) × Bool) :=
  ((List.range 15).flatMap fun i =>
    [(formatCellA n i, f.testBit i && !light), (formatCellB n i, f.testBit i && !light)]) ++ [((n - 8, 8), !light)]

theorem formatPass_eq_overwrite (n f : Nat) (light : Bool) (m : Memory) :
    formatPass n f light m = overwrite m (formatWrites n f light) := by
  simp only [overwrite, formatWrites, List.foldl_append, List.foldl_flatMap, List.foldl_cons, List.foldl_nil]
  rfl

/-- The bit of the format word that has the cell. -/
def formatIndex (n r c : Nat) : Option Nat :=
  if c = 8 ∧ r ≤ 5 then some r
  else if c = 8 ∧ (r = 7 ∨ r = 8) then some (r - 1)
  else if c = 8 ∧ n - 7 ≤ r ∧ r < n then some (r + 15 - n)
  else if r = 8 ∧ c ≤ 5 then some (14 - c)
  else if r = 8 ∧ c = 7 then some 8
  else if r = 8 ∧ n - 8 ≤ c ∧ c < n then some (n - 1 - c)
  else none

theorem formatCellA_eq_iff {n i r c : Nat} : formatCellA n i = (r, c) ↔
    c = 8 ∧ ((i ≤ 5 ∧ r = i) ∨ (5 < i ∧ i ≤ 7 ∧ r = i + 1) ∨ (7 < i ∧ r = n - 15 + i)) := by
  unfold formatCellA
  split_ifs <;> rw [Prod.mk.injEq] <;> omega

theorem formatCellB_eq_iff {n i r c : Nat} : formatCellB n i = (r, c) ↔
    r = 8 ∧ ((i ≤ 7 ∧ c = n - 1 - i) ∨ (i = 8 ∧ c = 7) ∨ (8 < i ∧ c = 14 - i)) := by
  unfold formatCellB
  split_ifs <;> rw [Prod.mk.injEq] <;> omega

theorem formatIndex_eq_some {n : Nat} (h : 21 ≤ n) {r c i : Nat} : formatIndex n r c = some i ↔
    i < 15 ∧ (formatCellA n i = (r, c) ∨ formatCellB n i = (r, c)) := by
  rw [formatCellA_eq_iff, formatCellB_eq_iff]
  unfold formatIndex
  split_ifs
  case neg => exact iff_of_false (by simp) (by omega)
  all_goals rw [Option.some.injEq]; omega

/-- What the format pass has for the cell. -/
def formatStamp (n f : Nat) (light : Bool) (r c : Nat) : Option Bool :=
  if r = n - 8 ∧ c = 8 then some !light else (formatIndex n r c).map fun i => f.testBit i && !light

theorem mem_formatBits {n : Nat} (h : 21 ≤ n) {f : Nat} {light : Bool} {r c : Nat} {d : Bool} :
    ((r, c), d) ∈ (List.range 15).flatMap (fun i =>
        [(formatCellA n i, f.testBit i && !light), (formatCellB n i, f.testBit i && !light)]) ↔
      (formatIndex n r c).map (fun i => f.testBit i && !light) = some d := by
  simp only [List.mem_flatMap, List.mem_range, List.mem_cons, List.not_mem_nil, or_false, Prod.mk.injEq,
    Option.map_eq_some_iff, formatIndex_eq_some h]
  grind

/-- No bit has the fixed dark cell. -/
theorem formatIndex_fixed {n : Nat} (h : 21 ≤ n) : formatIndex n (n - 8) 8 = none := by
  rw [Option.eq_none_iff_forall_ne_some]
  intro i hi
  rw [formatIndex_eq_some h, formatCellA_eq_iff, formatCellB_eq_iff] at hi
  omega

theorem mem_formatWrites {n : Nat} (h : 21 ≤ n) {f : Nat} {light : Bool} {r c : Nat} {d : Bool} :
    ((r, c), d) ∈ formatWrites n f light ↔ formatStamp n f light r c = some d := by
  rw [formatWrites, List.mem_append, mem_formatBits h, List.mem_singleton, Prod.mk.injEq, Prod.mk.injEq, formatStamp]
  by_cases hfixed : r = n - 8 ∧ c = 8
  · obtain ⟨rfl, rfl⟩ := hfixed
    simp [formatIndex_fixed h, eq_comm]
  · simp [hfixed]

theorem cell_formatPass {n : Nat} (h : 21 ≤ n) (hn : n ≤ 177) (f : Nat) (light : Bool) (m : Memory) {r c : Nat}
    (hc : c < 256) :
    (formatPass n f light m).cell r c = ((formatStamp n f light r c).map colour).getD (m.cell r c) := by
  rw [formatPass_eq_overwrite]
  refine cell_overwrite m _ (fun q hq => ?_) hc (fun d hd => (mem_formatWrites h).mp hd)
    fun d hd => .inl ((mem_formatWrites h).mpr hd)
  simp only [formatWrites, List.mem_append, List.mem_flatMap, List.mem_range, List.mem_cons, List.not_mem_nil,
    or_false] at hq
  rcases hq with ⟨i, hi, rfl | rfl⟩ | rfl
  · exact (formatCell_lt h hi).1.2.trans (by omega)
  · exact (formatCell_lt h hi).2.2.trans (by omega)
  · exact (by decide : 8 < 256)

/-- The cells of bits and the fixed dark cell (44_grid.md R186). -/
theorem formatStamp_eq_none {n : Nat} (h : 21 ≤ n) {f : Nat} {light : Bool} {r c : Nat} :
    formatStamp n f light r c = none ↔ ¬ ((c = 8 ∧ (r ≤ 5 ∨ r = 7 ∨ r = 8 ∨ (n - 8 ≤ r ∧ r < n))) ∨
      (r = 8 ∧ (c ≤ 5 ∨ c = 7 ∨ (n - 8 ≤ c ∧ c < n)))) := by
  unfold formatStamp formatIndex
  split_ifs
  case neg => exact iff_of_true (by simp) (by omega)
  all_goals exact iff_of_false (by simp) (by omega)

/-- The two cells of bit `i` hold it. -/
theorem cell_formatPass_bit {n : Nat} (h : 21 ≤ n) (hn : n ≤ 177) (f : Nat) (light : Bool) (m : Memory) {r c i : Nat}
    (hi : i < 15) (hcell : formatCellA n i = (r, c) ∨ formatCellB n i = (r, c)) :
    (formatPass n f light m).cell r c = colour (f.testBit i && !light) := by
  have hc : c < 256 := by
    rw [formatCellA_eq_iff, formatCellB_eq_iff] at hcell
    omega
  have hindex := (formatIndex_eq_some h).mpr ⟨hi, hcell⟩
  have hnot : ¬ (r = n - 8 ∧ c = 8) := by
    rintro ⟨rfl, rfl⟩
    rw [formatIndex_fixed h] at hindex
    cases hindex
  rw [cell_formatPass h hn _ _ _ hc, formatStamp, if_neg hnot, hindex, Option.map_some, Option.map_some,
    Option.getD_some]

theorem formatData_eq (ecl : BitVec 2) (m : BitVec 3) : formatData ecl m = 8 * ecl.toNat + m.toNat := by
  rw [formatData, ← Nat.shiftLeft_add_eq_or_of_lt m.isLt, Nat.shiftLeft_eq]
  omega

/-- Settles O34: bit by bit in copy A and in copy B, the fixed dark cell, and the cells of neither. -/
theorem gformatPlacesBothCopiesOfTheFormatWord : Obligations.GformatPlacesBothCopiesOfTheFormatWord := by
  unfold Obligations.GformatPlacesBothCopiesOfTheFormatWord
  refine fun s hv => ⟨_, exec_gformat hv, rfl, ?_⟩
  have h := side_ge hv
  have hn := side_le hv
  intro n bit
  rw [formatData_eq, State.complete_mem, State.setMem_mem]
  have hbit (i : Nat) : colour ((bchFormat (8 * s.ecl.toNat + s.mask.toNat)).testBit i && !false) = bit i := by
    rw [Bool.not_false, Bool.and_true]
  have hA {r c i : Nat} (hi : i < 15) (hcell : c = 8 ∧ ((i ≤ 5 ∧ r = i) ∨ (5 < i ∧ i ≤ 7 ∧ r = i + 1) ∨
      (7 < i ∧ r = n - 15 + i))) : (formatPass n _ false s.mem).cell r c = bit i :=
    (cell_formatPass_bit h hn _ false s.mem hi (.inl (formatCellA_eq_iff.mpr hcell))).trans (hbit i)
  have hB {r c i : Nat} (hi : i < 15) (hcell : r = 8 ∧ ((i ≤ 7 ∧ c = n - 1 - i) ∨ (i = 8 ∧ c = 7) ∨
      (8 < i ∧ c = 14 - i))) : (formatPass n _ false s.mem).cell r c = bit i :=
    (cell_formatPass_bit h hn _ false s.mem hi (.inr (formatCellB_eq_iff.mpr hcell))).trans (hbit i)
  refine ⟨fun i hi => hA (by omega) (by omega), hA (by decide) (by omega), hA (by decide) (by omega),
    fun i h1 h2 => hA (by omega) (by omega), fun i hi => hB (by omega) (by omega), hB (by decide) (by omega),
    fun i h1 h2 => hB (by omega) (by omega), ?_, fun r c hr hc hnot => ?_⟩
  · rw [cell_formatPass h hn _ _ _ (by decide), formatStamp, if_pos ⟨rfl, rfl⟩]
    rfl
  · rw [cell_formatPass h hn _ _ _ (by omega), (formatStamp_eq_none h).mpr hnot]
    rfl

end Sys2Proof.Machine

/-! PROOF. The scan (44_grid.md R191) and the map pass that follows it (44_grid.md R192, R193). -/

namespace Sys2Proof.Machine

/-! The order of the scan. -/

/-- Entry `j` of piece `i` of a concatenation of pieces of one length. -/
theorem getElem?_flatMap_of_length {α β : Type} {f : α → List β} {l : List α} {k : Nat}
    (hf : ∀ a ∈ l, (f a).length = k) (i : Nat) {j : Nat} (hj : j < k) :
    (l.flatMap f)[k * i + j]? = l[i]?.bind fun a => (f a)[j]? := by
  induction l generalizing i with
  | nil => simp
  | cons a l ih =>
    have ha : (f a).length = k := hf a List.mem_cons_self
    cases i with
    | zero => simp [List.getElem?_append_left (ha.symm ▸ hj)]
    | succ i =>
      rw [List.flatMap_cons, List.getElem?_append_right (by rw [ha, Nat.mul_succ]; omega), ha, Nat.mul_succ,
        show k * i + k + j - k = k * i + j by omega, ih fun b hb => hf b (List.mem_cons_of_mem a hb)]
      rfl

/-- The rows of a strip in the order of its direction. -/
def scanRows (n : Nat) (up : Bool) : List Nat := if up then (List.range n).reverse else List.range n

theorem strip_eq (n col : Nat) (up : Bool) :
    strip n col up = (scanRows n up).flatMap fun row => [(row, col), (row, col - 1)] := rfl

theorem scanRows_length (n : Nat) (up : Bool) : (scanRows n up).length = n := by cases up <;> simp [scanRows]

theorem mem_scanRows {n r : Nat} {up : Bool} : r ∈ scanRows n up ↔ r < n := by cases up <;> simp [scanRows]

theorem getElem?_scanRows {n i : Nat} (up : Bool) (hi : i < n) :
    (scanRows n up)[i]? = some (if up then n - 1 - i else i) := by
  cases up <;> simp [scanRows, hi]

theorem strip_length (n col : Nat) (up : Bool) : (strip n col up).length = 2 * n := by
  rw [strip_eq, List.length_flatMap]
  simp [scanRows_length, Nat.mul_comm]

theorem mem_strip_iff {n col : Nat} {up : Bool} {z : Nat × Nat} :
    z ∈ strip n col up ↔ z.1 < n ∧ (z.2 = col ∨ z.2 = col - 1) := by
  refine ⟨mem_strip, fun ⟨hr, hc⟩ => ?_⟩
  rw [strip_eq, List.mem_flatMap]
  refine ⟨z.1, mem_scanRows.mpr hr, ?_⟩
  rcases hc with hc | hc <;> simp [← hc]

theorem getElem?_strip {n col i b : Nat} (up : Bool) (hi : i < n) (hb : b < 2) :
    (strip n col up)[2 * i + b]? = some (if up then n - 1 - i else i, col - b) := by
  rw [strip_eq, getElem?_flatMap_of_length (k := 2) (fun _ _ => rfl) i hb, getElem?_scanRows up hi]
  interval_cases b <;> rfl

/-- The right column of strip `j` (44_grid.md R191): column 6 is skipped. -/
def rightColumn (n j : Nat) : Nat := if n - 1 - 2 * j > 6 then n - 1 - 2 * j else n - 2 - 2 * j

/-- The strips from strip `j` on: the scan's column is one more than the right column only where column 6 comes next. -/
theorem stripsFrom_eq {v : Nat} (k fuel j : Nat) (hj : j + k = 2 * v + 8) :
    stripsFrom (k + fuel) (4 * v + 17)
        (if 4 * v + 16 - 2 * j ≥ 6 then 4 * v + 16 - 2 * j else 4 * v + 15 - 2 * j) (j % 2 == 0) =
      (List.range' j k).flatMap fun j => strip (4 * v + 17) (rightColumn (4 * v + 17) j) (j % 2 == 0) := by
  induction k generalizing j with
  | zero =>
    rw [if_neg (by omega), show 4 * v + 15 - 2 * j = 0 by omega]
    cases fuel <;> rfl
  | succ k ih =>
    rw [Nat.succ_add, stripsFrom, if_neg (by split <;> omega), List.range'_succ, List.flatMap_cons,
      ← ih (j + 1) (by omega)]
    have hright : (if (if 4 * v + 16 - 2 * j ≥ 6 then 4 * v + 16 - 2 * j else 4 * v + 15 - 2 * j) = 6 then 5
        else if 4 * v + 16 - 2 * j ≥ 6 then 4 * v + 16 - 2 * j else 4 * v + 15 - 2 * j) = rightColumn (4 * v + 17) j := by
      unfold rightColumn
      split_ifs <;> omega
    have hnext : rightColumn (4 * v + 17) j - 2 =
        if 4 * v + 16 - 2 * (j + 1) ≥ 6 then 4 * v + 16 - 2 * (j + 1) else 4 * v + 15 - 2 * (j + 1) := by
      unfold rightColumn
      split_ifs <;> omega
    have hflip : (!(j % 2 == 0)) = ((j + 1) % 2 == 0) := by
      rw [Bool.eq_iff_iff, Bool.not_eq_true', beq_eq_false_iff_ne, beq_iff_eq]
      omega
    simp only [hright, hnext, hflip]

theorem mapOrder_eq (v : Nat) : mapOrder (4 * v + 17) =
    (List.range (2 * v + 8)).flatMap fun j => strip (4 * v + 17) (rightColumn (4 * v + 17) j) (j % 2 == 0) := by
  have h := stripsFrom_eq (2 * v + 8) (2 * v + 9) 0 (v := v) (by omega)
  rw [if_pos (by omega), show 2 * v + 8 + (2 * v + 9) = 4 * v + 17 by omega] at h
  rw [List.range_eq_range', ← h]
  rfl

theorem mapOrder_length (v : Nat) : (mapOrder (4 * v + 17)).length = (4 * v + 16) * (4 * v + 17) := by
  rw [mapOrder_eq, List.length_flatMap]
  simp [strip_length]
  ring

theorem getElem?_mapOrder {v j i b : Nat} (hj : j < 2 * v + 8) (hi : i < 4 * v + 17) (hb : b < 2) :
    (mapOrder (4 * v + 17))[2 * ((4 * v + 17) * j + i) + b]? =
      some (if j % 2 = 0 then 4 * v + 16 - i else i, rightColumn (4 * v + 17) j - b) := by
  rw [show 2 * ((4 * v + 17) * j + i) + b = 2 * (4 * v + 17) * j + (2 * i + b) by ring, mapOrder_eq,
    getElem?_flatMap_of_length (fun j _ => strip_length _ _ _) j (by omega), List.getElem?_range hj]
  simp [getElem?_strip _ hi hb]

theorem mem_mapOrder_iff {v r c : Nat} : (r, c) ∈ mapOrder (4 * v + 17) ↔ r < 4 * v + 17 ∧ c < 4 * v + 17 ∧ c ≠ 6 := by
  rw [mapOrder_eq]
  simp only [List.mem_flatMap, List.mem_range, mem_strip_iff, rightColumn]
  constructor
  · rintro ⟨j, hj, hr, hc⟩
    split at hc <;> omega
  · rintro ⟨hr, hc, h6⟩
    refine ⟨if c > 6 then (4 * v + 16 - c) / 2 else (4 * v + 15 - c) / 2, ?_, hr, ?_⟩
    · split <;> omega
    · split_ifs <;> omega

/-- The scan has as many entries as it visits cells, so it visits none twice. -/
theorem mapOrder_nodup (v : Nat) : (mapOrder (4 * v + 17)).Nodup := by
  rw [← Multiset.coe_nodup, ← Multiset.toFinset_card_eq_card_iff_nodup]
  have : (mapOrder (4 * v + 17) : Multiset (Nat × Nat)).toFinset =
      Finset.range (4 * v + 17) ×ˢ (Finset.range (4 * v + 17)).erase 6 := by
    ext ⟨r, c⟩
    rw [Multiset.mem_toFinset, Multiset.mem_coe, mem_mapOrder_iff]
    simp [and_comm]
  rw [this, Multiset.coe_card, mapOrder_length, Finset.card_product, Finset.card_erase_of_mem (by simp)]
  simp [Nat.mul_comm]

/-- Settles O36: the strips one by one. -/
theorem mapOrderVisitsEveryCellButColumnSixOnce : Obligations.MapOrderVisitsEveryCellButColumnSixOnce := by
  unfold Obligations.MapOrderVisitsEveryCellButColumnSixOnce
  exact fun v _ _ => ⟨mapOrder_nodup v, mapOrder_length v, fun r c => mem_mapOrder_iff, fun j i b hj hi hb =>
    getElem?_mapOrder hj hi hb⟩

/-! The map pass. -/

/-- The cells of a scan that are UNSET in `m`, in the scan's order. -/
def freeCells (m : Memory) (scan : List (Nat × Nat)) : List (Nat × Nat) := scan.filter fun z => m.cell z.1 z.2 == unset

/-- The colour that stream bit `k` gives the cell (44_grid.md R192). -/
def mappedColour (mask : BitVec 3) (cwlen : Nat) (m : Memory) (k : Nat) (z : Nat × Nat) : Byte :=
  colour (streamBit cwlen m k ^^ maskbit mask z.1 z.2)

theorem mem_freeCells {m : Memory} {scan : List (Nat × Nat)} {z : Nat × Nat} :
    z ∈ freeCells m scan ↔ z ∈ scan ∧ m.cell z.1 z.2 = unset := by
  simp [freeCells]

/-- A cell's byte is no codeword. -/
theorem streamBit_write (cwlen : Nat) (hcw : cwlen ≤ 4096) (m : Memory) (r c : Nat) (v : Byte) (k : Nat) :
    streamBit cwlen (m.write (cellAddr r c) v) k = streamBit cwlen m k := by
  unfold streamBit
  split
  next hk => rw [Memory.read_write_other m v (cwAddr_ne_cellAddr (by omega) r c)]
  next => rfl

theorem cell_write_other (m : Memory) {z y : Nat × Nat} (hz : z.2 < 256) (hy : y.2 < 256) (h : z ≠ y) (v : Byte) :
    (m.write (cellAddr y.1 y.2) v).cell z.1 z.2 = m.cell z.1 z.2 :=
  Memory.read_write_other m v fun e => h (Prod.ext_iff.mpr ((cellAddr_inj hz hy).mp e))

/-- What the map pass leaves along a scan, `k` bits of the stream being taken. -/
structure Mapped (mask : BitVec 3) (cwlen : Nat) (scan : List (Nat × Nat)) (m : Memory) (k : Nat)
    (t : Memory × Nat) : Prop where
  free : ∀ (i : Nat) (z : Nat × Nat), (freeCells m scan)[i]? = some z →
    t.1.cell z.1 z.2 = mappedColour mask cwlen m (k + i) z
  kept : ∀ z : Nat × Nat, z.2 < 256 → z ∉ freeCells m scan → t.1.cell z.1 z.2 = m.cell z.1 z.2
  count : t.2 = k + (freeCells m scan).length

/-- The first cell of a scan takes bit `k` when it is UNSET, and the rest of the scan does not come back to it. -/
theorem Mapped.cons {mask : BitVec 3} {cwlen : Nat} (hcw : cwlen ≤ 4096) {scan : List (Nat × Nat)} {y : Nat × Nat}
    (hy : y ∉ scan) (hscan : ∀ z ∈ y :: scan, z.2 < 256) {m : Memory} {k : Nat} {t : Memory × Nat}
    (hfree : m.cell y.1 y.2 = unset)
    (h : Mapped mask cwlen scan (m.write (cellAddr y.1 y.2) (mappedColour mask cwlen m k y)) (k + 1) t) :
    Mapped mask cwlen (y :: scan) m k t := by
  have hy2 : y.2 < 256 := hscan y List.mem_cons_self
  have hcons : freeCells m (y :: scan) = y :: freeCells m scan := List.filter_cons_of_pos (by simpa using hfree)
  have hrest : freeCells (m.write (cellAddr y.1 y.2) (mappedColour mask cwlen m k y)) scan = freeCells m scan :=
    List.filter_congr fun z hz => by
      rw [cell_write_other m (hscan z (List.mem_cons_of_mem y hz)) hy2 (ne_of_mem_of_not_mem hz hy)]
  have hy' : y ∉ freeCells m scan := fun h => hy (mem_freeCells.mp h).1
  obtain ⟨hfreed, hkept, hcount⟩ := h
  rw [hrest] at hfreed hkept hcount
  refine ⟨fun i z hz => ?_, fun z hz hnot => ?_, ?_⟩ <;> rw [hcons] at *
  · cases i with
    | zero =>
      obtain rfl : y = z := by simpa using hz
      exact (hkept y hy2 hy').trans (Memory.read_write_nonzero m _ (Memory.colour_ne_unset _))
    | succ i =>
      rw [hfreed i z (by simpa using hz), mappedColour, streamBit_write cwlen hcw, Nat.add_right_comm, mappedColour,
        Nat.add_assoc]
  · obtain ⟨hne, hnot⟩ := not_or.mp (mt List.mem_cons.mpr hnot)
    exact (hkept z hz hnot).trans (cell_write_other m hz hy2 hne _)
  · rw [hcount, List.length_cons]
    omega

/-- A first cell that is set is passed over. -/
theorem Mapped.cons_set {mask : BitVec 3} {cwlen : Nat} {scan : List (Nat × Nat)} {y : Nat × Nat} {m : Memory} {k : Nat}
    {t : Memory × Nat} (hset : m.cell y.1 y.2 ≠ unset) (h : Mapped mask cwlen scan m k t) :
    Mapped mask cwlen (y :: scan) m k t := by
  have hcons : freeCells m (y :: scan) = freeCells m scan := List.filter_cons_of_neg (by simpa using hset)
  obtain ⟨hfreed, hkept, hcount⟩ := h
  rw [← hcons] at hfreed hkept hcount
  exact ⟨hfreed, hkept, hcount⟩

theorem mapped_foldl (mask : BitVec 3) {cwlen : Nat} (hcw : cwlen ≤ 4096) (scan : List (Nat × Nat))
    (hnodup : scan.Nodup) (hscan : ∀ z ∈ scan, z.2 < 256) (m : Memory) (k : Nat) :
    Mapped mask cwlen scan m k (scan.foldl (mapCell mask cwlen) (m, k)) := by
  induction scan generalizing m k with
  | nil => exact ⟨nofun, fun _ _ _ => rfl, rfl⟩
  | cons y scan ih =>
    obtain ⟨hy, hnodup⟩ := List.nodup_cons.mp hnodup
    have ih := ih hnodup fun z hz => hscan z (List.mem_cons_of_mem y hz)
    rw [List.foldl_cons, mapCell]
    by_cases hfree : m.cell y.1 y.2 = unset
    · rw [if_neg (not_not.mpr hfree)]
      exact .cons hcw hy hscan hfree (ih _ _)
    · rw [if_pos hfree]
      exact .cons_set hfree (ih m k)

theorem mapped_mapPass {s : State} (hv : s.versionLegal) (hc : s.cwlen.toNat ≤ 4096) (mask : BitVec 3) (m : Memory) :
    Mapped mask s.cwlen.toNat (mapOrder s.side) m 0 (mapPass s.side mask s.cwlen.toNat m) :=
  mapped_foldl mask hc _ (mapOrder_nodup _)
    (fun _ hz => (mem_mapOrder hz).2.trans_le ((side_le hv).trans (by decide))) m 0

/-- Settles O37: the pass along the scan, from bit 0 of the stream on. -/
theorem gmapPlacesTheStreamInScanOrder : Obligations.GmapPlacesTheStreamInScanOrder := by
  unfold Obligations.GmapPlacesTheStreamInScanOrder
  refine fun s hv hc => ⟨_, exec_gmap hv hc, rfl, ?_⟩
  obtain ⟨hfreed, hkept, hcount⟩ := mapped_mapPass hv hc s.mask s.mem
  intro free
  have hlength : free.length = (mapPass s.side s.mask s.cwlen.toNat s.mem).2 := (hcount.trans (Nat.zero_add _)).symm
  refine ⟨fun k z hz => (hfreed k z hz).trans ?_, fun r c hc hz => hkept (r, c) hc hz, ?_, ?_⟩
  · rw [mappedColour, Nat.zero_add, streamBit]
    by_cases hk : k < 8 * s.cwlen.toNat <;> simp [hk]
  · rw [hlength]
    simp
  · rw [hlength]
    simp

end Sys2Proof.Machine

/-! PROOF. What a build leaves in every cell (44_grid.md R195, R196): the fixed patterns' colours, the format and version
bits,
and the stream on the cells that are left. -/

namespace Sys2Proof.Machine

/-! The fixed patterns. -/

/-- The alignment colour of a build (44_grid.md R184): the patterns whose centre no finder has. -/
def builtAlignment (v r c : Nat) : Option Bool :=
  ((centres (aposTable v)).find? fun z =>
    decide (Ref.distance r c z.1 z.2 ≤ 2) && (Ref.finder (4 * v + 17) z.1 z.2).isNone).map fun z =>
      Ref.distance r c z.1 z.2 != 1

/-- The colour that the finders, the alignment patterns and the timing tracks of version `v` have for the cell. -/
def patternAt (v r c : Nat) : Option Bool :=
  (Ref.finder (4 * v + 17) r c).or ((builtAlignment v r c).or (Ref.timing (4 * v + 17) r c))

theorem Ref.finder_eq_none {n r c : Nat} : Ref.finder n r c = none ↔
    4 < Ref.distance r c 3 3 ∧ 4 < Ref.distance r c (n - 4) 3 ∧ 4 < Ref.distance r c 3 (n - 4) := by
  simp [Ref.finder_eq, finderStamp, stampOf]

theorem Ref.timing_eq_none {n r c : Nat} : Ref.timing n r c = none ↔
    ¬ (c = 6 ∧ 8 ≤ r ∧ r ≤ n - 9) ∧ ¬ (r = 6 ∧ 8 ≤ c ∧ c ≤ n - 9) := by
  unfold Ref.timing
  split_ifs <;> simp only [true_iff, false_iff] <;> omega

theorem builtAlignment_eq_none {v r c : Nat} : builtAlignment v r c = none ↔
    ∀ z ∈ centres (aposTable v), Ref.finder (4 * v + 17) z.1 z.2 = none → 2 < Ref.distance r c z.1 z.2 := by
  simp only [builtAlignment, Option.map_eq_none_iff, List.find?_eq_none, Bool.and_eq_true, decide_eq_true_eq,
    Option.isNone_iff_eq_none, not_and]
  exact forall₂_congr fun z _ =>
    ⟨fun h hf => Nat.lt_of_not_le fun hd => h hd hf, fun h hd hf => absurd (h hf) (Nat.not_lt.mpr hd)⟩

/-- Column 6 holds nothing but patterns: two separators and finders, and the timing track between them. -/
theorem patternAt_column_six {v r : Nat} (hr : r < 4 * v + 17) : patternAt v r 6 ≠ none := by
  intro h
  rw [patternAt, Option.or_eq_none_iff, Option.or_eq_none_iff, Ref.finder_eq_none, Ref.timing_eq_none] at h
  obtain ⟨⟨h1, h2, -⟩, -, htiming, -⟩ := h
  rw [← Nat.not_le, Ref.distance_le_iff] at h1 h2
  omega

/-- Where the positions of a version lie: at 6, at n − 7, and between them far enough from both (10_state.md R32). -/
theorem aposTable_region :
    ∀ v < 41, ∀ a ∈ aposTable v, a = 6 ∨ (16 ≤ a ∧ (a = 4 * v + 10 ∨ a + 14 ≤ 4 * v + 17)) := by
  decide

/-- Where the alignment patterns of a build are centred: on a timing track between the finders, or off both. -/
theorem builtCentre_region {v : Nat} (hv' : v ≤ 40) {z : Nat × Nat} (hz : z ∈ centres (aposTable v))
    (hfinder : Ref.finder (4 * v + 17) z.1 z.2 = none) : (z.1 = 6 ∧ 16 ≤ z.2 ∧ z.2 + 14 ≤ 4 * v + 17) ∨
      (z.2 = 6 ∧ 16 ≤ z.1 ∧ z.1 + 14 ≤ 4 * v + 17) ∨ (16 ≤ z.1 ∧ 16 ≤ z.2) := by
  obtain ⟨hz1, hz2⟩ := mem_centres.mp hz
  have hregion := aposTable_region v (Nat.lt_succ_of_le hv')
  rw [Ref.finder_eq_none, ← Nat.not_le, ← Nat.not_le, ← Nat.not_le, Ref.distance_le_iff, Ref.distance_le_iff,
    Ref.distance_le_iff] at hfinder
  rcases hregion _ hz1 with h1 | ⟨h1, h1' | h1'⟩ <;> rcases hregion _ hz2 with h2 | ⟨h2, h2' | h2'⟩ <;> omega

/-- The format and version areas are free of patterns. -/
theorem patternAt_of_isMeta {v r c : Nat} (hv : 1 ≤ v) (hv' : v ≤ 40) (h : Ref.isMeta v r c = true) :
    patternAt v r c = none := by
  simp only [Ref.isMeta, decide_eq_true_eq] at h
  rw [patternAt, Option.or_eq_none_iff, Option.or_eq_none_iff, Ref.finder_eq_none, Ref.timing_eq_none,
    builtAlignment_eq_none]
  refine ⟨?_, fun z hz hfinder => ?_, ?_⟩
  · simp only [← Nat.not_le, Ref.distance_le_iff]
    omega
  · rw [← Nat.not_le, Ref.distance_le_iff]
    rcases builtCentre_region hv' hz hfinder with hregion | hregion | hregion <;> omega
  · omega

/-! The format and version areas. -/

/-- The colour that the format word `f` and version `v`'s version word have for the cell. -/
def metaAt (v f : Nat) (light : Bool) (r c : Nat) : Option Bool :=
  (formatStamp (4 * v + 17) f light r c).or
    (if v < 7 then none
    else (versionIndex (4 * v + 17) r c).map fun i => (bchVersion v).testBit i && !light)

theorem versionIndex_eq_none {n r c : Nat} : versionIndex n r c = none ↔
    ¬ (r ≤ 5 ∧ n - 11 ≤ c ∧ c ≤ n - 9) ∧ ¬ (c ≤ 5 ∧ n - 11 ≤ r ∧ r ≤ n - 9) := by
  unfold versionIndex
  split_ifs <;> simp only [true_iff, false_iff] <;> omega

theorem metaAt_eq_none {v f r c : Nat} {light : Bool} (hv : 1 ≤ v) :
    metaAt v f light r c = none ↔ Ref.isMeta v r c = false := by
  have hiff : formatStamp (4 * v + 17) f light r c = none ↔ _ := formatStamp_eq_none (by omega)
  rw [metaAt, Option.or_eq_none_iff, hiff, Ref.isMeta, decide_eq_false_iff_not]
  by_cases h7 : v < 7
  · rw [if_pos h7, eq_self, and_true]
    omega
  · rw [if_neg h7, Option.map_eq_none_iff, versionIndex_eq_none]
    omega

/-- Under trialMetaLight both words are light throughout (44_grid.md R187). -/
theorem metaAt_light {v f r c : Nat} {d : Bool} (h : metaAt v f true r c = some d) : d = false := by
  have hmap {o : Option Nat} (ho : o.map (fun _ => false) = some d) : d = false := by
    obtain ⟨_, -, rfl⟩ := Option.map_eq_some_iff.mp ho
    rfl
  simp only [metaAt, formatStamp, Bool.not_true, Bool.and_false, Option.or_eq_some_iff] at h
  rcases h with h | ⟨-, h⟩ <;> split at h
  exacts [(Option.some.inj h).symm, hmap h, (nomatch h), hmap h]

/-! The arrays before the map pass. -/

/-- What the passes of a build but the map pass leave. -/
def structured (s : State) (mask : BitVec 3) (light : Bool) : Memory :=
  versionPassOf s.side s.version.toNat light (formatPass s.side (bchFormat (formatData s.ecl mask)) light
    (timingPass s.side (alignPass s.side s.version.toNat (finderPass s.side (clearPass s.mem)))))

theorem build_eq_mapPass (s : State) (mask : BitVec 3) (light : Bool) :
    build s s.side mask light = mapPass s.side mask s.cwlen.toNat (structured s mask light) :=
  build_eq s s.side mask light

section Structured

variable {s : State} (hv : s.versionLegal)
include hv

theorem touched_structured (mask : BitVec 3) (light : Bool) :
    Touched s.side (clearPass s.mem) (structured s mask light) :=
  (Painted.finderPass (side_le hv) _).toTouched.trans <| (Painted.alignPass (side_le hv) _ _).toTouched.trans <|
    (Painted.timingPass (side_le hv) _).toTouched.trans <| (Touched.formatPass (side_ge hv) (side_le hv) _ _ _).trans
      (Painted.versionPassOf (side_le hv) _ _ _).toTouched

/-- The codewords the map pass reads are those before the build. -/
theorem streamBit_structured (hc : s.cwlen.toNat ≤ 4096) (mask : BitVec 3) (light : Bool) (k : Nat) :
    streamBit s.cwlen.toNat (structured s mask light) k = streamBit s.cwlen.toNat s.mem k := by
  unfold streamBit
  split
  next hk =>
    have hk' : k / 8 < 4096 := by omega
    rw [(touched_structured hv mask light).read_cw hk', (Touched.clearPass s.mem).read_cw hk']
  next => rfl

variable {r c : Nat} (hr : r < s.side) (hc : c < s.side)
include hr hc

theorem cell_finders : (finderPass s.side (clearPass s.mem)).cell r c = Ref.stamped unset (Ref.finder s.side r c) := by
  have hn := side_le hv
  rw [cell_finderPass (by have := side_ge hv; omega) hn _ hr hc, cell_clearPass s.mem (by omega) (by omega)]

omit hr hc in
theorem alignment_finders (r c : Nat) : Ref.alignment s.version.toNat (finderPass s.side (clearPass s.mem)) r c =
    builtAlignment s.version.toNat r c := by
  refine congrArg _ (List.find?_congr fun z hz => ?_)
  obtain ⟨hz1, hz2⟩ := mem_centres.mp hz
  have hin := fun a ha => (aposTable_spaced s.version.toNat (Nat.lt_succ_of_le hv.2) a ha).1
  rw [cell_finders hv (hin _ hz1) (hin _ hz2), Bool.eq_iff_iff]
  simp [Ref.stamped_eq_unset]

theorem cell_patterns :
    (timingPass s.side (alignPass s.side s.version.toNat (finderPass s.side (clearPass s.mem)))).cell r c =
      Ref.stamped unset (patternAt s.version.toNat r c) := by
  rw [cell_timingPass (side_le hv) _ hr hc, cell_alignPass hv.1 hv.2 _ hr hc, cell_finders hv hr hc,
    alignment_finders hv, Ref.stamped_stamped, Ref.stamped_stamped]
  rfl

/-- The patterns and the two words have no cell in common, so each cell has the colour of one of them. -/
theorem cell_structured (mask : BitVec 3) (light : Bool) : (structured s mask light).cell r c =
    Ref.stamped unset ((patternAt s.version.toNat r c).or
      (metaAt s.version.toNat (bchFormat (formatData s.ecl mask)) light r c)) := by
  have hn := side_le hv
  have hn' := side_ge hv
  have hformat (f : Nat) :
      ((formatStamp s.side f light r c).map colour).getD (Ref.stamped unset (patternAt s.version.toNat r c)) =
        Ref.stamped unset ((patternAt s.version.toNat r c).or (formatStamp s.side f light r c)) := by
    cases hf : formatStamp s.side f light r c with
    | none => rw [Option.or_none]; rfl
    | some d =>
      have hmeta : metaAt s.version.toNat f light r c ≠ none := by simp [metaAt, hf]
      rw [ne_eq, metaAt_eq_none hv.1, Bool.not_eq_false] at hmeta
      rw [patternAt_of_isMeta hv.1 hv.2 hmeta, Option.none_or, Ref.stamped_unset rfl]
      rfl
  rw [structured, cell_versionPassOf (by omega) hn _ _ _ hr hc, cell_formatPass hn' hn _ _ _ (by omega),
    cell_patterns hv hr hc, hformat, Ref.stamped_stamped, Option.or_assoc]
  rfl

end Structured

/-! The built symbol. -/

/-- The cells that a build of version `v` leaves to the stream, in the scan's order. -/
def streamCells (v : Nat) : List (Nat × Nat) :=
  (mapOrder (4 * v + 17)).filter fun z => (patternAt v z.1 z.2).isNone && !Ref.isMeta v z.1 z.2

theorem freeCells_structured {s : State} (hv : s.versionLegal) (mask : BitVec 3) (light : Bool) :
    freeCells (structured s mask light) (mapOrder s.side) = streamCells s.version.toNat := by
  refine List.filter_congr fun z hz => ?_
  obtain ⟨hr, hc⟩ := mem_mapOrder hz
  rw [cell_structured hv hr hc, Bool.eq_iff_iff]
  simp [Ref.stamped_eq_unset, metaAt_eq_none hv.1]

/-- A cell of no pattern and no word has a place among them: it is none of column 6. -/
theorem exists_streamCells_index {v r c : Nat} (hr : r < 4 * v + 17) (hc : c < 4 * v + 17)
    (hpattern : patternAt v r c = none)
    (hmeta : Ref.isMeta v r c = false) : ∃ k : Nat, (streamCells v)[k]? = some (r, c) := by
  have hcolumn : c ≠ 6 := by
    rintro rfl
    exact patternAt_column_six hr hpattern
  rw [← List.mem_iff_getElem?, streamCells, List.mem_filter, mem_mapOrder_iff]
  exact ⟨⟨hr, hc, hcolumn⟩, by simp [hpattern, hmeta]⟩

/-- They take the bits of the stream in their order. -/
theorem cell_build_of_index {s : State} (hv : s.versionLegal) (hcw : s.cwlen.toNat ≤ 4096)
    (mask : BitVec 3) (light : Bool)
    {k : Nat} {z : Nat × Nat} (hk : (streamCells s.version.toNat)[k]? = some z) :
    (build s s.side mask light).1.cell z.1 z.2 = mappedColour mask s.cwlen.toNat s.mem k z := by
  rw [← freeCells_structured hv mask light] at hk
  rw [build_eq_mapPass, (mapped_mapPass hv hcw mask _).free k z hk, mappedColour, Nat.zero_add,
    streamBit_structured hv hcw, mappedColour]

section Built

variable {s : State} (hv : s.versionLegal) (hcw : s.cwlen.toNat ≤ 4096) (mask : BitVec 3) (light : Bool) {r c : Nat}
  (hr : r < s.side) (hc : c < s.side)
include hv hcw hr hc

/-- A cell of a pattern, of the format word or of the version word keeps its colour. -/
theorem cell_build_of_some {d : Bool} (h : (patternAt s.version.toNat r c).or
    (metaAt s.version.toNat (bchFormat (formatData s.ecl mask)) light r c) = some d) :
    (build s s.side mask light).1.cell r c = colour d := by
  have hcell := cell_structured hv hr hc mask light
  rw [h, Ref.stamped_unset rfl] at hcell
  rw [build_eq_mapPass, ← hcell]
  refine (mapped_mapPass hv hcw mask _).kept (r, c) (hc.trans_le ((side_le hv).trans (by decide))) fun hmem => ?_
  exact Memory.colour_ne_unset d (hcell.symm.trans (mem_freeCells.mp hmem).2)

/-- A pattern's cell does not depend on the mask, the level or the codewords. -/
theorem cell_build_of_pattern {d : Bool} (h : patternAt s.version.toNat r c = some d) :
    (build s s.side mask light).1.cell r c = colour d :=
  cell_build_of_some hv hcw mask light hr hc (by rw [h, Option.some_or])

/-- Every cell has a colour. -/
theorem cell_build_eq_colour : ∃ d, (build s s.side mask light).1.cell r c = colour d := by
  cases h : (patternAt s.version.toNat r c).or (metaAt s.version.toNat (bchFormat (formatData s.ecl mask)) light r c) with
  | some d => exact ⟨d, cell_build_of_some hv hcw mask light hr hc h⟩
  | none =>
    obtain ⟨hpattern, hmeta⟩ := Option.or_eq_none_iff.mp h
    obtain ⟨k, hk⟩ := exists_streamCells_index hr hc hpattern ((metaAt_eq_none hv.1).mp hmeta)
    exact ⟨_, cell_build_of_index hv hcw mask light hk⟩

/-- A build with light words differs from the other only where the words are (45_mask.md R232). -/
theorem cell_build_light : (build s s.side mask true).1.cell r c =
    if Ref.isMeta s.version.toNat r c then 1 else (build s s.side mask false).1.cell r c := by
  cases hmeta : Ref.isMeta s.version.toNat r c with
  | true =>
    have hnone := patternAt_of_isMeta hv.1 hv.2 hmeta
    have hsome : metaAt s.version.toNat (bchFormat (formatData s.ecl mask)) true r c ≠ none := by
      simp [metaAt_eq_none hv.1, hmeta]
    obtain ⟨d, hd⟩ := Option.ne_none_iff_exists'.mp hsome
    obtain rfl := metaAt_light hd
    exact cell_build_of_some hv hcw mask true hr hc (by rw [hnone, Option.none_or, hd])
  | false =>
    cases hpattern : patternAt s.version.toNat r c with
    | some d =>
      exact (cell_build_of_pattern hv hcw mask true hr hc hpattern).trans
        (cell_build_of_pattern hv hcw mask false hr hc hpattern).symm
    | none =>
      obtain ⟨k, hk⟩ := exists_streamCells_index hr hc hpattern hmeta
      exact (cell_build_of_index hv hcw mask true hk).trans (cell_build_of_index hv hcw mask false hk).symm

end Built

/-- Settles O40: every cell of the symbol has a colour, and no pass reaches a cell outside it. -/
theorem gbuildSetsEveryCellOfTheSymbol : Obligations.GbuildSetsEveryCellOfTheSymbol := by
  unfold Obligations.GbuildSetsEveryCellOfTheSymbol
  refine fun s hv hcw => ⟨_, exec_gbuild hv hcw, rfl, fun r c hr hc => ?_, fun r c hr hc hout => ?_⟩
  · obtain ⟨d, hd⟩ := cell_build_eq_colour hv hcw s.mask false hr hc
    rw [State.complete_mem, State.setMapped_mem, State.setMem_mem, hd]
    cases d
    exacts [.inl rfl, .inr rfl]
  · have htouched : Touched s.side (clearPass s.mem) (build s s.side s.mask false).1 := by
      rw [build_eq_mapPass]
      exact (touched_structured hv _ _).trans (Painted.mapPass (side_le hv) _ _ _).toTouched
    refine (htouched.outside _ fun r' c' hr' hc' heq => ?_).trans (cell_clearPass s.mem hr hc)
    obtain ⟨rfl, rfl⟩ := (cellAddr_inj (by omega) (by have := side_le hv; omega)).mp heq
    exact hout ⟨hr', hc'⟩

/-- Settles O42: each of these cells has a pattern's colour, which the version alone decides. -/
theorem fixedPatternCellsIgnoreMaskAndData : Obligations.FixedPatternCellsIgnoreMaskAndData := by
  unfold Obligations.FixedPatternCellsIgnoreMaskAndData
  intro s s' t t' hv hversion hcw hcw' h h' r c hr hc hfixed
  have hv' : s'.versionLegal := by rwa [State.versionLegal, hversion]
  have hside : s'.side = s.side := by rw [State.side, hversion]
  have hpattern : patternAt s.version.toNat r c ≠ none := by
    rw [patternAt, ne_eq, Option.or_eq_none_iff, Option.or_eq_none_iff, builtAlignment_eq_none]
    rintro ⟨hfinder, halign, htiming⟩
    rcases hfixed with hf | ht | ⟨z, hz, hzf, hdist⟩
    exacts [hf hfinder, ht htiming, absurd hdist (Nat.not_le.mpr (halign z hz hzf))]
  obtain ⟨d, hd⟩ := Option.ne_none_iff_exists'.mp hpattern
  obtain rfl := Host.Outcome.next.inj ((exec_gbuild hv hcw).symm.trans h)
  obtain rfl := Host.Outcome.next.inj ((exec_gbuild hv' hcw').symm.trans h')
  exact (cell_build_of_pattern hv hcw _ _ hr hc hd).trans
    (cell_build_of_pattern hv' hcw' _ _ (hside ▸ hr) (hside ▸ hc) (hversion ▸ hd)).symm

end Sys2Proof.Machine

/-! PROOF. BEST (45_mask.md R232): the scores fit their registers, and the winner is the first of the least. -/

namespace Sys2Proof.Machine

/-! Scores fit 32 bits (45_mask.md R226). -/

section Bounds

variable {n : Nat} (hn : n ≤ 177) (dark : Nat → Nat → Bool)
include hn

theorem card_Icc_le : (Finset.Icc 1 (n - 2)).card ≤ 177 := by
  rw [Nat.card_Icc]
  omega

/-- Of the nine cells around and at a cell at most nine share its colour. -/
theorem Ref.penaltyA_le : Ref.penaltyA n dark ≤ 177 * (177 * 7) := by
  unfold Ref.penaltyA
  have hterm (r c : Nat) (p : Nat × Nat → Prop) [DecidablePred p] :
      ((Finset.Icc (r - 1) (r + 1) ×ˢ Finset.Icc (c - 1) (c + 1)).filter p).card ≤ 9 := by
    refine (Finset.card_filter_le _ _).trans ?_
    rw [Finset.card_product, Nat.card_Icc, Nat.card_Icc]
    exact Nat.mul_le_mul (show _ ≤ 3 by omega) (show _ ≤ 3 by omega)
  refine (Finset.sum_le_card_nsmul _ _ (177 * 7) fun r _ => ?_).trans (Nat.mul_le_mul_right _ (card_Icc_le hn))
  refine (Finset.sum_le_card_nsmul _ _ 7 fun c _ => ?_).trans (Nat.mul_le_mul_right _ (card_Icc_le hn))
  have := hterm r c fun z => z ≠ (r, c) ∧ dark z.1 z.2 = dark r c
  dsimp only
  split <;> omega

theorem card_product_le {k l : Nat} (hk : k ≤ n) (hl : l ≤ n) (p : Nat × Nat → Prop) [DecidablePred p] :
    ((Finset.range k ×ˢ Finset.range l).filter p).card ≤ 177 * 177 := by
  refine (Finset.card_filter_le _ _).trans ?_
  rw [Finset.card_product, Finset.card_range, Finset.card_range]
  exact Nat.mul_le_mul (hk.trans hn) (hl.trans hn)

theorem Ref.penaltyB_le : Ref.penaltyB n dark ≤ 3 * (177 * 177) :=
  Nat.mul_le_mul_left 3 (card_product_le hn (Nat.sub_le n 1) (Nat.sub_le n 1) _)

theorem Ref.penaltyC_le : Ref.penaltyC n dark ≤ 40 * (177 * 177 + 177 * 177) :=
  Nat.mul_le_mul_left 40 (Nat.add_le_add (card_product_le hn le_rfl (Nat.sub_le n 6) _)
    (card_product_le hn (Nat.sub_le n 6) le_rfl _))

theorem Ref.darkCells_le : Ref.darkCells n dark ≤ 177 * 177 := card_product_le hn le_rfl le_rfl _

theorem Ref.penaltyD_le (mode : RuleDPercent) {d : Nat} (hd : d ≤ 177 * 177) :
    Ref.penaltyD mode n d ≤ 10 * (100 * (177 * 177)) := by
  have hn2 : n ^ 2 ≤ 177 ^ 2 := Nat.pow_le_pow_left hn 2
  cases mode with
  | exact =>
    refine Nat.mul_le_mul_left 10 ((Nat.div_le_self _ _).trans ?_)
    rw [← Nat.cast_pow]
    omega
  | truncated =>
    have hdiv : 100 * d / n ^ 2 ≤ 100 * d := Nat.div_le_self _ _
    refine Nat.mul_le_mul_left 10 ((Nat.div_le_self _ _).trans ?_)
    generalize 100 * d / n ^ 2 = percentage at hdiv
    omega

theorem Ref.score_lt (mode : RuleDPercent) : Ref.score mode n dark < 2 ^ 32 := by
  have ha := Ref.penaltyA_le hn dark
  have hb := Ref.penaltyB_le hn dark
  have hc := Ref.penaltyC_le hn dark
  have hd := Ref.penaltyD_le hn mode (Ref.darkCells_le hn dark)
  unfold Ref.score
  omega

end Bounds

/-! The winner. -/

/-- `w` is the first of 0..k−1 at which `f` is least. -/
structure FirstLeast (f : Nat → Nat) (k w : Nat) : Prop where
  lt : w < k
  least : ∀ m < k, f w ≤ f m
  first : ∀ m < w, f w < f m

theorem firstLeast_foldl (f : Nat → Nat) (k : Nat) :
    FirstLeast f (k + 1) ((List.range' 1 k).foldl (fun win m => if f m < f win then m else win) 0) := by
  induction k with
  | zero => exact ⟨Nat.zero_lt_one, by simp, nofun⟩
  | succ k ih =>
    obtain ⟨hlt, hleast, hfirst⟩ := ih
    rw [List.range'_1_concat, List.foldl_append, List.foldl_cons, List.foldl_nil, Nat.add_comm 1 k]
    split
    next h =>
      exact ⟨by omega,
        fun m hm => (Nat.lt_succ_iff_lt_or_eq.mp hm).elim (fun hm => h.le.trans (hleast m hm)) (fun e => e ▸ le_rfl),
        fun m hm => h.trans_le (hleast m hm)⟩
    next h =>
      exact ⟨by omega,
        fun m hm => (Nat.lt_succ_iff_lt_or_eq.mp hm).elim (hleast m) (fun e => e ▸ Nat.not_lt.mp h), hfirst⟩

theorem firstLeast_winnerOf (scores : List Nat) : FirstLeast (fun m => scores.getD m 0) 8 (winnerOf scores) :=
  firstLeast_foldl (fun m => scores.getD m 0) 7

/-! The trials. -/

/-- A trial's score, of its own arrays. -/
def trialScore (s : State) (m : Nat) : Nat :=
  Ref.score s.params.ruleDPercent s.side fun r c => (trialMemory s s.side (BitVec.ofNat 3 m)).cell r c == 2#8

theorem getD_trialScores (s : State) {m : Nat} (hm : m < 8) : (trialScores s s.side).getD m 0 = trialScore s m := by
  rw [trialScores, List.getD_eq_getElem?_getD, List.getElem?_map, List.getElem?_range hm, Option.map_some,
    Option.getD_some, memoryScore_eq]
  rfl

theorem toNat_scoreWords {s : State} (hv : s.versionLegal) (m : Fin 8) :
    (scoreWords (trialScores s s.side))[m].toNat = trialScore s m := by
  have hlt : trialScore s m < 2 ^ 32 := Ref.score_lt (side_le hv) _ _
  simp only [scoreWords, Fin.getElem_fin, Vector.getElem_ofFn, BitVec.toNat_ofNat, getD_trialScores s m.isLt]
  exact Nat.mod_eq_of_lt hlt

/-! What BEST leaves. -/

theorem build_setMask (s : State) (m : BitVec 3) (n : Nat) (mask : BitVec 3) (light : Bool) :
    build (s.setMask m) n mask light = build s n mask light := rfl

theorem exec_gbuild_setMask {s : State} (hv : s.versionLegal) (hc : s.cwlen.toNat ≤ 4096) (m : BitVec 3) :
   ∃ u, exec .gbuild { s with mask := m } = .next u ∧ u.mem = (build s s.side m false).1 :=
  ⟨_, exec_gbuild (s := s.setMask m) hv hc, by simp only [build_setMask]; rfl⟩

/-- The trial grid by the built symbol: the words light under trialMetaLight. -/
theorem cell_trialMemory {s : State} (hv : s.versionLegal) (hcw : s.cwlen.toNat ≤ 4096) (m : BitVec 3) {r c : Nat}
    (hr : r < s.side) (hc : c < s.side) :
    (trialMemory s s.side m).cell r c =
      if s.params.trialMetaLight && Ref.isMeta s.version.toNat r c then 1 else (build s s.side m false).1.cell r c := by
  rw [trialMemory]
  cases s.params.trialMetaLight with
  | false => rfl
  | true => rw [cell_build_light hv hcw m hr hc, Bool.true_and]

/-- What a state holds after BEST whose trials had these scores. -/
structure Selected (s : State) (scores : List Nat) (t : State) : Prop where
  status : t.status = s.status.completed
  mask : t.mask = BitVec.ofNat 3 (winnerOf scores)
  res0 : t.res[0] = BitVec.ofNat 32 (winnerOf scores)
  res1 : t.res[1] = BitVec.ofNat 32 (scores.getD (winnerOf scores) 0)
  tscore : t.tscore = scoreWords scores

theorem selected_bested (s : State) (scores : List Nat) : Selected s scores (s.bested scores).complete where
  status := by simp [State.bested]
  mask := by simp [State.bested]
  res0 := by simp [State.bested]
  res1 := by simp [State.bested]
  tscore := by simp [State.bested]

theorem exec_best_selected {s : State} (hv : s.versionLegal) (hcw : s.cwlen.toNat ≤ 4096) :
    ∃ t, exec .best s = .next t ∧ Selected s (trialScores s s.side) t :=
  ⟨_, exec_best hv hcw, selected_bested s _⟩

/-- Settles O47: the winner by its scores, and each trial by the symbol GBUILD builds. -/
theorem bestSelectsTheFirstLeastScore : Obligations.BestSelectsTheFirstLeastScore := by
  unfold Obligations.BestSelectsTheFirstLeastScore
  intro s hv hcw
  obtain ⟨t, ht, hstatus, hmask, hres0, hres1, htscore⟩ := exec_best_selected hv hcw
  have hwin := firstLeast_winnerOf (trialScores s s.side)
  have hwords := toNat_scoreWords hv
  have hgetD := fun m : Fin 8 => getD_trialScores s m.isLt
  generalize trialScores s s.side = scores at *
  generalize winnerOf scores = win at *
  obtain ⟨hlt, hleast, hfirst⟩ := hwin
  have hscore (m : Fin 8) : t.tscore[m].toNat = trialScore s m := by rw [htscore, hwords]
  refine ⟨t, ⟨win, hlt⟩, ht, hstatus, hmask, hres0, ?_, fun m => ?_, fun m => ?_, fun m hm => ?_⟩
  · rw [hres1, htscore]
    simp [scoreWords]
  · obtain ⟨u, hu, hmem⟩ := exec_gbuild_setMask hv hcw (BitVec.ofNat 3 m)
    exact ⟨u, hu, fun r c hr hc => by rw [hmem, cell_trialMemory hv hcw _ hr hc], hscore m⟩
  · rw [BitVec.le_def, hscore, hscore, ← hgetD, ← hgetD]
    exact hleast m m.isLt
  · rw [BitVec.lt_def, hscore, hscore, ← hgetD, ← hgetD]
    exact hfirst m hm

end Sys2Proof.Machine

/-! PROOF. The mask functions (45_mask.md R220, R221). -/

namespace Sys2Proof.Machine

/-- The condition under which mask `m` inverts the cell of row `i`, column `j` (45_mask.md R220). -/
def MaskCondition (m : BitVec 3) (i j : Nat) : Prop :=
  match m.toNat with
  | 0 => 2 ∣ i + j
  | 1 => 2 ∣ i
  | 2 => 3 ∣ j
  | 3 => 3 ∣ i + j
  | 4 => 2 ∣ i / 2 + j / 3
  | 5 => 6 ∣ i * j
  | 6 => 2 ∣ i * j % 2 + i * j % 3
  | _ => 2 ∣ i * j % 3 + (i + j) % 2

theorem maskbit_iff (m : BitVec 3) (i j : Nat) : maskbit m i j = true ↔ MaskCondition m i j := by
  unfold maskbit MaskCondition
  split <;> simp only [*, beq_iff_eq] <;> omega

theorem maskCondition_add_twelve (m : BitVec 3) (i j : Nat) : MaskCondition m (i + 12) j ↔ MaskCondition m i j := by
  unfold MaskCondition
  rw [Nat.add_mul]
  split <;> omega

theorem maskCondition_add_six (m : BitVec 3) (i j : Nat) : MaskCondition m i (j + 6) ↔ MaskCondition m i j := by
  unfold MaskCondition
  rw [Nat.mul_add]
  split <;> omega

/-- Settles O44: the mask function is its condition, and each condition has the period. -/
theorem maskfnEvaluatesTheCondition : Obligations.MaskfnEvaluatesTheCondition := by
  unfold Obligations.MaskfnEvaluatesTheCondition
  intro m row col s
  have hbit := maskbit_iff m row.toNat col.toNat
  refine ⟨fun h => ?_, fun h => ?_, fun x y => ⟨?_, ?_⟩⟩
  · rw [exec_maskfn, hbit.mpr h]
    rfl
  · rw [exec_maskfn, Bool.eq_false_iff.mpr fun hm => h (hbit.mp hm)]
    rfl
  · rw [Bool.eq_iff_iff, maskbit_iff, maskbit_iff, maskCondition_add_twelve]
  · rw [Bool.eq_iff_iff, maskbit_iff, maskbit_iff, maskCondition_add_six]

end Sys2Proof.Machine

/-! PROOF. The two roundings of rule (d) (45_mask.md R225): both are tens of the fifths of a whole distance from 50 percent,
and the two distances differ by one at most, below 50 percent when the percentage is no integer. -/

namespace Sys2Proof.Machine

theorem penD_exact_eq (n d : Nat) : penD .exact n d = 10 * (absDiff (100 * d) (n ^ 2 * 50) / n ^ 2 / 5) := by
  rw [Nat.div_div_eq_div_mul, Nat.mul_comm (n ^ 2), Nat.mul_comm (n ^ 2)]
  rfl

section Distances

variable {x k N : Nat}

/-- At or above `k` times `N` rounding the distance down rounds the quotient down. -/
theorem absDiff_div_of_le (hN : 0 < N) (h : N * k ≤ x) : absDiff x (N * k) / N = absDiff (x / N) k := by
  have hk : k ≤ x / N := (Nat.le_div_iff_mul_le hN).mpr (Nat.mul_comm N k ▸ h)
  rw [absDiff, absDiff, Nat.sub_eq_zero_of_le h, Nat.sub_eq_zero_of_le hk, Nat.add_zero, Nat.add_zero, Nat.sub_mul_div]

theorem absDiff_div_of_dvd (hN : 0 < N) (h : N ∣ x) : absDiff x (N * k) / N = absDiff (x / N) k := by
  obtain ⟨y, rfl⟩ := h
  rw [absDiff, absDiff, ← Nat.mul_sub, ← Nat.mul_sub, ← Nat.mul_add, Nat.mul_div_cancel_left _ hN,
    Nat.mul_div_cancel_left _ hN]

/-- Below `k` times `N`, at no multiple of `N`, rounding the distance down rounds the quotient up. -/
theorem absDiff_div_of_not_dvd (hlt : x < N * k) (h : ¬ N ∣ x) :
    absDiff x (N * k) / N + 1 = absDiff (x / N) k := by
  obtain ⟨x, rfl⟩ := Nat.exists_eq_add_one_of_ne_zero (show x ≠ 0 by rintro rfl; exact h (dvd_zero N))
  have hk : (x + 1) / N < k := Nat.div_lt_of_lt_mul hlt
  rw [Nat.succ_div_of_not_dvd h] at hk ⊢
  rw [absDiff, Nat.sub_eq_zero_of_le hlt.le, Nat.zero_add, Nat.mul_sub_div x N k (by omega), absDiff]
  omega

end Distances

/-- Settles O46: fifths of equal distances, or of distances one apart. -/
theorem ruleDRoundingsDifferByAtMostTen : Obligations.RuleDRoundingsDifferByAtMostTen := by
  unfold Obligations.RuleDRoundingsDifferByAtMostTen
  intro n d hn _
  have hN : 0 < n ^ 2 := Nat.pow_pos hn
  have htruncated : penD .truncated n d = 10 * (absDiff (100 * d / n ^ 2) 50 / 5) := rfl
  rw [penD_exact_eq, htruncated, Nat.mul_comm 50]
  by_cases h : n ^ 2 * 50 ≤ 100 * d ∨ n ^ 2 ∣ 100 * d
  · have hsame := h.elim (absDiff_div_of_le hN) (absDiff_div_of_dvd hN)
    exact ⟨fun _ => by rw [hsame], .inl (by rw [hsame])⟩
  · obtain ⟨hlt, hdvd⟩ := not_or.mp h
    have hone := absDiff_div_of_not_dvd (Nat.not_le.mp hlt) hdvd
    exact ⟨fun hsame => absurd hsame h, by omega⟩

end Sys2Proof.Machine

/-! PROOF. SCORE (45_mask.md R226, R229), and the symbol BEST leaves with its scores (45_mask.md R232). -/

namespace Sys2Proof.Machine

/-! What SCORE reports. -/

/-- The result registers hold, without wrapping, the score of an n × n symbol and its parts. -/
structure ReportsScore (mode : RuleDPercent) (n : Nat) (dark : Nat → Nat → Bool) (t : State) : Prop where
  total : t.res[0].toNat = Ref.score mode n dark
  neighbours : t.res[1].toNat = Ref.penaltyA n dark
  blocks : t.res[2].toNat = Ref.penaltyB n dark
  runs : t.res[3].toNat = Ref.penaltyC n dark
  balance : t.res[4].toNat = Ref.penaltyD mode n (Ref.darkCells n dark)
  count : t.res[5].toNat = Ref.darkCells n dark

theorem ReportsScore.congr {mode : RuleDPercent} {n : Nat} {dark dark' : Nat → Nat → Bool} {t : State}
    (h : ∀ r c, r < n → c < n → dark r c = dark' r c) (ht : ReportsScore mode n dark t) : ReportsScore mode n dark' t where
  total := Ref.score_congr h mode ▸ ht.total
  neighbours := Ref.penaltyA_congr h ▸ ht.neighbours
  blocks := Ref.penaltyB_congr h ▸ ht.blocks
  runs := Ref.penaltyC_congr h ▸ ht.runs
  balance := Ref.darkCells_congr h ▸ ht.balance
  count := Ref.darkCells_congr h ▸ ht.count

theorem reportsScore_scored {s : State} (hn : s.side ≤ 177) (dark : Nat → Nat → Bool) :
    ReportsScore s.params.ruleDPercent s.side dark (s.scored dark).complete := by
  have ha := Ref.penaltyA_le hn dark
  have hb := Ref.penaltyB_le hn dark
  have hc := Ref.penaltyC_le hn dark
  have hd := Ref.penaltyD_le hn s.params.ruleDPercent (Ref.darkCells_le hn dark)
  have hcount := Ref.darkCells_le hn dark
  constructor <;>
    simp [State.scored, Ref.score, penA_eq, penB_eq, penC_eq, penD_eq, darkCount_eq] <;>
    omega

/-- SCORE reports the symbol's colours, UNSET counting as light (45_mask.md R229). -/
theorem exec_score_reports {s : State} (hv : s.versionLegal) :
    ∃ t, exec .score s = .next t ∧ t.status = s.status.completed ∧
      ReportsScore s.params.ruleDPercent s.side (fun r c => s.mem.cell r c == 2#8) t :=
  ⟨_, exec_score hv, by simp [State.scored],
    (reportsScore_scored (side_le hv) _).congr fun _ _ hr hc => darkAt_darkRows s.mem hr hc⟩

/-- Settles O45: the report, and the score as the sum of its parts. -/
theorem scoreWritesTheFourPenalties : Obligations.ScoreWritesTheFourPenalties := by
  unfold Obligations.ScoreWritesTheFourPenalties
  intro s hv
  obtain ⟨t, ht, hstatus, htotal, ha, hb, hc, hd, hcount⟩ := exec_score_reports hv
  refine ⟨t, ht, hstatus, ha, hb, hc, hd, hcount, ?_⟩
  rw [htotal, ha, hb, hc, hd]
  rfl

/-! The winner's symbol. -/

/-- The state GBUILD leaves with another mask. -/
def State.built (s : State) (m : BitVec 3) : State :=
  ((s.setMask m).setMem (build s s.side m false).1).setMapped 0 1 (build s s.side m false).2

theorem exec_gbuild_built {s : State} (hv : s.versionLegal) (hcw : s.cwlen.toNat ≤ 4096) (m : BitVec 3) :
    exec .gbuild { s with mask := m } = .next (s.built m).complete :=
  exec_gbuild (s := s.setMask m) hv hcw

/-- BEST's last build is that of the winner's mask, reported in RES2 and RES3 where GBUILD reports in RES0 and RES1. -/
theorem State.bested_of_built (s : State) (scores : List Nat) :
    (s.bested scores).mem = (s.built (s.bested scores).mask).mem ∧
      (s.bested scores).res[2] = (s.built (s.bested scores).mask).res[0] ∧
      (s.bested scores).res[3] = (s.built (s.bested scores).mask).res[1] := by
  simp [State.bested, State.built]

/-- Settles O48: BEST's last build is GBUILD's with the winner. -/
theorem bestBuildsTheWinnersSymbol : Obligations.BestBuildsTheWinnersSymbol := by
  unfold Obligations.BestBuildsTheWinnersSymbol
  intro s t hv hcw h
  obtain rfl := Host.Outcome.next.inj ((exec_best hv hcw).symm.trans h)
  refine ⟨_, exec_gbuild_built hv hcw _, ?_⟩
  simp only [State.complete_mask, State.complete_mem, State.complete_res]
  exact s.bested_of_built _

/-! The trial scores. -/

/-- A state that SCORE reads as the symbol GBUILD builds of `s` with `mask`. -/
structure HoldsSymbol (s : State) (mask : BitVec 3) (u : State) : Prop where
  version : u.version = s.version
  params : u.params = s.params
  mem : u.mem = (build s s.side mask false).1

theorem holdsSymbol_built (s : State) (mask : BitVec 3) : HoldsSymbol s mask (s.built mask).complete := by
  constructor <;> simp [State.built]

theorem holdsSymbol_bested (s : State) (scores : List Nat) :
    HoldsSymbol s (BitVec.ofNat 3 (winnerOf scores)) (s.bested scores).complete := by
  constructor <;> simp [State.bested]

/-- Without light words trial grid `m` is the built symbol, and SCORE of the symbol reports the trial's score. -/
theorem exec_score_symbol {s u : State} {m : Nat} (hlight : s.params.trialMetaLight = false) (hv : s.versionLegal)
    (h : HoldsSymbol s (BitVec.ofNat 3 m) u) : ∃ w, exec .score u = .next w ∧ w.res[0].toNat = trialScore s m := by
  have hv' : u.versionLegal := by rwa [State.versionLegal, h.version]
  obtain ⟨w, hw, -, hreport⟩ := exec_score_reports hv'
  refine ⟨w, hw, ?_⟩
  rw [hreport.total, h.params, h.mem, State.side, h.version, trialScore, trialMemory, hlight]

/-- RES1 holds the winner's score. -/
theorem res1_bested {s : State} (hv : s.versionLegal) :
    (s.bested (trialScores s s.side)).complete.res[1].toNat = trialScore s (winnerOf (trialScores s s.side)) := by
  have hlt := (firstLeast_winnerOf (trialScores s s.side)).lt
  rw [← toNat_scoreWords hv ⟨_, hlt⟩, (selected_bested s _).res1]
  simp [scoreWords]

/-- Settles O49: SCORE of each built symbol, and of the symbol that BEST leaves. -/
theorem trialScoresAreTheBuiltSymbolsScores : Obligations.TrialScoresAreTheBuiltSymbolsScores := by
  unfold Obligations.TrialScoresAreTheBuiltSymbolsScores
  intro s t hlight hv hcw h
  obtain rfl := Host.Outcome.next.inj ((exec_best hv hcw).symm.trans h)
  refine ⟨fun m => ?_, ?_⟩
  · obtain ⟨w, hw, hscore⟩ := exec_score_symbol hlight hv (holdsSymbol_built s (BitVec.ofNat 3 m))
    refine ⟨_, w, exec_gbuild_built hv hcw _, hw, BitVec.eq_of_toNat_eq ?_⟩
    rw [(selected_bested s _).tscore, toNat_scoreWords hv, hscore]
  · obtain ⟨w, hw, hscore⟩ := exec_score_symbol hlight hv (holdsSymbol_bested s (trialScores s s.side))
    exact ⟨w, hw, BitVec.eq_of_toNat_eq (hscore.trans (res1_bested hv).symm)⟩

end Sys2Proof.Machine

/-! PROOF. A command's life (60_exceptions.md R255, R258): its acceptance, its execution at the engine's turn, and its end in
a completion or in an error that changes STATUS only. -/

namespace Sys2Proof.Machine

/-! How a command ends. -/

/-- A completion without error, whatever it writes, leaves STATUS completed. -/
theorem Completes.status_complete {s t : State} (h : Completes s t) : t.complete.status = s.status.completed := by
  obtain ⟨-, hstatus, -⟩ := h.same_fields
  exact congrArg Status.completed hstatus

/-- Settles O10: an error and a completion are the two ends of a command. -/
theorem executionEndsWithDone : Obligations.ExecutionEndsWithDone := by
  unfold Obligations.ExecutionEndsWithDone
  intro i s
  rcases exec_cases i s with ⟨e, he⟩ | ⟨u, hu, he⟩
  · exact ⟨_, he, .inr ⟨e, rfl⟩⟩
  · exact ⟨_, he, .inl hu.status_complete⟩

/-- A command that sets ERR ends with an error of the state it found. -/
theorem exec_sets_err {i : Instr} {s t : State} (h : exec i s = .next t) (hs : s.status.err = false)
    (ht : t.status.err = true) : ∃ e, t = s.raiseError e := by
  rcases exec_cases i s with ⟨e, he⟩ | ⟨u, hu, he⟩ <;> obtain rfl := Host.Outcome.next.inj (he.symm.trans h)
  · exact ⟨e, rfl⟩
  · rw [hu.status_complete] at ht
    exact absurd (hs.symm.trans ht) Bool.false_ne_true

/-- Settles O11: of the idle turn, an illegal word and a command, only the two last set ERR, and they do so by
`raiseError`. -/
theorem errorChangesStatusOnly : Obligations.ErrorChangesStatusOnly := by
  unfold Obligations.ErrorChangesStatusOnly
  intro s t h hs ht
  cases hb : s.status.busy with
  | false =>
    obtain rfl := Host.Outcome.next.inj ((engineStep_idle hb).symm.trans h)
    exact absurd (hs.symm.trans ht) Bool.false_ne_true
  | true =>
    cases hd : decode s.cmd with
    | command i => exact exec_sets_err ((engineStep_command hb hd).symm.trans h) hs ht
    | illegal why => exact ⟨.illegal, Host.Outcome.next.inj (h.symm.trans (engineStep_illegal hb hd))⟩

/-! The errors of the polynomial commands (60_exceptions.md R251, R252). -/

/-- Two operands are checked one after the other, and either one can be too long. -/
theorem withOperand_withOperand_long {s : State} {ps pt : PReg}
    (h : s.plen[ps.idx].toNat > 256 ∨ s.plen[pt.idx].toNat > 256) (k : List Byte → List Byte → Result) :
    (withOperand s ps fun a => withOperand s pt (k a)) = .next (s.raiseError .len) := by
  by_cases hps : s.plen[ps.idx].toNat > 256
  · exact withOperand_long hps _
  · rw [withOperand_legal (Nat.le_of_not_gt hps), withOperand_long (h.resolve_left hps)]

/-- An operand that passes its check has at most 256 coefficients in normal form. -/
theorem norm_poly_length_le {s : State} {p : PReg} (h : s.plen[p.idx].toNat ≤ 256) : (norm (s.poly p)).length ≤ 256 :=
  (norm_length_le _).trans ((s.poly_length p).trans_le h)

/-- A product is too long only if no operand is zero, since one operand alone has at most 256 coefficients. -/
theorem exec_pmul_long {pd ps pt : PReg} {s : State} (hps : s.plen[ps.idx].toNat ≤ 256)
    (hpt : s.plen[pt.idx].toNat ≤ 256) (h : (norm (s.poly ps)).length + (norm (s.poly pt)).length > 257) :
    exec (.pmul pd ps pt) s = .next (s.raiseError .len) := by
  have ha := norm_poly_length_le hps
  have hb := norm_poly_length_le hpt
  rw [exec_pmul hps hpt, if_neg (by omega), if_pos (by omega)]

/-- Settles O25: the operands are checked first, then the result's length or the divisor. -/
theorem polynomialCommandsReportTheFirstError : Obligations.PolynomialCommandsReportTheFirstError := by
  unfold Obligations.PolynomialCommandsReportTheFirstError
  intro pd ps pt n s
  refine ⟨fun h => ⟨?_, ?_⟩, fun hps => ?_, exec_pmul_long, fun hps h => ?_, fun hps hpt h => ?_⟩
  · simp only [exec, execPmul]
    exact withOperand_withOperand_long h _
  · simp only [exec, execPmod]
    exact withOperand_withOperand_long h _
  · simp only [exec, execRsenc]
    exact withOperand_long hps _
  · rw [exec_rsenc hps, if_pos h]
    rfl
  · rw [exec_pmod hps hpt, if_pos (List.length_eq_zero_iff.mpr h)]
    rfl

/-! Acceptance and the engine's turn. -/

/-- Settles O6: both schedules of the turn are `engineStep`, which reads BUSY and CMD only. -/
theorem engineTurnExecutesThePendingCommand : Obligations.EngineTurnExecutesThePendingCommand := by
  unfold Obligations.EngineTurnExecutesThePendingCommand
  refine fun s => ⟨fun i hb hd => ⟨fun hi => ?_, fun rest hi => ?_⟩, fun hb => ⟨fun hi => ?_, fun rest hi => ?_⟩⟩
  · rw [step_nil hi, engineStep_command hb hd]
  · rw [step_engineTurn hi]
    exact engineStep_command hb hd
  · rw [step_nil hi, engineStep_idle hb]
  · rw [step_engineTurn hi]
    exact engineStep_idle hb

/-- Settles O8: the placed turn comes first, and the accepted word is then the pending command. -/
theorem placedWordIsExecutedNext : Obligations.PlacedWordIsExecutedNext := by
  unfold Obligations.PlacedWordIsExecutedNext
  intro s nbits w i hw
  have hturn : (s.withFetchWord nbits w).inputs = .engineTurn :: s.inputs := rfl
  rw [step_engineTurn hturn]
  exact engineStep_command (s := s.accept (tableWord nbits w)) rfl (decode_of_decodeTableWord hw)

/-- Settles O54: an idle engine does not discard the write, and the offset is that of CMD. -/
theorem commandIsAcceptedWhenIdle : Obligations.CommandIsAcceptedWhenIdle := by
  unfold Obligations.CommandIsAcceptedWhenIdle
  intro s w rest hb hi
  rw [step_write_idle hb hi (by decide) (by decide) (t := .cmd) rfl]
  rfl

end Sys2Proof.Machine

/-! PROOF. Every accepted command ends (70_reset_and_hazards.md R280, R290): an event that leaves the engine busy is taken off
the schedule, and the engine's turn leaves it idle. -/

namespace Sys2Proof.Machine

/-- Settles O14: a power-on reset has the invariant from every state, the reset state among them. -/
theorem resetHasTheInvariant : Obligations.ResetHasTheInvariant := by
  unfold Obligations.ResetHasTheInvariant
  exact State.powerOnReset_inv .reset

/-! The engine's turn ends a command. -/

theorem exec_ends (i : Instr) (s : State) : ∃ t, exec i s = .next t ∧ t.status.busy = false := by
  rcases exec_cases i s with ⟨e, he⟩ | ⟨u, -, he⟩
  · exact ⟨_, he, rfl⟩
  · exact ⟨_, he, rfl⟩

theorem engineStep_ends (s : State) : ∃ t, engineStep s = .next t ∧ t.status.busy = false := by
  cases hb : s.status.busy with
  | false => exact ⟨s, engineStep_idle hb, hb⟩
  | true =>
    cases hd : decode s.cmd with
    | command i =>
      rw [engineStep_command hb hd]
      exact exec_ends i s
    | illegal why => exact ⟨_, engineStep_illegal hb hd, rfl⟩

/-! A host access leaves the events to come alone. -/

theorem hostRead_inputs (s : State) (bytes off : Nat) : (s.hostRead bytes off).inputs = s.inputs := by
  obtain ⟨hread, -⟩ := ReadChanges.hostRead s bytes off
  rw [hread]

theorem writeTarget_inputs (s : State) (v : Word) (t : Target) : (s.writeTarget v t).inputs = s.inputs := by
  cases t with
  | ctrl => simp only [State.writeTarget, State.writeCtrl]; split <;> rfl
  | cell off => simp only [State.writeTarget]; split <;> rfl
  | id | status | cmd | version | ecl | mask | cwlen | modcnt | plen | res | tscore | coef | cw | unmapped => rfl

theorem hostWriteTarget_inputs (s : State) (t : Target) (v : Word) : (s.hostWriteTarget t v).inputs = s.inputs := by
  unfold State.hostWriteTarget
  split
  · rfl
  · exact writeTarget_inputs s v t

theorem hostWrite_inputs (s : State) (bytes off : Nat) (v : Word) : (s.hostWrite bytes off v).inputs = s.inputs := by
  unfold State.hostWrite
  split
  · exact hostWriteTarget_inputs s _ v
  · rfl

/-! Steps and runs. -/

/-- The step of an event leaves the engine idle, or the events after it still to come. -/
theorem step_idle_or_rest {s : State} {event : HostEvent} {rest : List HostEvent} (hi : s.inputs = event :: rest) :
    ∃ t, step s = .next t ∧ (t.status.busy = false ∨ t.inputs = rest) := by
  cases event with
  | hostRead bytes off => exact ⟨_, step_hostRead hi, .inr (hostRead_inputs _ bytes off)⟩
  | hostWrite bytes off v => exact ⟨_, step_hostWrite hi, .inr (hostWrite_inputs _ bytes off v)⟩
  | powerOn => exact ⟨_, step_powerOn hi, .inl rfl⟩
  | engineTurn =>
    obtain ⟨t, hstep, hidle⟩ := engineStep_ends { s with inputs := rest }
    exact ⟨t, (step_engineTurn hi).trans hstep, .inl hidle⟩

theorem step_answers_next (s : State) : ∃ t, step s = .next t := by
  cases hi : s.inputs with
  | nil =>
    obtain ⟨t, hstep, -⟩ := engineStep_ends s
    exact ⟨t, (step_nil hi).trans hstep⟩
  | cons event rest =>
    obtain ⟨t, hstep, -⟩ := step_idle_or_rest hi
    exact ⟨t, hstep⟩

/-- By induction on the events to come: each leaves fewer, and with none left the engine has its turn. -/
theorem run_reaches_idle {s : State} {events : List HostEvent} (hi : s.inputs = events) :
    ∃ k t, k ≤ events.length + 1 ∧ Host.Core.run core k s = .next t ∧ t.status.busy = false := by
  induction events generalizing s with
  | nil =>
    obtain ⟨t, hstep, hidle⟩ := engineStep_ends s
    exact ⟨1, t, by simp, run_next 0 ((step_nil hi).trans hstep), hidle⟩
  | cons event rest ih =>
    obtain ⟨t, hstep, hidle | hrest⟩ := step_idle_or_rest hi
    · exact ⟨1, t, by simp, run_next 0 hstep, hidle⟩
    · obtain ⟨k, u, hk, hrun, hidle⟩ := ih hrest
      exact ⟨k + 1, u, by simpa using hk, (run_next k hstep).trans hrun, hidle⟩

/-- Settles O9: a step of the engine or of an event, and the induction on the events to come. -/
theorem everyAcceptedCommandEnds : Obligations.EveryAcceptedCommandEnds := by
  unfold Obligations.EveryAcceptedCommandEnds
  exact ⟨step_answers_next, fun s => run_reaches_idle rfl⟩

end Sys2Proof.Machine

/-! PROOF. The host's accesses while BUSY = 1 (70_reset_and_hazards.md R285, R286), by the ranges of the map
(20_memory.md R61). -/

namespace Sys2Proof.Machine

/-! The ranges of the map. -/

section Ranges

variable {off : Nat}

theorem targetOf_plen_range (h4 : off % 4 = 0) (h : 0x0030 ≤ off) (h' : off ≤ 0x003C) : ∃ p, targetOf off = .plen p := by
  obtain ⟨p, hp, rfl⟩ : ∃ p < 4, off = 0x0030 + 4 * p := ⟨(off - 0x0030) / 4, by omega, by omega⟩
  exact ⟨_, targetOf_plen hp⟩

/-- RES0..7 and TSCORE0..7 lie side by side. -/
theorem targetOf_result_range (h4 : off % 4 = 0) (h : 0x0040 ≤ off) (h' : off ≤ 0x007C) :
    ∃ k, targetOf off = .res k ∨ targetOf off = .tscore k := by
  rcases Nat.lt_or_ge off 0x0060 with hlt | hge
  · obtain ⟨k, hk, rfl⟩ : ∃ k < 8, off = 0x0040 + 4 * k := ⟨(off - 0x0040) / 4, by omega, by omega⟩
    exact ⟨_, .inl (targetOf_res hk)⟩
  · obtain ⟨k, hk, rfl⟩ : ∃ k < 8, off = 0x0060 + 4 * k := ⟨(off - 0x0060) / 4, by omega, by omega⟩
    exact ⟨_, .inr (targetOf_tscore hk)⟩

theorem targetOf_cw_range (h4 : off % 4 = 0) (h : 0x4000 ≤ off) (h' : off < 0x8000) : targetOf off = .cw off := by
  obtain ⟨i, hi, rfl⟩ : ∃ i < 4096, off = cwAddr i := ⟨(off - 0x4000) / 4, by omega, by unfold cwAddr; omega⟩
  exact targetOf_cw hi

/-- From the codeword memory on, only cells are mapped. -/
theorem targetOf_no_cell (h : 0x8000 ≤ off) (hcell : ¬ ∃ r c, r < 177 ∧ c < 177 ∧ off = cellAddr r c) :
    targetOf off = .unmapped := by
  have hcw : ¬ isCwAddr off = true := by
    rw [isCwAddr_iff]
    rintro ⟨i, hi, rfl⟩
    unfold cwAddr at h
    omega
  rw [targetOf_of_ge (by omega), if_neg hcw, if_neg (mt (isCellAddr_iff off).mp hcell)]

theorem targetOf_vacant (h : (0x0024 ≤ off ∧ off < 0x0030) ∨ (0x0080 ≤ off ∧ off < 0x1000) ∨
    (0x2000 ≤ off ∧ off < 0x4000) ∨ (0x8000 ≤ off ∧ ¬ ∃ r c, r < 177 ∧ c < 177 ∧ off = cellAddr r c)) :
    targetOf off = .unmapped := by
  rcases h with h | h | h | ⟨h, hcell⟩
  · exact targetOf_unmapped (.inl h)
  · exact targetOf_unmapped (.inr (.inl h))
  · exact targetOf_unmapped (.inr (.inr (.inl h)))
  · exact targetOf_no_cell h hcell

end Ranges

/-! Reads. -/

/-- Settles O52: each range by its target, which is engine-written and drawn, or read as at any time. -/
theorem readsWhileBusy : Obligations.ReadsWhileBusy := by
  unfold Obligations.ReadsWhileBusy
  intro s off rest hb hi h4 hlt isCell answers draws
  have hdrawn {t : Target} {w : Nat} (ht : targetOf off = t) (he : t.engineWritten = some w) : draws w :=
    step_read_drawn hb hi h4 hlt (ht ▸ he)
  have hplain {t : Target} (ht : targetOf off = t) (he : t.engineWritten = none) {n : Nat}
      (hn : (s.readTarget t).toNat = n) : answers n :=
    step_read_plain hi h4 hlt ht (.inr he) hn
  refine ⟨fun ⟨h, h'⟩ => ?_, ?_, fun ⟨h, h'⟩ => ?_, fun ⟨h, h'⟩ => hdrawn (targetOf_coef h h') rfl, ?_, ?_, ?_, ?_, ?_, ?_,
    ?_, ?_, ?_, fun ⟨h, h'⟩ => ?_, fun h => hplain (targetOf_vacant h) rfl rfl⟩
  · obtain ⟨k, ht | ht⟩ := targetOf_result_range h4 h h'
    · exact hdrawn ht rfl
    · exact hdrawn ht rfl
  · rintro rfl; exact hdrawn (t := .mask) rfl rfl
  · obtain ⟨p, ht⟩ := targetOf_plen_range h4 h h'
    exact hdrawn ht rfl
  · rintro ⟨r, c, hr, hc, rfl⟩; exact hdrawn (targetOf_cell hr hc) rfl
  · rintro rfl; exact hplain (t := .id) rfl rfl rfl
  · rintro rfl; exact hplain (t := .ctrl) rfl rfl (Ctrl.word_toNat _)
  · rintro rfl
    have hword := s.status.word_toNat
    rw [hb] at hword
    exact hplain (t := .status) rfl rfl hword
  · rintro rfl; exact hplain (t := .cmd) rfl rfl rfl
  · rintro rfl; exact hplain (t := .version) rfl rfl (BitVec.toNat_setWidth_of_le (by decide))
  · rintro rfl; exact hplain (t := .ecl) rfl rfl (BitVec.toNat_setWidth_of_le (by decide))
  · rintro rfl; exact hplain (t := .cwlen) rfl rfl (BitVec.toNat_setWidth_of_le (by decide))
  · rintro rfl; exact hplain (t := .modcnt) rfl rfl (modcnt_toNat s)
  · exact hplain (targetOf_cw_range h4 h h') rfl (BitVec.toNat_setWidth_of_le (by decide))

/-! Writes. -/

/-- The offsets a host may write, but CTRL and STATUS (70_reset_and_hazards.md R285). -/
def IsGuardedOffset (off : Nat) : Prop :=
  off = 0x000C ∨ (0x0010 ≤ off ∧ off ≤ 0x001C) ∨ (0x0030 ≤ off ∧ off ≤ 0x003C) ∨ (0x1000 ≤ off ∧ off < 0x2000) ∨
    (0x4000 ≤ off ∧ off < 0x8000) ∨ ∃ r c, r < 177 ∧ c < 177 ∧ off = cellAddr r c

theorem IsGuardedOffset.guarded {off : Nat} (h : IsGuardedOffset off) (h4 : off % 4 = 0) :
    (targetOf off).guarded = true := by
  rcases h with rfl | ⟨h, h'⟩ | ⟨h, h'⟩ | ⟨h, h'⟩ | ⟨h, h'⟩ | ⟨r, c, hr, hc, rfl⟩
  · rfl
  · obtain rfl | rfl | rfl | rfl : off = 0x0010 ∨ off = 0x0014 ∨ off = 0x0018 ∨ off = 0x001C := by omega
    · rfl
    · rfl
    · rfl
    · rfl
  · obtain ⟨p, ht⟩ := targetOf_plen_range h4 h h'
    rw [ht]; rfl
  · rw [targetOf_coef h h']; rfl
  · rw [targetOf_cw_range h4 h h']; rfl
  · rw [targetOf_cell hr hc]; rfl

/-- The targets that ignore a write: the read-only registers, and no register at all. -/
def Target.ignoresWrites : Target → Bool
  | .id | .modcnt | .res _ | .tscore _ | .unmapped => true
  | _ => false

theorem write_of_ignoresWrites {t : Target} (h : t.ignoresWrites = true) :
    t.guarded = false ∧ ∀ (s : State) (v : Word), s.writeTarget v t = s := by
  cases t with
  | id | modcnt | res | tscore | unmapped => exact ⟨rfl, fun _ _ => rfl⟩
  | ctrl | status | cmd | version | ecl | mask | cwlen | plen | coef | cw | cell => cases h

/-- The other offsets, but those of CTRL and STATUS. -/
theorem ignoresWrites_of_not_isGuardedOffset {off : Nat} (h : ¬ IsGuardedOffset off) (h4 : off % 4 = 0)
    (hctrl : off ≠ 0x0004) (hstatus : off ≠ 0x0008) : (targetOf off).ignoresWrites = true := by
  simp only [IsGuardedOffset, not_or] at h
  obtain ⟨hcmd, hfields, hplen, hcoef, hcw, hcell⟩ := h
  obtain rfl | rfl | ⟨hlo, hhi⟩ | hvacant : off = 0x0000 ∨ off = 0x0020 ∨ (0x0040 ≤ off ∧ off ≤ 0x007C) ∨
      (0x0024 ≤ off ∧ ¬ (0x0040 ≤ off ∧ off ≤ 0x007C)) := by omega
  · rfl
  · rfl
  · obtain ⟨k, ht | ht⟩ := targetOf_result_range h4 hlo hhi
    · rw [ht]; rfl
    · rw [ht]; rfl
  · rw [targetOf_vacant (by simp only [hcell, not_false_eq_true, and_true]; omega)]
    rfl

/-- Settles O53: a guarded offset has a guarded target, and every other one a target that ignores writes. -/
theorem writesWhileBusyAreDiscarded : Obligations.WritesWhileBusyAreDiscarded := by
  unfold Obligations.WritesWhileBusyAreDiscarded
  intro s off v rest hb hi h4 hlt hctrl hstatus discarded
  refine ⟨fun (h : IsGuardedOffset off) => ?_, fun (h : ¬ IsGuardedOffset off) => ?_⟩
  · rw [step_hostWrite hi, hostWrite_legal _ v h4 hlt, hostWriteTarget_discarded (s := { s with inputs := rest }) hb
      (h.guarded h4)]
    rfl
  · obtain ⟨hguarded, hkeeps⟩ :=
      write_of_ignoresWrites (ignoresWrites_of_not_isGuardedOffset h h4 hctrl hstatus)
    rw [step_write_unguarded hi h4 hlt rfl hguarded, hkeeps]
    rfl

end Sys2Proof.Machine
